-- ==== Sys2Proof/Word.lean ====
section
/-! DEFINITION. The words of the block (00_scope R9, R10): bit 0 is the least significant bit, every stored word is
unsigned. -/

namespace Sys2Proof

/-- A command word: always exactly 32 bits (30_encoding R90, R96). -/
abbrev CmdWord := BitVec 32

/-- A word address of the host port: 65536 addresses (20_memory R60). -/
abbrev Addr := BitVec 16

end Sys2Proof
end

