-- ==== Sys2Proof/Config.lean ====
section
/-! DEFINITION. What an implementation fixes (00_scope R7) and the free values: what the spec calls unspecified
(93_implementation_defined U3, U5, U6), as constants without a body, so that no proof can see what they are. -/

namespace Sys2Proof

/-- The three implementation parameters with the constraints of 00_scope R7. A model takes them as arguments: they are
a field of State that no step changes (log 1). -/
structure Params where
  /-- Width in bits of a data word. -/
  W : Nat
  /-- Lanes of a vector register. -/
  NMAX : Nat
  /-- Largest number of moduli RDECONS accepts; XW is `KMAX*W` bits. -/
  KMAX : Nat
  W_ge : 32 ≤ W
  NMAX_pos : 1 ≤ NMAX
  NMAX_le : NMAX ≤ 4096
  KMAX_pos : 1 ≤ KMAX
  KMAX_le_NMAX : KMAX ≤ NMAX
  KMAX_le : KMAX ≤ 64
deriving DecidableEq, Repr

/-- The reference instance of 00_scope R7: `W = 128`, `NMAX = 16`, `KMAX = 8`. -/
def Params.reference : Params where
  W := 128
  NMAX := 16
  KMAX := 8
  W_ge := by decide
  NMAX_pos := by decide
  NMAX_le := by decide
  KMAX_pos := by decide
  KMAX_le_NMAX := by decide
  KMAX_le := by decide

/-- A data word: a scalar register, a lane, a limb of XW, the data of one host access. -/
abbrev Word (p : Params) := BitVec p.W

/-- FREE VALUE (DESIGN CHOICE, log 5). The word that draw number `n` returns to the host where the spec says
"unspecified": a faulting read, and a read of anything but STATUS, ERR, ERRINFO in mode FAULT (20_memory R73,
60_exceptions R209). -/
opaque Config.freeWord (W : Nat) (n : Nat) : BitVec W

/-- FREE VALUE (DESIGN CHOICE, log 6). What lane `i` of `v[r]` holds after the reset with draw number `n`
(10_state R39: "any `W`-bit word, not necessarily the same at two resets"). -/
opaque Config.resetLane (W : Nat) (n r i : Nat) : BitVec W

/-- FREE VALUE (DESIGN CHOICE, log 7). What PEND holds after the reset with draw number `n` (10_state R37, R39:
"no meaning"). -/
opaque Config.resetPend (n : Nat) : CmdWord

end Sys2Proof
end

