-- ==== Sys2Proof/Syntax.lean ====
section
/-! DEFINITION. The sixteen commands (30_encoding R93), the fields of a command word (R90) and the eight formats
(R92). -/

namespace Sys2Proof

/-- Index of a scalar register `x0..x7` (10_state R21). -/
abbrev XIdx := Fin 8

/-- Index of a vector register `v0..v7` (10_state R24). -/
abbrev VIdx := Fin 8

/-- A command: one constructor per row of the opcode table, the operands in the order `rd`, `ra`, `rb`, `rm` as far
as the command's format uses them (30_encoding R92, R93). An index is 0..7 by its type (R91). -/
inductive Instr where
  /-- `MADD xd, xa, xb, xm` -/
  | madd (rd ra rb rm : XIdx)
  /-- `MSUB xd, xa, xb, xm` -/
  | msub (rd ra rb rm : XIdx)
  /-- `MMUL xd, xa, xb, xm` -/
  | mmul (rd ra rb rm : XIdx)
  /-- `MINV xd, xa, xm` -/
  | minv (rd ra rm : XIdx)
  /-- `PADD vd, va, vb, xm` -/
  | padd (rd ra rb : VIdx) (rm : XIdx)
  /-- `PSUB vd, va, vb, xm` -/
  | psub (rd ra rb : VIdx) (rm : XIdx)
  /-- `PNEG vd, va, xm` -/
  | pneg (rd ra : VIdx) (rm : XIdx)
  /-- `PMULC vd, va, vb, xm` -/
  | pmulc (rd ra rb : VIdx) (rm : XIdx)
  /-- `PMULN vd, va, vb, xm` -/
  | pmuln (rd ra rb : VIdx) (rm : XIdx)
  /-- `PRED vd, va, xm` -/
  | pred (rd ra : VIdx) (rm : XIdx)
  /-- `PNORM xd, va` -/
  | pnorm (rd : XIdx) (ra : VIdx)
  /-- `RCONS vd, vm`, source XW -/
  | rcons (rd rm : VIdx)
  /-- `RADD vd, va, vb, vm` -/
  | radd (rd ra rb rm : VIdx)
  /-- `RSUB vd, va, vb, vm` -/
  | rsub (rd ra rb rm : VIdx)
  /-- `RMUL vd, va, vb, vm` -/
  | rmul (rd ra rb rm : VIdx)
  /-- `RDECONS va, vm`, destination XW -/
  | rdecons (ra rm : VIdx)
deriving DecidableEq, Repr

/-- The opcodes by name (30_encoding R93). -/
inductive Op where
  | MADD | MSUB | MMUL | MINV
  | PADD | PSUB | PNEG | PMULC | PMULN | PRED | PNORM
  | RCONS | RADD | RSUB | RMUL | RDECONS
deriving DecidableEq, Repr

/-- The formats of 30_encoding R92. -/
inductive Format where
  | S4 | S3 | V4 | V3 | VN | R4 | RC | RD
deriving DecidableEq, Repr

/-- The fields of a command word (30_encoding R90), before any check: a register index field is 4 bits wide and may
hold a number that names no register. -/
structure Fields where
  op : BitVec 8
  rd : BitVec 4
  ra : BitVec 4
  rb : BitVec 4
  rm : BitVec 4
  z : BitVec 8
deriving DecidableEq, Repr

end Sys2Proof
end

