-- ==== Sys2Proof/WellFormed.lean ====
section
/-! DEFINITION. When the fields of a command word are well formed for a format (30_encoding R91, R92, R97). A term of
`Instr` names only registers that exist, by its type; what can be ill formed is the raw word, so the checks stand on
`Fields` (log 16). -/

namespace Sys2Proof

/-- The format uses `rd` (30_encoding R92: all but RD, whose destination is XW). -/
def Format.usesRd : Format → Bool
  | .S4 | .S3 | .V4 | .V3 | .VN | .R4 | .RC => true
  | .RD => false

/-- The format uses `ra` (R92: all but RC, whose source is XW). -/
def Format.usesRa : Format → Bool
  | .S4 | .S3 | .V4 | .V3 | .VN | .R4 | .RD => true
  | .RC => false

/-- The format uses `rb` (R92). -/
def Format.usesRb : Format → Bool
  | .S4 | .V4 | .R4 => true
  | .S3 | .V3 | .VN | .RC | .RD => false

/-- The format uses `rm` (R92: all but VN). -/
def Format.usesRm : Format → Bool
  | .S4 | .S3 | .V4 | .V3 | .R4 | .RC | .RD => true
  | .VN => false

/-- In a used field bit 3 is 0, that is, the index names a register (30_encoding R91). -/
def usedInRange (used : Bool) (field : BitVec 4) : Bool := !used || field.toNat < 8

/-- An unused field is zero (30_encoding R91). -/
def unusedIsZero (used : Bool) (field : BitVec 4) : Bool := used || field == 0

/-- Every index field the format uses names a register. -/
def Format.indexesInRange (F : Format) (f : Fields) : Bool :=
  usedInRange F.usesRd f.rd && usedInRange F.usesRa f.ra && usedInRange F.usesRb f.rb && usedInRange F.usesRm f.rm

/-- Every index field the format does not use is zero. -/
def Format.unusedAreZero (F : Format) (f : Fields) : Bool :=
  unusedIsZero F.usesRd f.rd && unusedIsZero F.usesRa f.ra && unusedIsZero F.usesRb f.rb && unusedIsZero F.usesRm f.rm

/-- The `z` field is zero (30_encoding R90). -/
def Fields.reservedIsZero (f : Fields) : Bool := f.z == 0

/-- The fields are well formed for the format: the three checks of 30_encoding R97 after the opcode is known. -/
def Format.wellFormed (F : Format) (f : Fields) : Bool :=
  f.reservedIsZero && F.indexesInRange f && F.unusedAreZero f

end Sys2Proof
end

