-- ==== Sys2Proof/Decode.lean ====
section
/-! DEFINITION. The decoder, total on every 32-bit word (30_encoding R95, R97), and after it the encoder, both from the
opcode table (R93). -/

namespace Sys2Proof

/-- Why a word is an illegal encoding (30_encoding R95). The block does not tell them apart: each raises
IllegalCommand (60_exceptions R204). -/
inductive Reject where
  | unknownOpcode
  | reservedBitsSet
  | indexOutOfRange
  | unusedFieldSet
deriving DecidableEq, Repr

/-- The rows of 30_encoding R93, in the table's order. -/
def Op.all : List Op :=
  [.MADD, .MSUB, .MMUL, .MINV, .PADD, .PSUB, .PNEG, .PMULC, .PMULN, .PRED, .PNORM, .RCONS, .RADD, .RSUB, .RMUL, .RDECONS]

/-- The opcode byte (30_encoding R93). -/
def Op.code : Op → BitVec 8
  | .MADD => 0x10
  | .MSUB => 0x11
  | .MMUL => 0x12
  | .MINV => 0x20
  | .PADD => 0x30
  | .PSUB => 0x31
  | .PNEG => 0x32
  | .PMULC => 0x33
  | .PMULN => 0x34
  | .PRED => 0x35
  | .PNORM => 0x36
  | .RCONS => 0x40
  | .RADD => 0x41
  | .RSUB => 0x42
  | .RMUL => 0x43
  | .RDECONS => 0x44

/-- The format of an opcode (30_encoding R93). -/
def Op.format : Op → Format
  | .MADD | .MSUB | .MMUL => .S4
  | .MINV => .S3
  | .PADD | .PSUB | .PMULC | .PMULN => .V4
  | .PNEG | .PRED => .V3
  | .PNORM => .VN
  | .RCONS => .RC
  | .RADD | .RSUB | .RMUL => .R4
  | .RDECONS => .RD

/-- The mask of a format: 1 at every bit whose value the encoding fixes (30_encoding R92). -/
def Format.mask : Format → CmdWord
  | .S4 => 0xFF8888FF
  | .S3 => 0xFF88F8FF
  | .V4 => 0xFF8888FF
  | .V3 => 0xFF88F8FF
  | .VN => 0xFF88FFFF
  | .R4 => 0xFF8888FF
  | .RC => 0xFF8FF8FF
  | .RD => 0xFFF8F8FF

/-- The match word of an opcode, `op << 24` (30_encoding R92). -/
def Op.matchWord (o : Op) : CmdWord := o.code.setWidth 32 <<< 24

/-- The opcode a byte names, if any (30_encoding R97). -/
def Op.ofCode (c : BitVec 8) : Option Op := Op.all.find? (fun o => o.code == c)

/-- The fields of a word (30_encoding R90). -/
def Fields.ofWord (w : CmdWord) : Fields where
  op := w.extractLsb' 24 8
  rd := w.extractLsb' 20 4
  ra := w.extractLsb' 16 4
  rb := w.extractLsb' 12 4
  rm := w.extractLsb' 8 4
  z := w.extractLsb' 0 8

/-- The word of given fields, most significant field first (30_encoding R90). -/
def Fields.toWord (f : Fields) : CmdWord := f.op ++ f.rd ++ f.ra ++ f.rb ++ f.rm ++ f.z

/-- The register a 4-bit index field names: its bits 2..0 (30_encoding R94). -/
def regIndex (field : BitVec 4) : Fin 8 := ⟨field.toNat % 8, Nat.mod_lt _ (by decide)⟩

/-- The command of an opcode and four index fields; a format ignores the fields it does not use. -/
def Op.build (o : Op) (d a b m : Fin 8) : Instr :=
  match o with
  | .MADD => .madd d a b m
  | .MSUB => .msub d a b m
  | .MMUL => .mmul d a b m
  | .MINV => .minv d a m
  | .PADD => .padd d a b m
  | .PSUB => .psub d a b m
  | .PNEG => .pneg d a m
  | .PMULC => .pmulc d a b m
  | .PMULN => .pmuln d a b m
  | .PRED => .pred d a m
  | .PNORM => .pnorm d a
  | .RCONS => .rcons d m
  | .RADD => .radd d a b m
  | .RSUB => .rsub d a b m
  | .RMUL => .rmul d a b m
  | .RDECONS => .rdecons a m

/-- The decode algorithm of 30_encoding R97: opcode, then `z`, then the used fields, then the unused ones. -/
def decode (w : CmdWord) : Except Reject Instr :=
  let f := Fields.ofWord w
  match Op.ofCode f.op with
  | none => .error .unknownOpcode
  | some o =>
    if !f.reservedIsZero then .error .reservedBitsSet
    else if !o.format.indexesInRange f then .error .indexOutOfRange
    else if !o.format.unusedAreZero f then .error .unusedFieldSet
    else .ok (o.build (regIndex f.rd) (regIndex f.ra) (regIndex f.rb) (regIndex f.rm))

/-- The opcode of a command (30_encoding R93). -/
def Instr.op : Instr → Op
  | .madd _ _ _ _ => .MADD
  | .msub _ _ _ _ => .MSUB
  | .mmul _ _ _ _ => .MMUL
  | .minv _ _ _ => .MINV
  | .padd _ _ _ _ => .PADD
  | .psub _ _ _ _ => .PSUB
  | .pneg _ _ _ => .PNEG
  | .pmulc _ _ _ _ => .PMULC
  | .pmuln _ _ _ _ => .PMULN
  | .pred _ _ _ => .PRED
  | .pnorm _ _ => .PNORM
  | .rcons _ _ => .RCONS
  | .radd _ _ _ _ => .RADD
  | .rsub _ _ _ _ => .RSUB
  | .rmul _ _ _ _ => .RMUL
  | .rdecons _ _ => .RDECONS

/-- An index field holding a register number. -/
def indexField (r : Fin 8) : BitVec 4 := BitVec.ofNat 4 r.val

/-- The fields of a command of opcode `o` with the given index fields and `z = 0`. -/
def Op.fields (o : Op) (d a b m : BitVec 4) : Fields := { op := o.code, rd := d, ra := a, rb := b, rm := m, z := 0 }

/-- The fields of a command, unused ones zero (30_encoding R97). -/
def Instr.fields : Instr → Fields
  | .madd d a b m => Op.MADD.fields (indexField d) (indexField a) (indexField b) (indexField m)
  | .msub d a b m => Op.MSUB.fields (indexField d) (indexField a) (indexField b) (indexField m)
  | .mmul d a b m => Op.MMUL.fields (indexField d) (indexField a) (indexField b) (indexField m)
  | .minv d a m => Op.MINV.fields (indexField d) (indexField a) 0 (indexField m)
  | .padd d a b m => Op.PADD.fields (indexField d) (indexField a) (indexField b) (indexField m)
  | .psub d a b m => Op.PSUB.fields (indexField d) (indexField a) (indexField b) (indexField m)
  | .pneg d a m => Op.PNEG.fields (indexField d) (indexField a) 0 (indexField m)
  | .pmulc d a b m => Op.PMULC.fields (indexField d) (indexField a) (indexField b) (indexField m)
  | .pmuln d a b m => Op.PMULN.fields (indexField d) (indexField a) (indexField b) (indexField m)
  | .pred d a m => Op.PRED.fields (indexField d) (indexField a) 0 (indexField m)
  | .pnorm d a => Op.PNORM.fields (indexField d) (indexField a) 0 0
  | .rcons d m => Op.RCONS.fields (indexField d) 0 0 (indexField m)
  | .radd d a b m => Op.RADD.fields (indexField d) (indexField a) (indexField b) (indexField m)
  | .rsub d a b m => Op.RSUB.fields (indexField d) (indexField a) (indexField b) (indexField m)
  | .rmul d a b m => Op.RMUL.fields (indexField d) (indexField a) (indexField b) (indexField m)
  | .rdecons a m => Op.RDECONS.fields 0 (indexField a) 0 (indexField m)

/-- The encoder: the inverse of the decoder (30_encoding R97). -/
def encode (i : Instr) : CmdWord := i.fields.toWord

/-- The host's reading of one table word: a command is exactly one 32-bit word (30_encoding R96), whose bit numbering
is the table's; bits at and above `nbits` are 0, and a number that does not fit 32 bits is no command (log 11). -/
def decodeTableWord (nbits w : Nat) : Option Instr :=
  if w % 2 ^ nbits < 2 ^ 32 then (decode (BitVec.ofNat 32 (w % 2 ^ nbits))).toOption else none

end Sys2Proof
end

