-- ==== Sys2Proof/Machine/State.lean ====
section
/-! DEFINITION. The state: the block's components, exactly those of 10_state R20, the implementation parameters, and
the host's side of the port. All of it is plain data. -/

namespace Sys2Proof.Machine

/-- The three modes of the block (10_state R30). -/
inductive Mode where
  | idle
  | busy
  | fault
deriving DecidableEq, Repr

/-- The faults of the spec (60_exceptions R201). Each is an entry into mode FAULT, a next state of the model. -/
inductive FaultName where
  /-- The command word is an illegal encoding (R204). -/
  | illegalCommand
  /-- A register the command reads is EMPTY (R205). -/
  | emptyOperand
  /-- Vector operands of unequal length (R206). -/
  | dimMismatch
  /-- A modulus word is 0 (R207). -/
  | zeroModulus
  /-- RDECONS: some `Q_i` has no inverse modulo `m_i` (R208). -/
  | notCoprime
  /-- RDECONS: `k > KMAX` (R208). -/
  | lenRange
  /-- An access other than a read of STATUS, ERR, ERRINFO while BUSY (R209). -/
  | busyAccess
  /-- A read of an EMPTY register, or of a lane at or above the length (R209). -/
  | emptyRead
  /-- An unmapped address, a write to a read-only register, a read of CMD (R209). -/
  | badAddress
  /-- A write to CMD with bits above 31 set, or to VLENr of a value above NMAX (R209). -/
  | badValue
deriving DecidableEq, Repr

/-- A vector register: `NMAX` lanes and a length tag in `0..NMAX`, 0 meaning EMPTY (10_state R24). -/
structure VReg (p : Params) where
  lanes : Vector (Word p) p.NMAX
  len : Fin (p.NMAX + 1)
deriving DecidableEq, Repr

/-- The complete state of the block (10_state R20). A scalar register or XW whose valid tag is 0 is `none`: it holds
no value (R23, log 9). -/
structure Block (p : Params) where
  /-- `x0..x7` (R21). -/
  x : Vector (Option (Word p)) 8
  /-- `v0..v7` (R24). -/
  v : Vector (VReg p) 8
  /-- XW, `KMAX*W` bits (R26). -/
  xw : Option (BitVec (p.KMAX * p.W))
  /-- IDLE, BUSY or FAULT (R30). -/
  mode : Mode
  /-- STATUS bit 2 (R29). -/
  noinv : Bool
  /-- ERR (R33). -/
  err : BitVec 8
  /-- ERRINFO (R34). -/
  errinfo : BitVec 32
  /-- PEND (R37). -/
  pend : CmdWord
deriving DecidableEq, Repr

/-- What the host can do (00_scope R6, R12; 70_reset_and_hazards R230). -/
inductive HostAction (p : Params) where
  /-- `MemRead(a, 1)` -/
  | read (a : Addr)
  /-- `MemWrite(a, 1, w)` -/
  | write (a : Addr) (w : Word p)
  /-- the reset event -/
  | reset
deriving DecidableEq, Repr

/-- Who moves next (log 2): the block, which completes its command if one is pending, or the host, by one action. -/
inductive Turn (p : Params) where
  | block
  | host (a : HostAction p)
deriving DecidableEq, Repr

/-- What one read returned to the host (log 4). -/
structure HostRead (p : Params) where
  addr : Addr
  word : Word p
deriving DecidableEq, Repr

/-- The host's side of the port: the model's own fields, no state of the block. -/
structure HostSide (p : Params) where
  /-- The turns still to come, next first (log 2). -/
  turns : List (Turn p)
  /-- What the reads returned, newest first (log 4). -/
  reads : List (HostRead p)
  /-- How many draws of an unspecified value have been made (log 8). -/
  draws : Nat
deriving DecidableEq, Repr

/-- The machine: the parameters (log 1), the block, and the host's side. -/
structure State where
  cfg : Params
  block : Block cfg
  host : HostSide cfg
deriving DecidableEq, Repr

/-- Reasons the model stops with a fault. There are none: every fault of the spec is an entry into mode FAULT, a next
state (60_exceptions R203), and nothing else stops the block (log 10). Raised by nobody, so it is neither safe nor
unsafe. -/
inductive Fault
deriving DecidableEq, Repr

/-- Reasons the model refuses. -/
inductive Refusal where
  /-- An instruction that has no meaning yet: raised by an arm of exec only, and no arm raises it now. Safe: the model
  stops where the block goes on. -/
  | notModelled (mnemonic : String)
deriving DecidableEq, Repr

/-- The block right after the reset with draw number `n` (10_state R39): mode IDLE, every register EMPTY, the flag and
the fault registers zero; the lanes and PEND, which the spec leaves unspecified, are free values (log 6, log 7). -/
def Block.afterReset (p : Params) (n : Nat) : Block p where
  x := Vector.replicate 8 none
  v := Vector.ofFn fun r => { lanes := Vector.ofFn fun i => Config.resetLane p.W n r.val i.val, len := 0 }
  xw := none
  mode := .idle
  noinv := false
  err := 0
  errinfo := 0
  pend := Config.resetPend n

/-- The machine right after reset, at the reference instance (log 1), with an empty host script (log 2); draw 0 was the
reset's own (log 8). -/
def State.reset : State where
  cfg := Params.reference
  block := Block.afterReset Params.reference 0
  host := { turns := [], reads := [], draws := 1 }

end Sys2Proof.Machine
end

