-- ==== Sys2Proof/Machine/Arith.lean ====
section
/-! DEFINITION. What the commands compute, on unbounded naturals and integers (40_scalar_modular R110): exact results,
reduced once at the end with the Euclidean remainder (00_scope R11). A vector operand is the function from its lane
index to the lane's unsigned value. -/

namespace Sys2Proof.Machine.Arith

/-- `(a + b) mod q` (40_scalar_modular R112). -/
def addMod (a b q : Nat) : Nat := (a + b) % q

/-- `(a - b) mod q` with the exact, possibly negative, difference; the remainder is never negative (R113). -/
def subMod (a b q : Nat) : Nat := (((a : Int) - (b : Int)) % (q : Int)).toNat

/-- `(a * b) mod q` (R114). -/
def mulMod (a b q : Nat) : Nat := (a * b) % q

/-- The extended Euclidean loop of 41_modular_inverse R122 from `(old_r, r)` and `(old_s, s)`: the final `old_r` and
`old_s`. `r` strictly decreases, so `fuel > r` never runs out (log 15). -/
def euclid : (fuel oldR r : Nat) → (oldS s : Int) → Nat × Int
  | 0, oldR, _, oldS, _ => (oldR, oldS)
  | fuel + 1, oldR, r, oldS, s =>
    if r = 0 then (oldR, oldS) else euclid fuel r (oldR % r) s (oldS - ((oldR / r : Nat) : Int) * s)

/-- The reference algorithm of 41_modular_inverse R122 on `(a, m)`: the greatest common divisor and the coefficient of
`a`. -/
def extendedEuclid (a m : Nat) : Nat × Int := euclid (m + 1) a m 1 0

/-- The MINV computation (41_modular_inverse R121): no inverse when the greatest common divisor is not 1; modulo 1 the
only residue (R124); else the inverse in `[0, m)`, found by the reference algorithm. -/
def inverse (a m : Nat) : Option Nat :=
  if Nat.gcd a m ≠ 1 then none
  else if m = 1 then some 0
  else some ((extendedEuclid a m).2 % (m : Int)).toNat

/-- Coefficient `k` of the sum (42_polynomial R132). -/
def polyAdd (a b : Nat → Nat) (_n q k : Nat) : Nat := addMod (a k) (b k) q

/-- Coefficient `k` of the difference (42_polynomial R133). -/
def polySub (a b : Nat → Nat) (_n q k : Nat) : Nat := subMod (a k) (b k) q

/-- Coefficient `k` of the cyclic product: the sum of the products `a_i * b_j` with `(i + j) mod n = k`
(42_polynomial R135). -/
def polyCyclic (a b : Nat → Nat) (n q k : Nat) : Nat :=
  (∑ i ∈ Finset.range n, ∑ j ∈ Finset.range n, if (i + j) % n = k then a i * b j else 0) % q

/-- The sum of the products `a_i * b_j` with `i + j = e`, `i, j < n`: `lo[k]` is this at `e = k` and `hi[k]` at
`e = k + n` (42_polynomial R136). -/
def convolution (a b : Nat → Nat) (n e : Nat) : Nat :=
  ∑ i ∈ Finset.range n, ∑ j ∈ Finset.range n, if i + j = e then a i * b j else 0

/-- Coefficient `k` of the negacyclic product: the wrapped products count negatively, `(lo[k] - hi[k]) mod q`
(42_polynomial R136, R139; 90_conflicts C1). -/
def polyNegacyclic (a b : Nat → Nat) (n q k : Nat) : Nat :=
  subMod (convolution a b n k) (convolution a b n (k + n)) q

/-- Coefficient `k` of the additive inverse, `(0 - a_k) mod q` (42_polynomial R134). -/
def polyNeg (a : Nat → Nat) (q k : Nat) : Nat := subMod 0 (a k) q

/-- Coefficient `k` reduced (42_polynomial R137). -/
def polyReduce (a : Nat → Nat) (q k : Nat) : Nat := a k % q

/-- The largest of the first `n` lanes, as stored (42_polynomial R138). -/
def polyNorm (a : Nat → Nat) (n : Nat) : Nat := (Finset.range n).sup a

/-- `Q`, the product of the first `k` moduli (43_rns_crt R156). -/
def crtQ (m : Nat → Nat) (k : Nat) : Nat := ∏ i ∈ Finset.range k, m i

/-- `Q_i = Q / m_i` (43_rns_crt R156). -/
def crtQi (m : Nat → Nat) (k i : Nat) : Nat := crtQ m k / m i

/-- Every `Q_i` has an inverse modulo `m_i` (43_rns_crt R156, R158). -/
abbrev crtInvertible (m : Nat → Nat) (k : Nat) : Prop := ∀ i, i < k → (inverse (crtQi m k i) (m i)).isSome = true

/-- The value `( Σ r_i * Q_i * M_i ) mod Q` (43_rns_crt R156). Where some `M_i` does not exist the command faults and
this value is not used; its term counts as 0 here. -/
def crtValue (r m : Nat → Nat) (k : Nat) : Nat :=
  (∑ i ∈ Finset.range k, r i * crtQi m k i * (inverse (crtQi m k i) (m i)).getD 0) % crtQ m k

/-- NOT the block's behaviour: the literal reading of the sentence that 90_conflicts C1 rejects, written out in
93_implementation_defined U1 so that a reader can state the difference (log 14). The loop runs over `ij = i*n + j`. -/
def negacyclicLiteral (a b : Nat → Nat) (n q : Nat) : List Nat :=
  (List.range (n * n)).foldl
    (fun c ij =>
      let i := ij / n
      let j := ij % n
      let k := (i + j) % n
      let added := (c.getD k 0 + a i * b j) % q
      c.set k (if n ≤ i + j then subMod 0 added q else added))
    (List.replicate n 0)

end Sys2Proof.Machine.Arith
end

