-- ==== Sys2Proof/Machine/Operands.lean ====
section
/-! DEFINITION. Reading operands and checking them: the command faults EmptyOperand, DimMismatch, LenRange,
ZeroModulus, NotCoprime as the operations that raise them (60_exceptions R205 to R208). -/

namespace Sys2Proof.Machine

variable {p : Params}

/-- Scalar register `x[i]`, `none` when EMPTY (10_state R21, R23). -/
def Block.getX (b : Block p) (i : XIdx) : Option (Word p) := b.x[i.val]

/-- Vector register `v[r]` (10_state R24). -/
def Block.getV (b : Block p) (r : VIdx) : VReg p := b.v[r.val]

/-- Lane `i` of a vector register as a natural number, legal below the length (00_scope R12). No command reads a lane
outside the register; there this answers 0 (log 17). -/
def VReg.lane (r : VReg p) (i : Nat) : Nat := if h : i < p.NMAX then (r.lanes[i]).toNat else 0

/-- The condition `c` holds, or the command raises `f`. -/
def require (c : Prop) [Decidable c] (f : FaultName) : Except FaultName Unit := if c then .ok () else .error f

/-- The value of scalar source or modulus `x[i]`; EMPTY raises EmptyOperand (10_state R23, 60_exceptions R205). -/
def Block.srcX (b : Block p) (i : XIdx) : Except FaultName Nat :=
  match b.getX i with
  | none => .error .emptyOperand
  | some w => .ok w.toNat

/-- Vector source or moduli register `v[r]`; length 0 is EMPTY and raises EmptyOperand (10_state R24, 60_exceptions
R205). -/
def Block.srcV (b : Block p) (r : VIdx) : Except FaultName (VReg p) :=
  if (b.getV r).len.val = 0 then .error .emptyOperand else .ok (b.getV r)

/-- The whole value of XW; EMPTY raises EmptyOperand (10_state R26, 60_exceptions R205). -/
def Block.srcXW (b : Block p) : Except FaultName Nat :=
  match b.xw with
  | none => .error .emptyOperand
  | some w => .ok w.toNat

/-- Two vector operands have one length, else DimMismatch (60_exceptions R206). -/
def sameLength (r t : VReg p) : Except FaultName Unit := require (r.len = t.len) .dimMismatch

/-- A scalar modulus is positive, else ZeroModulus (40_scalar_modular R111, 60_exceptions R207). -/
def positiveModulus (q : Nat) : Except FaultName Unit := require (q ≠ 0) .zeroModulus

/-- Every live lane of a moduli register is positive, else ZeroModulus (60_exceptions R207). -/
def positiveModuli (m : VReg p) : Except FaultName Unit :=
  require (∀ i, i < m.len.val → m.lane i ≠ 0) .zeroModulus

/-- The number of moduli is at most `KMAX`, else LenRange (60_exceptions R208). -/
def lengthInRange (m : VReg p) : Except FaultName Unit := require (m.len.val ≤ p.KMAX) .lenRange

/-- Every `Q_i` has an inverse modulo `m_i`, else NotCoprime (43_rns_crt R158, 60_exceptions R208). -/
def coprimeModuli (m : VReg p) : Except FaultName Unit :=
  require (Arith.crtInvertible m.lane m.len.val) .notCoprime

end Sys2Proof.Machine
end

