-- ==== Sys2Proof/Machine/Flags.lean ====
section
/-! DEFINITION. The one flag NOINV (10_state R29) and the status words the host reads, computed from the tags, the
flag and the mode (10_state R32 to R35). -/

namespace Sys2Proof.Machine

variable {p : Params}

/-- `NOINV <- f`: MINV alone writes it (10_state R29). -/
def Block.setNoinv (b : Block p) (f : Bool) : Block p := { b with noinv := f }

/-- Bit `i` of STATUS (10_state R32). -/
def Block.statusBit (b : Block p) (i : Nat) : Bool :=
  match i with
  | 0 => b.mode == .busy
  | 1 => b.mode == .fault
  | 2 => b.noinv
  | _ => false

/-- The word a read of STATUS returns (10_state R32). -/
def Block.statusWord (b : Block p) : Word p := BitVec.ofFnLE fun i => b.statusBit i.val

/-- Bit `i` of SVALID: the valid tags of `x0..x7` and of XW, and from bit 16 whether `v0..v7` are live (10_state
R35). -/
def Block.svalidBit (b : Block p) (i : Nat) : Bool :=
  if h : i < 8 then (b.getX ⟨i, h⟩).isSome
  else if i = 8 then b.xw.isSome
  else if h : 16 ≤ i ∧ i < 24 then (b.getV ⟨i - 16, by omega⟩).len.val != 0
  else false

/-- The word a read of SVALID returns (10_state R35). -/
def Block.svalidWord (b : Block p) : Word p := BitVec.ofFnLE fun i => b.svalidBit i.val

/-- The word a read of ERR returns, zero-extended (10_state R33). -/
def Block.errWord (b : Block p) : Word p := b.err.setWidth p.W

/-- The word a read of ERRINFO returns, zero-extended (10_state R34). -/
def Block.errinfoWord (b : Block p) : Word p := b.errinfo.setWidth p.W

end Sys2Proof.Machine
end

