-- ==== Sys2Proof/Machine/Ops.lean ====
section
/-! DEFINITION. The named operations: writing registers, entering a fault, resetting, completing a command, and the
host's draws of unspecified words. -/

namespace Sys2Proof.Machine

variable {p : Params}

/-- The same machine with another block: parameters and host side unchanged. -/
abbrev State.withBlock (s : State) (b : Block s.cfg) : State := { cfg := s.cfg, block := b, host := s.host }

/-- The same machine with another host side: parameters and block unchanged. -/
abbrev State.withHost (s : State) (h : HostSide s.cfg) : State := { cfg := s.cfg, block := s.block, host := h }

/-- The same machine with another block and another host side: parameters unchanged. -/
abbrev State.update (s : State) (b : Block s.cfg) (h : HostSide s.cfg) : State := { cfg := s.cfg, block := b, host := h }

/-- `x[i] <- v` for `some v`, `x[i] <- EMPTY` for `none` (00_scope R12). -/
def Block.setX (b : Block p) (i : XIdx) (o : Option (Word p)) : Block p := { b with x := b.x.set i.val o }

/-- Another vector register at index `r`. -/
def Block.setV (b : Block p) (r : VIdx) (t : VReg p) : Block p := { b with v := b.v.set r.val t }

/-- XW and its valid tag. -/
def Block.setXW (b : Block p) (o : Option (BitVec (p.KMAX * p.W))) : Block p := { b with xw := o }

/-- The mode. -/
def Block.setMode (b : Block p) (m : Mode) : Block p := { b with mode := m }

/-- `v[r] <- (n, f)`: lanes `0..n-1` become `f 0 .. f (n-1)` and the length becomes `n`; lanes at and above `n` keep
their contents (10_state R25). -/
def VReg.write (r : VReg p) (n : Fin (p.NMAX + 1)) (f : Nat → Nat) : VReg p where
  lanes := Vector.ofFn fun i => if i.val < n.val then BitVec.ofNat p.W (f i.val) else r.lanes[i]
  len := n

/-- The host's write of one lane: the length is not changed (20_memory R70). -/
def VReg.setLane (r : VReg p) (i : Fin p.NMAX) (w : Word p) : VReg p := { r with lanes := r.lanes.set i.val w }

/-- The host's write of the length: the lanes are not changed (10_state R36). -/
def VReg.setLen (r : VReg p) (n : Fin (p.NMAX + 1)) : VReg p := { r with len := n }

/-- A command's scalar result, written with its valid tag (10_state R22). -/
def Block.resultX (b : Block p) (rd : XIdx) (n : Nat) : Block p := b.setX rd (some (BitVec.ofNat p.W n))

/-- A command's vector result (10_state R25). -/
def Block.resultV (b : Block p) (rd : VIdx) (n : Fin (p.NMAX + 1)) (f : Nat → Nat) : Block p :=
  b.setV rd ((b.getV rd).write n f)

/-- RDECONS's result: every limb of XW and its valid tag (43_rns_crt R156). -/
def Block.resultXW (b : Block p) (n : Nat) : Block p := b.setXW (some (BitVec.ofNat (p.KMAX * p.W) n))

/-- Limb `j` of a value of XW, limb 0 least significant (10_state R26). -/
def getLimb (x : BitVec (p.KMAX * p.W)) (j : Nat) : Word p := x.extractLsb' (p.W * j) p.W

/-- The value of XW with limb `j` replaced (20_memory R69). -/
def setLimb (x : BitVec (p.KMAX * p.W)) (j : Nat) (w : Word p) : BitVec (p.KMAX * p.W) :=
  (x &&& ~~~((BitVec.allOnes p.W).setWidth (p.KMAX * p.W) <<< (p.W * j))) |||
    (w.setWidth (p.KMAX * p.W) <<< (p.W * j))

/-- The code of a fault (60_exceptions R201). -/
def FaultName.code : FaultName → BitVec 8
  | .illegalCommand => 0x01
  | .emptyOperand => 0x02
  | .dimMismatch => 0x03
  | .zeroModulus => 0x04
  | .notCoprime => 0x05
  | .lenRange => 0x06
  | .busyAccess => 0x10
  | .emptyRead => 0x11
  | .badAddress => 0x12
  | .badValue => 0x13

/-- Fault entry (60_exceptions R203): ERR, ERRINFO and the mode, nothing else. The only exit is the reset event below
(R214). -/
def Block.raise (b : Block p) (f : FaultName) (info : BitVec 32) : Block p :=
  { b with err := f.code, errinfo := info, mode := .fault }

/-- The reset event (70_reset_and_hazards R230): the whole block becomes its reset state, in any mode, whatever it was.
The draw number `n` makes the unspecified lanes new ones; the host's script and what it has read are its own (log 18). -/
def Block.resetEvent (_ : Block p) (n : Nat) : Block p := Block.afterReset p n

/-- The host side with the rest of its script. -/
def HostSide.withTurns (h : HostSide p) (ts : List (Turn p)) : HostSide p := { h with turns := ts }

/-- One more draw of an unspecified value has been made. -/
def HostSide.drawn (h : HostSide p) : HostSide p := { h with draws := h.draws + 1 }

/-- A read of address `a` returned `w` to the host. -/
def HostSide.answer (h : HostSide p) (a : Addr) (w : Word p) : HostSide p :=
  { h with reads := { addr := a, word := w } :: h.reads }

/-- A read of address `a` returned an unspecified word: a fresh draw (log 5). -/
def HostSide.answerFree (h : HostSide p) (a : Addr) : HostSide p := (h.answer a (Config.freeWord p.W h.draws)).drawn

/-- The end of a completion (60_exceptions R202): the checks either raised a fault, which is entered with the command
word and writes nothing else, or the results are written and the mode becomes IDLE. -/
def Block.finish (b : Block p) (r : Except FaultName (Block p)) : Block p :=
  match r with
  | .ok b' => b'.setMode .idle
  | .error f => b.raise f b.pend

/-- A command as a next state of the machine: only the block changes. -/
def State.complete (s : State) (r : Except FaultName (Block s.cfg)) : Host.Outcome State Fault Refusal :=
  .next (s.withBlock (s.block.finish r))

end Sys2Proof.Machine
end

