-- ==== Sys2Proof/Machine/Inverse.lean ====
section
/-! DEFINITION. The modular inverse unit: MINV (41_modular_inverse). -/

namespace Sys2Proof.Machine

variable {p : Params}

/-- The two results of MINV (41_modular_inverse R121): the inverse with NOINV = 0, or EMPTY with NOINV = 1. -/
def Block.inverseResult (b : Block p) (rd : XIdx) : Option Nat → Block p
  | some y => (b.resultX rd y).setNoinv false
  | none => (b.setX rd none).setNoinv true

/-- MINV: `x[rd]` is the inverse of `a` modulo `m`, or EMPTY (41_modular_inverse R121, R124). -/
def Block.inverseOp (rd ra rm : XIdx) (b : Block p) : Except FaultName (Block p) := do
  let a ← b.srcX ra
  let m ← b.srcX rm
  positiveModulus m
  return b.inverseResult rd (Arith.inverse a m)

/-- MINV (41_modular_inverse R121). -/
def execMinv (rd ra rm : XIdx) (s : State) : Host.Outcome State Fault Refusal :=
  s.complete (s.block.inverseOp rd ra rm)

end Sys2Proof.Machine
end

