-- ==== Sys2Proof/Machine/Poly.lean ====
section
/-! DEFINITION. The polynomial unit: PADD, PSUB, PNEG, PMULC, PMULN, PRED, PNORM (42_polynomial). Checks in the order
of 42_polynomial R131. -/

namespace Sys2Proof.Machine

variable {p : Params}

/-- The shape of format V4 (42_polynomial R131): two vector sources of one length, a scalar modulus,
`v[rd] <- (n, k ↦ f a b n q k)`. -/
def Block.polyBinary (f : (Nat → Nat) → (Nat → Nat) → Nat → Nat → Nat → Nat) (rd ra rb : VIdx) (rm : XIdx)
    (b : Block p) : Except FaultName (Block p) := do
  let a ← b.srcV ra
  let c ← b.srcV rb
  let q ← b.srcX rm
  sameLength a c
  positiveModulus q
  return b.resultV rd a.len (f a.lane c.lane a.len.val q)

/-- The shape of format V3: one vector source and a scalar modulus, `v[rd] <- (n, k ↦ f a q k)`. -/
def Block.polyUnary (f : (Nat → Nat) → Nat → Nat → Nat) (rd ra : VIdx) (rm : XIdx) (b : Block p) :
    Except FaultName (Block p) := do
  let a ← b.srcV ra
  let q ← b.srcX rm
  positiveModulus q
  return b.resultV rd a.len (f a.lane q)

/-- PNORM's effect: `x[rd]` is the largest live lane (42_polynomial R138). -/
def Block.normOp (rd : XIdx) (ra : VIdx) (b : Block p) : Except FaultName (Block p) := do
  let a ← b.srcV ra
  return b.resultX rd (Arith.polyNorm a.lane a.len.val)

/-- PADD (42_polynomial R132). -/
def execPadd (rd ra rb : VIdx) (rm : XIdx) (s : State) : Host.Outcome State Fault Refusal :=
  s.complete (s.block.polyBinary Arith.polyAdd rd ra rb rm)

/-- PSUB (42_polynomial R133). -/
def execPsub (rd ra rb : VIdx) (rm : XIdx) (s : State) : Host.Outcome State Fault Refusal :=
  s.complete (s.block.polyBinary Arith.polySub rd ra rb rm)

/-- PNEG (42_polynomial R134). -/
def execPneg (rd ra : VIdx) (rm : XIdx) (s : State) : Host.Outcome State Fault Refusal :=
  s.complete (s.block.polyUnary Arith.polyNeg rd ra rm)

/-- PMULC: the product in `Z_q[x]/(x^n - 1)` (42_polynomial R135). -/
def execPmulc (rd ra rb : VIdx) (rm : XIdx) (s : State) : Host.Outcome State Fault Refusal :=
  s.complete (s.block.polyBinary Arith.polyCyclic rd ra rb rm)

/-- PMULN: the product in `Z_q[x]/(x^n + 1)` (42_polynomial R136). -/
def execPmuln (rd ra rb : VIdx) (rm : XIdx) (s : State) : Host.Outcome State Fault Refusal :=
  s.complete (s.block.polyBinary Arith.polyNegacyclic rd ra rb rm)

/-- PRED (42_polynomial R137). -/
def execPred (rd ra : VIdx) (rm : XIdx) (s : State) : Host.Outcome State Fault Refusal :=
  s.complete (s.block.polyUnary Arith.polyReduce rd ra rm)

/-- PNORM (42_polynomial R138). -/
def execPnorm (rd : XIdx) (ra : VIdx) (s : State) : Host.Outcome State Fault Refusal :=
  s.complete (s.block.normOp rd ra)

end Sys2Proof.Machine
end

