-- ==== Sys2Proof/Machine/Rns.lean ====
section
/-! DEFINITION. The RNS/CRT unit: RCONS, RADD, RSUB, RMUL, RDECONS (43_rns_crt). Checks in the order of 43_rns_crt
R151. -/

namespace Sys2Proof.Machine

variable {p : Params}

/-- The shape of format R4 (43_rns_crt R151, R153 to R155): two residue registers and a moduli register of one length,
lane `i` computed with the modulus of lane `i`. -/
def Block.rnsBinary (f : Nat → Nat → Nat → Nat) (rd ra rb rm : VIdx) (b : Block p) : Except FaultName (Block p) := do
  let a ← b.srcV ra
  let c ← b.srcV rb
  let m ← b.srcV rm
  sameLength a m
  sameLength c m
  positiveModuli m
  return b.resultV rd m.len fun i => f (a.lane i) (c.lane i) (m.lane i)

/-- RCONS's effect: `v[rd] <- (k, i ↦ XW mod m_i)` (43_rns_crt R152). -/
def Block.constructOp (rd rm : VIdx) (b : Block p) : Except FaultName (Block p) := do
  let m ← b.srcV rm
  let x ← b.srcXW
  positiveModuli m
  return b.resultV rd m.len fun i => x % m.lane i

/-- RDECONS's effect: XW is the reconstructed integer (43_rns_crt R156). The inner inverses write no scalar register
and no flag. -/
def Block.deconstructOp (ra rm : VIdx) (b : Block p) : Except FaultName (Block p) := do
  let a ← b.srcV ra
  let m ← b.srcV rm
  sameLength a m
  lengthInRange m
  positiveModuli m
  coprimeModuli m
  return b.resultXW (Arith.crtValue a.lane m.lane m.len.val)

/-- RCONS (43_rns_crt R152). -/
def execRcons (rd rm : VIdx) (s : State) : Host.Outcome State Fault Refusal :=
  s.complete (s.block.constructOp rd rm)

/-- RADD (43_rns_crt R153). -/
def execRadd (rd ra rb rm : VIdx) (s : State) : Host.Outcome State Fault Refusal :=
  s.complete (s.block.rnsBinary Arith.addMod rd ra rb rm)

/-- RSUB (43_rns_crt R154). -/
def execRsub (rd ra rb rm : VIdx) (s : State) : Host.Outcome State Fault Refusal :=
  s.complete (s.block.rnsBinary Arith.subMod rd ra rb rm)

/-- RMUL (43_rns_crt R155). -/
def execRmul (rd ra rb rm : VIdx) (s : State) : Host.Outcome State Fault Refusal :=
  s.complete (s.block.rnsBinary Arith.mulMod rd ra rb rm)

/-- RDECONS (43_rns_crt R156). -/
def execRdecons (ra rm : VIdx) (s : State) : Host.Outcome State Fault Refusal :=
  s.complete (s.block.deconstructOp ra rm)

end Sys2Proof.Machine
end

