-- ==== Sys2Proof/Machine/Scalar.lean ====
section
/-! DEFINITION. The scalar modular unit: MADD, MSUB, MMUL (40_scalar_modular). -/

namespace Sys2Proof.Machine

variable {p : Params}

/-- The shape of format S4 (40_scalar_modular R112 to R114): two scalar sources and a scalar modulus, all read, the
modulus checked, `x[rd] <- f a b q`. -/
def Block.scalarOp (f : Nat → Nat → Nat → Nat) (rd ra rb rm : XIdx) (b : Block p) : Except FaultName (Block p) := do
  let a ← b.srcX ra
  let c ← b.srcX rb
  let q ← b.srcX rm
  positiveModulus q
  return b.resultX rd (f a c q)

/-- MADD: `x[rd] <- (a + b) mod q` (40_scalar_modular R112). -/
def execMadd (rd ra rb rm : XIdx) (s : State) : Host.Outcome State Fault Refusal :=
  s.complete (s.block.scalarOp Arith.addMod rd ra rb rm)

/-- MSUB: `x[rd] <- (a - b) mod q` (40_scalar_modular R113). -/
def execMsub (rd ra rb rm : XIdx) (s : State) : Host.Outcome State Fault Refusal :=
  s.complete (s.block.scalarOp Arith.subMod rd ra rb rm)

/-- MMUL: `x[rd] <- (a * b) mod q` (40_scalar_modular R114). -/
def execMmul (rd ra rb rm : XIdx) (s : State) : Host.Outcome State Fault Refusal :=
  s.complete (s.block.scalarOp Arith.mulMod rd ra rb rm)

end Sys2Proof.Machine
end

