-- ==== Sys2Proof/Machine/Dispatch.lean ====
section
/-! DEFINITION. The meaning of every command: what a completion of it does to the machine (60_exceptions R202). -/

namespace Sys2Proof.Machine

def exec (i : Instr) (s : State) : Host.Outcome State Fault Refusal :=
  match i with
  | .madd rd ra rb rm => Sys2Proof.Machine.execMadd rd ra rb rm s
  | .msub rd ra rb rm => Sys2Proof.Machine.execMsub rd ra rb rm s
  | .mmul rd ra rb rm => Sys2Proof.Machine.execMmul rd ra rb rm s
  | .minv rd ra rm => Sys2Proof.Machine.execMinv rd ra rm s
  | .padd rd ra rb rm => Sys2Proof.Machine.execPadd rd ra rb rm s
  | .psub rd ra rb rm => Sys2Proof.Machine.execPsub rd ra rb rm s
  | .pneg rd ra rm => Sys2Proof.Machine.execPneg rd ra rm s
  | .pmulc rd ra rb rm => Sys2Proof.Machine.execPmulc rd ra rb rm s
  | .pmuln rd ra rb rm => Sys2Proof.Machine.execPmuln rd ra rb rm s
  | .pred rd ra rm => Sys2Proof.Machine.execPred rd ra rm s
  | .pnorm rd ra => Sys2Proof.Machine.execPnorm rd ra s
  | .rcons rd rm => Sys2Proof.Machine.execRcons rd rm s
  | .radd rd ra rb rm => Sys2Proof.Machine.execRadd rd ra rb rm s
  | .rsub rd ra rb rm => Sys2Proof.Machine.execRsub rd ra rb rm s
  | .rmul rd ra rb rm => Sys2Proof.Machine.execRmul rd ra rb rm s
  | .rdecons ra rm => Sys2Proof.Machine.execRdecons ra rm s

end Sys2Proof.Machine
end

