-- ==== Sys2Proof/Machine/Port.lean ====
section
/-! DEFINITION. The host port: the address map (20_memory R61) and the host's accesses in each mode (20_memory R65 to
R73, 60_exceptions R209). -/

namespace Sys2Proof.Machine

variable {p : Params}

/-- What a word address names (20_memory R61). -/
inductive PortReg (p : Params) where
  | cmd
  | status
  | err
  | errinfo
  | svalid
  | scalar (i : XIdx)
  | vlen (r : VIdx)
  | limb (j : Fin p.KMAX)
  | lane (r : VIdx) (i : Fin p.NMAX)
  | unmapped
deriving DecidableEq, Repr

/-- The address map (20_memory R61): bits 15..12 in `1..8` select a vector register, bits 11..0 the lane. -/
def portReg (p : Params) (a : Addr) : PortReg p :=
  let n := a.toNat
  if n = 0x0000 then .cmd
  else if n = 0x0001 then .status
  else if n = 0x0002 then .err
  else if n = 0x0003 then .errinfo
  else if n = 0x0004 then .svalid
  else if h : 0x0010 ≤ n ∧ n < 0x0018 then .scalar ⟨n - 0x0010, by omega⟩
  else if h : 0x0020 ≤ n ∧ n < 0x0028 then .vlen ⟨n - 0x0020, by omega⟩
  else if h : 0x0040 ≤ n ∧ n < 0x0040 + p.KMAX then .limb ⟨n - 0x0040, by omega⟩
  else if h : 0x1000 ≤ n ∧ n < 0x9000 ∧ n % 0x1000 < p.NMAX then
    .lane ⟨n / 0x1000 - 1, by omega⟩ ⟨n % 0x1000, h.2.2⟩
  else .unmapped

/-- ERRINFO of a host-access fault: the address in bits 15..0, bit 16 set for a write (10_state R34). -/
def accessInfo (a : Addr) (isWrite : Bool) : BitVec 32 :=
  BitVec.ofNat 32 (a.toNat + if isWrite then 0x00010000 else 0)

/-- The registers readable in every mode, STATUS, ERR, ERRINFO, and their words (20_memory R66). -/
def Block.diagnostic (b : Block p) : PortReg p → Option (Word p)
  | .status => some b.statusWord
  | .err => some b.errWord
  | .errinfo => some b.errinfoWord
  | .cmd | .svalid | .scalar _ | .vlen _ | .limb _ | .lane _ _ | .unmapped => none

/-- A read in mode IDLE: the word, or the host-access fault (20_memory R66, R68 to R71). -/
def Block.idleRead (b : Block p) : PortReg p → Except FaultName (Word p)
  | .cmd => .error .badAddress
  | .status => .ok b.statusWord
  | .err => .ok b.errWord
  | .errinfo => .ok b.errinfoWord
  | .svalid => .ok b.svalidWord
  | .scalar i =>
    match b.getX i with
    | some w => .ok w
    | none => .error .emptyRead
  | .vlen r => .ok (BitVec.ofNat p.W (b.getV r).len.val)
  | .limb j =>
    match b.xw with
    | some x => .ok (getLimb x j.val)
    | none => .error .emptyRead
  | .lane r i => if i.val < (b.getV r).len.val then .ok (b.getV r).lanes[i] else .error .emptyRead
  | .unmapped => .error .badAddress

/-- A write to CMD in mode IDLE: the issue (20_memory R65). Nothing is decoded or checked here. -/
def Block.issue (b : Block p) (w : Word p) : Except FaultName (Block p) :=
  if w.toNat < 2 ^ 32 then .ok { b with pend := w.setWidth 32, mode := .busy } else .error .badValue

/-- A write in mode IDLE: the new block, or the host-access fault (20_memory R65, R67, R69 to R71; 10_state R36). -/
def Block.idleWrite (b : Block p) (w : Word p) : PortReg p → Except FaultName (Block p)
  | .cmd => b.issue w
  | .status | .err | .errinfo | .svalid => .error .badAddress
  | .scalar i => .ok (b.setX i (some w))
  | .vlen r =>
    if h : w.toNat ≤ p.NMAX then .ok (b.setV r ((b.getV r).setLen ⟨w.toNat, by omega⟩)) else .error .badValue
  | .limb j => .ok (b.setXW (some (setLimb (b.xw.getD 0) j.val w)))
  | .lane r i => .ok (b.setV r ((b.getV r).setLane i w))
  | .unmapped => .error .badAddress

/-- `MemRead(a, 1)`: the block and the host side after it. A read that faults, and a read of anything else in mode
FAULT, returns an unspecified word (20_memory R66, R68, R71 to R73). -/
def hostRead (a : Addr) (b : Block p) (h : HostSide p) : Block p × HostSide p :=
  match b.diagnostic (portReg p a) with
  | some w => (b, h.answer a w)
  | none =>
    match b.mode with
    | .idle =>
      match b.idleRead (portReg p a) with
      | .ok w => (b, h.answer a w)
      | .error f => (b.raise f (accessInfo a false), h.answerFree a)
    | .busy => (b.raise .busyAccess (accessInfo a false), h.answerFree a)
    | .fault => (b, h.answerFree a)

/-- `MemWrite(a, 1, w)`: in mode BUSY every write is BusyAccess, in mode FAULT every write is
ignored (20_memory R71 to R73). -/
def hostWrite (a : Addr) (w : Word p) (b : Block p) : Block p :=
  match b.mode with
  | .idle =>
    match b.idleWrite w (portReg p a) with
    | .ok b' => b'
    | .error f => b.raise f (accessInfo a true)
  | .busy => b.raise .busyAccess (accessInfo a true)
  | .fault => b

/-- One action of the host: the block and the host side after it. -/
def hostAct (act : HostAction p) (b : Block p) (h : HostSide p) : Block p × HostSide p :=
  match act with
  | .read a => hostRead a b h
  | .write a w => (hostWrite a w b, h)
  | .reset => (b.resetEvent h.draws, h.drawn)

end Sys2Proof.Machine
end

