-- ==== Sys2Proof/Machine/Turns.lean ====
section
/-! DEFINITION. The turns of the two agents: the block's, which completes its pending command, and the host's. -/

namespace Sys2Proof.Machine

/-- Completion (60_exceptions R202): decode PEND; an illegal word raises IllegalCommand before anything is read
(R204), any other runs its command. -/
def completion (s : State) : Host.Outcome State Fault Refusal :=
  match decode s.block.pend with
  | .ok i => exec i s
  | .error _ => s.complete (.error .illegalCommand)

/-- The block's turn: its only action is the completion, enabled exactly in mode BUSY (60_exceptions R202); in the other
modes nothing happens. -/
def blockTurn (s : State) : Host.Outcome State Fault Refusal :=
  match s.block.mode with
  | .busy => completion s
  | .idle | .fault => .next s

/-- One action of the host on the machine. -/
def hostTurn (s : State) (act : HostAction s.cfg) (ts : List (Turn s.cfg)) : State :=
  let r := hostAct act s.block (s.host.withTurns ts)
  s.update r.1 r.2

end Sys2Proof.Machine
end

