-- ==== Sys2Proof/Machine/Step.lean ====
section
/-! DEFINITION. One step of the machine: the next turn of the host script, or, when the script is exhausted, the
block's completion if one is pending. -/

namespace Sys2Proof.Machine

/-- One step. The script's order is the order of events (20_memory R64, R74); when it is exhausted the block takes its
turn, so that a completion is never withheld for ever (60_exceptions R220, log 3). -/
def step (s : State) : Host.Outcome State Fault Refusal :=
  match s.host.turns with
  | [] => blockTurn s
  | .block :: ts => blockTurn (s.withHost (s.host.withTurns ts))
  | .host act :: ts => .next (hostTurn s act ts)

/-- `s` with the command word `w` issued and the block's turn next, so that the very next step completes it. It stands
for the host's write of `w` to CMD, since the block fetches nothing (10_state R28, 20_memory R65, log 11). -/
def State.withFetchWord (s : State) (nbits w : Nat) : State where
  cfg := s.cfg
  block := { s.block with mode := .busy, pend := BitVec.ofNat 32 (w % 2 ^ nbits) }
  host := s.host.withTurns (.block :: s.host.turns)

end Sys2Proof.Machine
end

