-- ==== Sys2Proof/Machine/Script.lean ====
section
/-! DEFINITION. The notation of a host program: the symbolic addresses of 20_memory R61, the directives of 30_encoding
R99 as pieces of a host script, and the assembler syntax of 30_encoding R98. -/

namespace Sys2Proof.Machine

/-- The symbolic addresses (20_memory R61). -/
abbrev Addr.cmd : Addr := 0x0000
/-- STATUS -/
abbrev Addr.status : Addr := 0x0001
/-- ERR -/
abbrev Addr.err : Addr := 0x0002
/-- ERRINFO -/
abbrev Addr.errinfo : Addr := 0x0003
/-- SVALID -/
abbrev Addr.svalid : Addr := 0x0004
/-- X0..X7 -/
def Addr.scalar (i : XIdx) : Addr := BitVec.ofNat 16 (0x0010 + i.val)
/-- VLEN0..VLEN7 -/
def Addr.vlen (r : VIdx) : Addr := BitVec.ofNat 16 (0x0020 + r.val)
/-- XW limb `j` -/
def Addr.limb (j : Nat) : Addr := BitVec.ofNat 16 (0x0040 + j)
/-- lane `i` of `v[r]` -/
def Addr.lane (r : VIdx) (i : Nat) : Addr := BitVec.ofNat 16 (0x1000 * (r.val + 1) + i)

variable {p : Params}

/-- `wr ADDR, VALUE` (30_encoding R99). -/
def Script.wr (a : Addr) (v : Nat) : List (Turn p) := [.host (.write a (BitVec.ofNat p.W v))]

/-- `rd ADDR` (30_encoding R99). -/
def Script.rd (a : Addr) : List (Turn p) := [.host (.read a)]

/-- `cmd <command>`: the write of its encoding to CMD (30_encoding R99). -/
def Script.cmd (i : Instr) : List (Turn p) := [.host (.write Addr.cmd ((encode i).setWidth p.W))]

/-- `wait`: polls of STATUS until BUSY is 0 (30_encoding R99); here the completion comes after `k` polls that saw BUSY,
so each `k` is one of the admitted interleavings (93 U7). -/
def Script.wait (k : Nat) : List (Turn p) :=
  List.replicate k (.host (.read Addr.status)) ++ [.block, .host (.read Addr.status)]

/-- `reset` (30_encoding R99). -/
def Script.reset : List (Turn p) := [.host .reset]

/-- The name of a scalar register (30_encoding R98). -/
def xName (i : XIdx) : String := "x" ++ toString i.val

/-- The name of a vector register (30_encoding R98). -/
def vName (r : VIdx) : String := "v" ++ toString r.val

/-- A mnemonic with its operands, separated by commas (30_encoding R98). -/
def asmLine (mnemonic : String) (operands : List String) : String := mnemonic ++ " " ++ String.intercalate ", " operands

/-- A command in the assembler syntax: destination first, modulus last; XW is never written (30_encoding R98). -/
def asm : Instr → String
  | .madd d a b m => asmLine "MADD" [xName d, xName a, xName b, xName m]
  | .msub d a b m => asmLine "MSUB" [xName d, xName a, xName b, xName m]
  | .mmul d a b m => asmLine "MMUL" [xName d, xName a, xName b, xName m]
  | .minv d a m => asmLine "MINV" [xName d, xName a, xName m]
  | .padd d a b m => asmLine "PADD" [vName d, vName a, vName b, xName m]
  | .psub d a b m => asmLine "PSUB" [vName d, vName a, vName b, xName m]
  | .pneg d a m => asmLine "PNEG" [vName d, vName a, xName m]
  | .pmulc d a b m => asmLine "PMULC" [vName d, vName a, vName b, xName m]
  | .pmuln d a b m => asmLine "PMULN" [vName d, vName a, vName b, xName m]
  | .pred d a m => asmLine "PRED" [vName d, vName a, xName m]
  | .pnorm d a => asmLine "PNORM" [xName d, vName a]
  | .rcons d m => asmLine "RCONS" [vName d, vName m]
  | .radd d a b m => asmLine "RADD" [vName d, vName a, vName b, vName m]
  | .rsub d a b m => asmLine "RSUB" [vName d, vName a, vName b, vName m]
  | .rmul d a b m => asmLine "RMUL" [vName d, vName a, vName b, vName m]
  | .rdecons a m => asmLine "RDECONS" [vName a, vName m]

end Sys2Proof.Machine
end

