-- ==== Sys2Proof/Safety.lean ====
section
/-! DEFINITION. What claims about the block are stated in: legal starts and good ends of a run, the invariant of the
fault registers, what a command reads, names as its destination and checks, and what it leaves unchanged. -/

namespace Sys2Proof

/-- The scalar register a command writes (30_encoding R92). -/
def Instr.destX : Instr → Option XIdx
  | .madd d _ _ _ | .msub d _ _ _ | .mmul d _ _ _ | .minv d _ _ | .pnorm d _ => some d
  | .padd _ _ _ _ | .psub _ _ _ _ | .pneg _ _ _ | .pmulc _ _ _ _ | .pmuln _ _ _ _ | .pred _ _ _ | .rcons _ _
  | .radd _ _ _ _ | .rsub _ _ _ _ | .rmul _ _ _ _ | .rdecons _ _ => none

/-- The vector register a command writes (30_encoding R92). -/
def Instr.destV : Instr → Option VIdx
  | .padd d _ _ _ | .psub d _ _ _ | .pneg d _ _ | .pmulc d _ _ _ | .pmuln d _ _ _ | .pred d _ _ | .rcons d _
  | .radd d _ _ _ | .rsub d _ _ _ | .rmul d _ _ _ => some d
  | .madd _ _ _ _ | .msub _ _ _ _ | .mmul _ _ _ _ | .minv _ _ _ | .pnorm _ _ | .rdecons _ _ => none

/-- The command writes XW (30_encoding R92). -/
def Instr.writesXW : Instr → Bool
  | .rdecons _ _ => true
  | .madd _ _ _ _ | .msub _ _ _ _ | .mmul _ _ _ _ | .minv _ _ _ | .padd _ _ _ _ | .psub _ _ _ _ | .pneg _ _ _
  | .pmulc _ _ _ _ | .pmuln _ _ _ _ | .pred _ _ _ | .pnorm _ _ | .rcons _ _ | .radd _ _ _ _ | .rsub _ _ _ _
  | .rmul _ _ _ _ => false

/-- The scalar registers a command reads, the modulus among them (30_encoding R92). -/
def Instr.readsX : Instr → List XIdx
  | .madd _ a b m | .msub _ a b m | .mmul _ a b m => [a, b, m]
  | .minv _ a m => [a, m]
  | .padd _ _ _ m | .psub _ _ _ m | .pneg _ _ m | .pmulc _ _ _ m | .pmuln _ _ _ m | .pred _ _ m => [m]
  | .pnorm _ _ | .rcons _ _ | .radd _ _ _ _ | .rsub _ _ _ _ | .rmul _ _ _ _ | .rdecons _ _ => []

/-- The vector registers a command reads, the moduli among them (30_encoding R92). -/
def Instr.readsV : Instr → List VIdx
  | .madd _ _ _ _ | .msub _ _ _ _ | .mmul _ _ _ _ | .minv _ _ _ => []
  | .padd _ a b _ | .psub _ a b _ | .pmulc _ a b _ | .pmuln _ a b _ => [a, b]
  | .pneg _ a _ | .pred _ a _ | .pnorm _ a => [a]
  | .rcons _ m => [m]
  | .radd _ a b m | .rsub _ a b m | .rmul _ a b m => [a, b, m]
  | .rdecons a m => [a, m]

/-- The command reads XW (30_encoding R92). -/
def Instr.readsXW : Instr → Bool
  | .rcons _ _ => true
  | .madd _ _ _ _ | .msub _ _ _ _ | .mmul _ _ _ _ | .minv _ _ _ | .padd _ _ _ _ | .psub _ _ _ _ | .pneg _ _ _
  | .pmulc _ _ _ _ | .pmuln _ _ _ _ | .pred _ _ _ | .pnorm _ _ | .radd _ _ _ _ | .rsub _ _ _ _ | .rmul _ _ _ _
  | .rdecons _ _ => false

/-- The scalar modulus a command names (30_encoding R94). -/
def Instr.modulusX : Instr → Option XIdx
  | .madd _ _ _ m | .msub _ _ _ m | .mmul _ _ _ m | .minv _ _ m | .padd _ _ _ m | .psub _ _ _ m | .pneg _ _ m
  | .pmulc _ _ _ m | .pmuln _ _ _ m | .pred _ _ m => some m
  | .pnorm _ _ | .rcons _ _ | .radd _ _ _ _ | .rsub _ _ _ _ | .rmul _ _ _ _ | .rdecons _ _ => none

/-- The moduli register a command names (30_encoding R94). -/
def Instr.modulusV : Instr → Option VIdx
  | .rcons _ m | .radd _ _ _ m | .rsub _ _ _ m | .rmul _ _ _ m | .rdecons _ m => some m
  | .madd _ _ _ _ | .msub _ _ _ _ | .mmul _ _ _ _ | .minv _ _ _ | .padd _ _ _ _ | .psub _ _ _ _ | .pneg _ _ _
  | .pmulc _ _ _ _ | .pmuln _ _ _ _ | .pred _ _ _ | .pnorm _ _ => none

/-- The command is RDECONS, the only one with the checks LenRange and NotCoprime (60_exceptions R211). -/
def Instr.reconstructs (i : Instr) : Bool := i.writesXW

end Sys2Proof

namespace Sys2Proof.Machine

variable {p : Params}

/-- A run starts in mode IDLE: from reset, or from a stated IDLE state (70_reset_and_hazards R233). -/
def State.legalStart (s : State) : Prop := s.block.mode = .idle

/-- A run has ended well: the host has made its last access and the mode is IDLE (70_reset_and_hazards R234). -/
def State.endedWell (s : State) : Prop := s.host.turns = [] ∧ s.block.mode = .idle

/-- The codes of command faults (60_exceptions R201). -/
def commandCodes : List (BitVec 8) := [0x01, 0x02, 0x03, 0x04, 0x05, 0x06]

/-- The codes of host-access faults (60_exceptions R201). -/
def accessCodes : List (BitVec 8) := [0x10, 0x11, 0x12, 0x13]

/-- The fault registers agree with the mode (10_state R33, R34, 60_exceptions R201, R203): ERR is 0 exactly outside mode
FAULT, and then ERRINFO is 0 too; a command fault has the command word in ERRINFO, an access fault an address and the
write bit; only the codes of the table occur. -/
structure Block.FaultInv (b : Block p) : Prop where
  err_zero_iff : b.err = 0 ↔ b.mode ≠ .fault
  errinfo_zero : b.err = 0 → b.errinfo = 0
  code_listed : b.err ≠ 0 → b.err ∈ commandCodes ∨ b.err ∈ accessCodes
  command_info : b.err ∈ commandCodes → b.errinfo = b.pend
  access_info : b.err ∈ accessCodes → b.errinfo.toNat < 2 ^ 17

/-- The invariant on the machine. -/
def State.Inv (s : State) : Prop := s.block.FaultInv

/-- Some register the command reads is EMPTY (60_exceptions R205). -/
def Block.readsEmpty (b : Block p) (i : Instr) : Prop :=
  (∃ r ∈ i.readsX, b.getX r = none) ∨ (∃ r ∈ i.readsV, (b.getV r).len.val = 0) ∨
    (i.readsXW = true ∧ b.xw = none)

/-- The vector registers the command reads are not all of one length (60_exceptions R206). -/
def Block.lengthsDiffer (b : Block p) (i : Instr) : Prop :=
  ∃ r ∈ i.readsV, ∃ t ∈ i.readsV, (b.getV r).len ≠ (b.getV t).len

/-- RDECONS with more than `KMAX` moduli (60_exceptions R208). -/
def Block.tooManyModuli (b : Block p) (i : Instr) : Prop :=
  i.reconstructs = true ∧ ∃ r ∈ i.modulusV, p.KMAX < (b.getV r).len.val

/-- A modulus the command uses is the word 0 (60_exceptions R207). -/
def Block.zeroModulusUsed (b : Block p) (i : Instr) : Prop :=
  (∃ r ∈ i.modulusX, b.getX r = some 0) ∨
    (∃ r ∈ i.modulusV, ∃ k, k < (b.getV r).len.val ∧ (b.getV r).lane k = 0)

/-- RDECONS with two moduli that share a factor (43_rns_crt R158). -/
def Block.moduliShareFactor (b : Block p) (i : Instr) : Prop :=
  i.reconstructs = true ∧ ∃ r ∈ i.modulusV, ∃ j k, j < (b.getV r).len.val ∧ k < (b.getV r).len.val ∧ j ≠ k ∧
    Nat.gcd ((b.getV r).lane j) ((b.getV r).lane k) ≠ 1

/-- Block `b'` differs from `b` in `x[rd]` and the mode at most; NOINV is not spoken of, since MINV writes it
(00_scope R16, 10_state R29). -/
structure Block.OnlyScalar (b b' : Block p) (rd : XIdx) : Prop where
  x : ∀ k : XIdx, k ≠ rd → b'.getX k = b.getX k
  v : b'.v = b.v
  xw : b'.xw = b.xw
  err : b'.err = b.err
  errinfo : b'.errinfo = b.errinfo
  pend : b'.pend = b.pend

/-- Block `b'` differs from `b` in `v[rd]` and the mode at most. -/
structure Block.OnlyVector (b b' : Block p) (rd : VIdx) : Prop where
  x : b'.x = b.x
  v : ∀ k : VIdx, k ≠ rd → b'.getV k = b.getV k
  xw : b'.xw = b.xw
  noinv : b'.noinv = b.noinv
  err : b'.err = b.err
  errinfo : b'.errinfo = b.errinfo
  pend : b'.pend = b.pend

/-- Block `b'` differs from `b` in XW and the mode at most. -/
structure Block.OnlyWide (b b' : Block p) : Prop where
  x : b'.x = b.x
  v : b'.v = b.v
  noinv : b'.noinv = b.noinv
  err : b'.err = b.err
  errinfo : b'.errinfo = b.errinfo
  pend : b'.pend = b.pend

/-- `v[rd]` of `b'` is the vector result `(n, f)` over its contents in `b`: length, live lanes, and lanes at and above
the length as they were (10_state R25). -/
def Block.VectorResult (b b' : Block p) (rd : VIdx) (n : Nat) (f : Nat → Int) : Prop :=
  (b'.getV rd).len.val = n ∧
    ∀ i, i < p.NMAX → ((b'.getV rd).lane i : Int) = if i < n then f i else ((b.getV rd).lane i : Int)

/-- Block `b'` is block `b` after a fault entry (60_exceptions R203): ERR, ERRINFO and the mode, nothing else. -/
structure Block.EnteredFault (b b' : Block p) (code : BitVec 8) (info : BitVec 32) : Prop where
  err : b'.err = code
  errinfo : b'.errinfo = info
  mode : b'.mode = .fault
  x : b'.x = b.x
  v : b'.v = b.v
  xw : b'.xw = b.xw
  noinv : b'.noinv = b.noinv
  pend : b'.pend = b.pend

/-- Command `i` completes by the fault entry of code `code` with the command word: only the block changes. -/
def Raises (i : Instr) (s : State) (code : BitVec 8) : Prop :=
  ∃ B, exec i s = .next (s.withBlock B) ∧ s.block.EnteredFault B code s.block.pend

/-- Command `i` completes with the value `r` in `x[rd]`, valid, mode IDLE, NOINV `f`, and nothing else changed. -/
def RunsScalar (i : Instr) (s : State) (rd : XIdx) (f : Bool) (r : Int) : Prop :=
  ∃ B w, exec i s = .next (s.withBlock B) ∧ B.getX rd = some w ∧ (w.toNat : Int) = r ∧ B.mode = .idle ∧ B.noinv = f ∧
    s.block.OnlyScalar B rd

/-- Command `i` completes with the vector result `(n, f)` in `v[rd]`, mode IDLE, and nothing else changed. -/
def RunsVector (i : Instr) (s : State) (rd : VIdx) (n : Nat) (f : Nat → Int) : Prop :=
  ∃ B, exec i s = .next (s.withBlock B) ∧ s.block.VectorResult B rd n f ∧ B.mode = .idle ∧ s.block.OnlyVector B rd

/-- Command `i` completes with the value `r` in XW, valid, mode IDLE, and nothing else changed. -/
def RunsWide (i : Instr) (s : State) (r : Int) : Prop :=
  ∃ B w, exec i s = .next (s.withBlock B) ∧ B.xw = some w ∧ (w.toNat : Int) = r ∧ B.mode = .idle ∧
    s.block.OnlyWide B

/-- The encoding of a command as a number: the opcode and the index fields at their places, every other bit 0
(30_encoding R90, R97). -/
def EncodesAs (i : Instr) (op rd ra rb rm : Nat) : Prop :=
  (encode i).toNat = op * 2 ^ 24 + rd * 2 ^ 20 + ra * 2 ^ 16 + rb * 2 ^ 12 + rm * 2 ^ 8

/-- Every illegal word with the opcode byte of `o` completes by raising IllegalCommand (60_exceptions R204). -/
def IllegalFormsRaise (o : Op) : Prop :=
  ∀ s : State, s.block.pend.extractLsb' 24 8 = o.code → s.block.pend &&& o.format.mask ≠ o.matchWord →
    ∃ B, completion s = .next (s.withBlock B) ∧ s.block.EnteredFault B 0x01 s.block.pend

/-- Two blocks that agree on everything but the contents of the lanes at and above a register's length. -/
structure Block.LiveEq (b c : Block p) : Prop where
  x : b.x = c.x
  len : ∀ r : VIdx, (b.getV r).len = (c.getV r).len
  lane : ∀ (r : VIdx) (i : Nat), i < (b.getV r).len.val → (b.getV r).lane i = (c.getV r).lane i
  xw : b.xw = c.xw
  mode : b.mode = c.mode
  noinv : b.noinv = c.noinv
  err : b.err = c.err
  errinfo : b.errinfo = c.errinfo
  pend : b.pend = c.pend

end Sys2Proof.Machine
end

