-- ==== Sys2Proof/Certificates/Slice0/Obligations.lean ====
section
/-! DEFINITION. The statements for the provers, one definition each. Every statement is over all parameters `W`, `NMAX`,
`KMAX` of 00_scope R7, since they are a field of the state. -/

open Sys2Proof Sys2Proof.Machine

/-! ### Encoding (30_encoding) -/

/-- 30_encoding R97: no operand of any command is lost between encoder and decoder. -/
def Obligations.DecodeOfEncodeIsTheCommand : Prop := ∀ i : Instr, decode (encode i) = .ok i

/-- 30_encoding R97, R95: a word that decodes is exactly the encoding of its command; no bit of it is ignored. -/
def Obligations.EncodeOfDecodeIsTheWord : Prop := ∀ (w : CmdWord) (i : Instr), decode w = .ok i → encode i = w

/-- 30_encoding R92: a word encodes a command of opcode `o` exactly when `w & mask == match`. -/
def Obligations.DecodeAcceptsExactlyTheMaskedWords : Prop :=
  ∀ (w : CmdWord) (o : Op), (∃ i, decode w = .ok i ∧ i.op = o) ↔ w &&& o.format.mask = o.matchWord

/-- 95_test_vectors 2.5 and 30_encoding R98: some words written out from the encoding and what they mean. -/
def Obligations.SampleWordsDecode : Prop :=
  decode 0x10777700 = .ok (.madd 7 7 7 7) ∧ decode 0x20210000 = .ok (.minv 2 1 0) ∧
    decode 0x34201000 = .ok (.pmuln 2 0 1 0) ∧ decode 0x36520000 = .ok (.pnorm 5 2) ∧
    decode 0x41312000 = .ok (.radd 3 1 2 0) ∧ decode 0x44030000 = .ok (.rdecons 3 0) ∧
    decode 0x00000000 = .error .unknownOpcode ∧ decode 0x12312001 = .error .reservedBitsSet ∧
    decode 0x12912000 = .error .indexOutOfRange ∧ decode 0x20211000 = .error .unusedFieldSet

/-! ### The step (60_exceptions R202, R204, R220) -/

/-- 60_exceptions R202: completion is enabled exactly in mode BUSY. There the block's turn runs the decoded command on the
state at this instant; in the other modes it leaves the block as it is. The block's turn is next when the script says so
or is exhausted; it is taken off the script. -/
def Obligations.StepRunsTheDecodedCommand : Prop :=
  ∀ (s : State) (ts : List (Turn s.cfg)), (s.host.turns = .block :: ts ∨ (s.host.turns = [] ∧ ts = [])) →
    (∀ i : Instr, s.block.mode = .busy → decode s.block.pend = .ok i →
      step s = exec i (s.withHost (s.host.withTurns ts))) ∧
    (s.block.mode ≠ .busy → step s = .next (s.withHost (s.host.withTurns ts)))

/-- 60_exceptions R204: the completion of an illegal word raises IllegalCommand with the word, before anything is
read. -/
def Obligations.IllegalWordRaisesIllegalCommand : Prop :=
  ∀ (s : State) (ts : List (Turn s.cfg)), s.block.mode = .busy →
    (s.host.turns = .block :: ts ∨ (s.host.turns = [] ∧ ts = [])) →
    (∀ o : Op, s.block.pend &&& o.format.mask ≠ o.matchWord) →
    ∃ B, step s = .next (s.update B (s.host.withTurns ts)) ∧ s.block.EnteredFault B 0x01 s.block.pend

/-- 00_scope R7, log 10: no step stops the machine, and none changes the parameters. -/
def Obligations.StepAlwaysAnswersNext : Prop := ∀ s : State, ∃ t, step s = .next t ∧ t.cfg = s.cfg

/-- 60_exceptions R220: an issued command completes. After any number of polls of STATUS, ERR, ERRINFO the block's turn
completes it; and whatever the host does, BUSY is left within the length of the script. -/
def Obligations.IssuedCommandCompletes : Prop :=
  (∀ (s : State) (polls : List Addr) (ts : List (Turn s.cfg)), s.block.mode = .busy →
      (∀ a ∈ polls, a = 0x0001 ∨ a = 0x0002 ∨ a = 0x0003) →
      (s.host.turns = polls.map (fun a => .host (.read a)) ++ .block :: ts ∨
        (s.host.turns = polls.map (fun a => .host (.read a)) ∧ ts = [])) →
      ∃ H : HostSide s.cfg, H.turns = ts ∧
        Host.Core.run Sys2Proof.core (polls.length + 1) s = completion (s.withHost H)) ∧
    (∀ s : State, s.block.mode = .busy →
      ∃ k t, k ≤ s.host.turns.length + 1 ∧ Host.Core.run Sys2Proof.core k s = .next t ∧
        (show State from t).block.mode ≠ .busy)

/-! ### The scalar unit (40_scalar_modular) -/

/-- 40_scalar_modular R112: MADD, every form: EMPTY operands, a zero modulus, and the exact sum reduced. -/
def Obligations.MaddAddsExactlyModuloQ : Prop :=
  IllegalFormsRaise .MADD ∧
  ∀ (s : State) (rd ra rb rm : XIdx), EncodesAs (.madd rd ra rb rm) 0x10 rd ra rb rm ∧
    match s.block.getX ra, s.block.getX rb, s.block.getX rm with
    | some a, some b, some q =>
      if q = 0 then Raises (.madd rd ra rb rm) s 0x04
      else RunsScalar (.madd rd ra rb rm) s rd s.block.noinv (((a.toNat : Int) + b.toNat) % q.toNat)
    | _, _, _ => Raises (.madd rd ra rb rm) s 0x02

/-- 40_scalar_modular R113: MSUB, every form; the difference is exact and the remainder Euclidean. -/
def Obligations.MsubSubtractsExactlyModuloQ : Prop :=
  IllegalFormsRaise .MSUB ∧
  ∀ (s : State) (rd ra rb rm : XIdx), EncodesAs (.msub rd ra rb rm) 0x11 rd ra rb rm ∧
    match s.block.getX ra, s.block.getX rb, s.block.getX rm with
    | some a, some b, some q =>
      if q = 0 then Raises (.msub rd ra rb rm) s 0x04
      else RunsScalar (.msub rd ra rb rm) s rd s.block.noinv (((a.toNat : Int) - b.toNat) % q.toNat)
    | _, _, _ => Raises (.msub rd ra rb rm) s 0x02

/-- 40_scalar_modular R114: MMUL, every form; the product is the exact `2W`-bit one. -/
def Obligations.MmulMultipliesExactlyModuloQ : Prop :=
  IllegalFormsRaise .MMUL ∧
  ∀ (s : State) (rd ra rb rm : XIdx), EncodesAs (.mmul rd ra rb rm) 0x12 rd ra rb rm ∧
    match s.block.getX ra, s.block.getX rb, s.block.getX rm with
    | some a, some b, some q =>
      if q = 0 then Raises (.mmul rd ra rb rm) s 0x04
      else RunsScalar (.mmul rd ra rb rm) s rd s.block.noinv (((a.toNat : Int) * b.toNat) % q.toNat)
    | _, _, _ => Raises (.mmul rd ra rb rm) s 0x02

/-! ### The inverse unit (41_modular_inverse) -/

/-- 41_modular_inverse R121: MINV, every form: EMPTY operands, a zero modulus, no inverse, modulus 1, and the unique
inverse in `[0, m)`. No other command writes the flag or leaves its destination, scalar, vector or wide, EMPTY. -/
def Obligations.MinvReturnsTheUniqueInverseOrEmpty : Prop :=
  IllegalFormsRaise .MINV ∧
  (∀ (i : Instr) (s : State) (B : Block s.cfg), exec i s = .next (s.withBlock B) → i.op ≠ .MINV →
    B.noinv = s.block.noinv ∧ (B.mode = .idle →
      (∀ d, i.destX = some d → B.getX d ≠ none) ∧ (∀ d, i.destV = some d → (B.getV d).len.val ≠ 0) ∧
        (i.writesXW = true → B.xw ≠ none))) ∧
  ∀ (s : State) (rd ra rm : XIdx), EncodesAs (.minv rd ra rm) 0x20 rd ra 0 rm ∧
    match s.block.getX ra, s.block.getX rm with
    | some a, some m =>
      if m = 0 then Raises (.minv rd ra rm) s 0x04
      else if Nat.gcd a.toNat m.toNat ≠ 1 then
        ∃ B, exec (.minv rd ra rm) s = .next (s.withBlock B) ∧ B.getX rd = none ∧ B.noinv = true ∧ B.mode = .idle ∧
          s.block.OnlyScalar B rd
      else if m.toNat = 1 then RunsScalar (.minv rd ra rm) s rd false 0
      else
        ∃ x : Nat, RunsScalar (.minv rd ra rm) s rd false x ∧ x < m.toNat ∧ (a.toNat * x) % m.toNat = 1 ∧
          ∀ y : Nat, y < m.toNat → (a.toNat * y) % m.toNat = 1 → y = x
    | _, _ => Raises (.minv rd ra rm) s 0x02

/-- 41_modular_inverse R122: the reference algorithm finds the greatest common divisor and a coefficient of `a`. -/
def Obligations.ExtendedEuclidFindsGcdAndCoefficient : Prop :=
  ∀ a m : Nat, (Arith.extendedEuclid a m).1 = Nat.gcd a m ∧
    (m : Int) ∣ (a : Int) * (Arith.extendedEuclid a m).2 - (Nat.gcd a m : Int)

/-- 41_modular_inverse R123: MINV depends on `a mod m` only, and MINV of an inverse returns `a mod m`. -/
def Obligations.MinvLaws : Prop :=
  (∀ (s : State) (rd ra rb rm : XIdx) (a b m : Word s.cfg), s.block.getX ra = some a → s.block.getX rb = some b →
      s.block.getX rm = some m → m ≠ 0 → a.toNat % m.toNat = b.toNat % m.toNat →
      exec (.minv rd ra rm) s = exec (.minv rd rb rm) s) ∧
    (∀ (s : State) (rd re ra rm : XIdx) (a m : Word s.cfg), s.block.getX ra = some a → s.block.getX rm = some m →
      2 ≤ m.toNat → Nat.gcd a.toNat m.toNat = 1 → rd ≠ rm →
      ∃ B C w, exec (.minv rd ra rm) s = .next (s.withBlock B) ∧
        exec (.minv re rd rm) (s.withBlock B) = .next (s.withBlock C) ∧ C.getX re = some w ∧
        w.toNat = a.toNat % m.toNat)

/-! ### The polynomial unit (42_polynomial) -/

/-- 42_polynomial R132: PADD, every form. -/
def Obligations.PaddAddsCoefficients : Prop :=
  IllegalFormsRaise .PADD ∧
  ∀ (s : State) (rd ra rb : VIdx) (rm : XIdx), EncodesAs (.padd rd ra rb rm) 0x30 rd ra rb rm ∧
    match s.block.getX rm with
    | none => Raises (.padd rd ra rb rm) s 0x02
    | some q =>
      let a := s.block.getV ra
      let b := s.block.getV rb
      if a.len.val = 0 ∨ b.len.val = 0 then Raises (.padd rd ra rb rm) s 0x02
      else if a.len ≠ b.len then Raises (.padd rd ra rb rm) s 0x03
      else if q = 0 then Raises (.padd rd ra rb rm) s 0x04
      else RunsVector (.padd rd ra rb rm) s rd a.len.val fun i => ((a.lane i : Int) + b.lane i) % q.toNat

/-- 42_polynomial R133: PSUB, every form. -/
def Obligations.PsubSubtractsCoefficients : Prop :=
  IllegalFormsRaise .PSUB ∧
  ∀ (s : State) (rd ra rb : VIdx) (rm : XIdx), EncodesAs (.psub rd ra rb rm) 0x31 rd ra rb rm ∧
    match s.block.getX rm with
    | none => Raises (.psub rd ra rb rm) s 0x02
    | some q =>
      let a := s.block.getV ra
      let b := s.block.getV rb
      if a.len.val = 0 ∨ b.len.val = 0 then Raises (.psub rd ra rb rm) s 0x02
      else if a.len ≠ b.len then Raises (.psub rd ra rb rm) s 0x03
      else if q = 0 then Raises (.psub rd ra rb rm) s 0x04
      else RunsVector (.psub rd ra rb rm) s rd a.len.val fun i => ((a.lane i : Int) - b.lane i) % q.toNat

/-- 42_polynomial R134: PNEG, every form. -/
def Obligations.PnegNegatesCoefficients : Prop :=
  IllegalFormsRaise .PNEG ∧
  ∀ (s : State) (rd ra : VIdx) (rm : XIdx), EncodesAs (.pneg rd ra rm) 0x32 rd ra 0 rm ∧
    match s.block.getX rm with
    | none => Raises (.pneg rd ra rm) s 0x02
    | some q =>
      let a := s.block.getV ra
      if a.len.val = 0 then Raises (.pneg rd ra rm) s 0x02
      else if q = 0 then Raises (.pneg rd ra rm) s 0x04
      else RunsVector (.pneg rd ra rm) s rd a.len.val fun i => (0 - (a.lane i : Int)) % q.toNat

/-- 42_polynomial R135: PMULC, every form; coefficient `k` is the exact sum over the pairs with `(i + j) mod n = k`,
reduced once. -/
def Obligations.PmulcConvolvesCyclically : Prop :=
  IllegalFormsRaise .PMULC ∧
  ∀ (s : State) (rd ra rb : VIdx) (rm : XIdx), EncodesAs (.pmulc rd ra rb rm) 0x33 rd ra rb rm ∧
    match s.block.getX rm with
    | none => Raises (.pmulc rd ra rb rm) s 0x02
    | some q =>
      let a := s.block.getV ra
      let b := s.block.getV rb
      let n := a.len.val
      if n = 0 ∨ b.len.val = 0 then Raises (.pmulc rd ra rb rm) s 0x02
      else if a.len ≠ b.len then Raises (.pmulc rd ra rb rm) s 0x03
      else if q = 0 then Raises (.pmulc rd ra rb rm) s 0x04
      else
        RunsVector (.pmulc rd ra rb rm) s rd n fun k =>
          (∑ e ∈ (Finset.range n ×ˢ Finset.range n).filter (fun e => (e.1 + e.2) % n = k),
            (a.lane e.1 : Int) * b.lane e.2) % q.toNat

/-- 42_polynomial R136: PMULN, every form; the wrapped products of a slot count negatively, the others as they are. -/
def Obligations.PmulnConvolvesNegacyclically : Prop :=
  IllegalFormsRaise .PMULN ∧
  ∀ (s : State) (rd ra rb : VIdx) (rm : XIdx), EncodesAs (.pmuln rd ra rb rm) 0x34 rd ra rb rm ∧
    match s.block.getX rm with
    | none => Raises (.pmuln rd ra rb rm) s 0x02
    | some q =>
      let a := s.block.getV ra
      let b := s.block.getV rb
      let n := a.len.val
      let sumAt : Nat → Int := fun t =>
        ∑ e ∈ (Finset.range n ×ˢ Finset.range n).filter (fun e => e.1 + e.2 = t), (a.lane e.1 : Int) * b.lane e.2
      if n = 0 ∨ b.len.val = 0 then Raises (.pmuln rd ra rb rm) s 0x02
      else if a.len ≠ b.len then Raises (.pmuln rd ra rb rm) s 0x03
      else if q = 0 then Raises (.pmuln rd ra rb rm) s 0x04
      else RunsVector (.pmuln rd ra rb rm) s rd n fun k => (sumAt k - sumAt (k + n)) % q.toNat

/-- 42_polynomial R137: PRED, every form. -/
def Obligations.PredReducesCoefficients : Prop :=
  IllegalFormsRaise .PRED ∧
  ∀ (s : State) (rd ra : VIdx) (rm : XIdx), EncodesAs (.pred rd ra rm) 0x35 rd ra 0 rm ∧
    match s.block.getX rm with
    | none => Raises (.pred rd ra rm) s 0x02
    | some q =>
      let a := s.block.getV ra
      if a.len.val = 0 then Raises (.pred rd ra rm) s 0x02
      else if q = 0 then Raises (.pred rd ra rm) s 0x04
      else RunsVector (.pred rd ra rm) s rd a.len.val fun i => (a.lane i : Int) % q.toNat

/-- 42_polynomial R138: PNORM, every form; the largest live lane as stored, with no modulus read. -/
def Obligations.PnormIsTheLargestLiveLane : Prop :=
  IllegalFormsRaise .PNORM ∧
  ∀ (s : State) (rd : XIdx) (ra : VIdx), EncodesAs (.pnorm rd ra) 0x36 rd ra 0 0 ∧
    let a := s.block.getV ra
    if a.len.val = 0 then Raises (.pnorm rd ra) s 0x02
    else
      ∃ m : Nat, RunsScalar (.pnorm rd ra) s rd s.block.noinv m ∧ (∀ i, i < a.len.val → a.lane i ≤ m) ∧
        ∃ i, i < a.len.val ∧ a.lane i = m

/-- 42_polynomial R136, R140: PMULN is multiplication in `Z_q[x]/(x^n + 1)`: the product of the operand polynomials and
the result polynomial differ by a multiple of `x^n + 1`. -/
def Obligations.PmulnIsTheProductModXnPlusOne : Prop :=
  ∀ (s : State) (rd ra rb : VIdx) (rm : XIdx) (q : Word s.cfg), s.block.getX rm = some q → q ≠ 0 →
    (s.block.getV ra).len.val ≠ 0 → (s.block.getV ra).len = (s.block.getV rb).len →
    ∃ B, exec (.pmuln rd ra rb rm) s = .next (s.withBlock B) ∧ (B.getV rd).len = (s.block.getV ra).len ∧
      let n := (s.block.getV ra).len.val
      let poly : VReg s.cfg → Polynomial (ZMod q.toNat) := fun r =>
        ∑ i ∈ Finset.range n, Polynomial.C (r.lane i : ZMod q.toNat) * Polynomial.X ^ i
      (Polynomial.X ^ n + 1 : Polynomial (ZMod q.toNat)) ∣
        poly (s.block.getV ra) * poly (s.block.getV rb) - poly (B.getV rd)

/-- 42_polynomial R135, R140: PMULC is multiplication in `Z_q[x]/(x^n - 1)`. -/
def Obligations.PmulcIsTheProductModXnMinusOne : Prop :=
  ∀ (s : State) (rd ra rb : VIdx) (rm : XIdx) (q : Word s.cfg), s.block.getX rm = some q → q ≠ 0 →
    (s.block.getV ra).len.val ≠ 0 → (s.block.getV ra).len = (s.block.getV rb).len →
    ∃ B, exec (.pmulc rd ra rb rm) s = .next (s.withBlock B) ∧ (B.getV rd).len = (s.block.getV ra).len ∧
      let n := (s.block.getV ra).len.val
      let poly : VReg s.cfg → Polynomial (ZMod q.toNat) := fun r =>
        ∑ i ∈ Finset.range n, Polynomial.C (r.lane i : ZMod q.toNat) * Polynomial.X ^ i
      (Polynomial.X ^ n - 1 : Polynomial (ZMod q.toNat)) ∣
        poly (s.block.getV ra) * poly (s.block.getV rb) - poly (B.getV rd)

/-- 42_polynomial R140: the polynomial `1` is the identity of both products, up to reduction: multiplying by it is
PRED. -/
def Obligations.MultiplyingByOneIsReduction : Prop :=
  ∀ (s : State) (rd ra re : VIdx) (rm : XIdx), (s.block.getV re).len = (s.block.getV ra).len →
    (s.block.getV re).lane 0 = 1 → (∀ i, 0 < i → i < (s.block.getV re).len.val → (s.block.getV re).lane i = 0) →
    exec (.pmuln rd ra re rm) s = exec (.pred rd ra rm) s ∧ exec (.pmulc rd ra re rm) s = exec (.pred rd ra rm) s

/-- 42_polynomial R140: subtraction is addition of the additive inverse, lane by lane. -/
def Obligations.PsubIsPaddOfPneg : Prop :=
  ∀ (s : State) (rd rn ra rb : VIdx) (rm : XIdx) (q : Word s.cfg), s.block.getX rm = some q → q ≠ 0 →
    (s.block.getV ra).len.val ≠ 0 → (s.block.getV ra).len = (s.block.getV rb).len → rn ≠ ra →
    ∃ B C D, exec (.pneg rn rb rm) s = .next (s.withBlock B) ∧
      exec (.padd rd ra rn rm) (s.withBlock B) = .next (s.withBlock C) ∧
      exec (.psub rd ra rb rm) s = .next (s.withBlock D) ∧
      ∀ i, i < (s.block.getV ra).len.val → (C.getV rd).lane i = (D.getV rd).lane i

/-- 42_polynomial R140 and the like of 40_scalar_modular R116, 43_rns_crt R153, R155: exchanging the operands of a sum
or a product changes nothing, in every case, the faulting ones among them. -/
def Obligations.SumsAndProductsCommute : Prop :=
  ∀ (s : State) (rd ra rb rm : Fin 8),
    exec (.madd rd ra rb rm) s = exec (.madd rd rb ra rm) s ∧ exec (.mmul rd ra rb rm) s = exec (.mmul rd rb ra rm) s ∧
    exec (.padd rd ra rb rm) s = exec (.padd rd rb ra rm) s ∧
    exec (.pmulc rd ra rb rm) s = exec (.pmulc rd rb ra rm) s ∧
    exec (.pmuln rd ra rb rm) s = exec (.pmuln rd rb ra rm) s ∧
    exec (.radd rd ra rb rm) s = exec (.radd rd rb ra rm) s ∧ exec (.rmul rd ra rb rm) s = exec (.rmul rd rb ra rm) s

/-- 49_host_software R177 on the block: MMUL then MADD accumulates `a * b` modulo `q`. -/
def Obligations.MultiplyThenAddAccumulates : Prop :=
  ∀ (s : State) (rt ra rb racc rm : XIdx) (a b c q : Word s.cfg), s.block.getX ra = some a → s.block.getX rb = some b →
    s.block.getX racc = some c → s.block.getX rm = some q → q ≠ 0 → rt ≠ racc → rt ≠ rm →
    ∃ B C w, exec (.mmul rt ra rb rm) s = .next (s.withBlock B) ∧
      exec (.madd racc racc rt rm) (s.withBlock B) = .next (s.withBlock C) ∧ C.getX racc = some w ∧
      w.toNat = (c.toNat + a.toNat * b.toNat) % q.toNat

/-! ### The RNS/CRT unit (43_rns_crt) -/

/-- 43_rns_crt R152: RCONS, every form; the whole of XW is reduced modulo each modulus. -/
def Obligations.RconsTakesResiduesOfXw : Prop :=
  IllegalFormsRaise .RCONS ∧
  ∀ (s : State) (rd rm : VIdx), EncodesAs (.rcons rd rm) 0x40 rd 0 0 rm ∧
    match s.block.xw with
    | none => Raises (.rcons rd rm) s 0x02
    | some x =>
      let m := s.block.getV rm
      if m.len.val = 0 then Raises (.rcons rd rm) s 0x02
      else if ∃ i, i < m.len.val ∧ m.lane i = 0 then Raises (.rcons rd rm) s 0x04
      else RunsVector (.rcons rd rm) s rd m.len.val fun i => (x.toNat : Int) % m.lane i

/-- 43_rns_crt R153: RADD, every form. -/
def Obligations.RaddAddsResidues : Prop :=
  IllegalFormsRaise .RADD ∧
  ∀ (s : State) (rd ra rb rm : VIdx), EncodesAs (.radd rd ra rb rm) 0x41 rd ra rb rm ∧
    let a := s.block.getV ra
    let b := s.block.getV rb
    let m := s.block.getV rm
    if a.len.val = 0 ∨ b.len.val = 0 ∨ m.len.val = 0 then Raises (.radd rd ra rb rm) s 0x02
    else if ¬(a.len = m.len ∧ b.len = m.len) then Raises (.radd rd ra rb rm) s 0x03
    else if ∃ i, i < m.len.val ∧ m.lane i = 0 then Raises (.radd rd ra rb rm) s 0x04
    else RunsVector (.radd rd ra rb rm) s rd m.len.val fun i => ((a.lane i : Int) + b.lane i) % m.lane i

/-- 43_rns_crt R154: RSUB, every form. -/
def Obligations.RsubSubtractsResidues : Prop :=
  IllegalFormsRaise .RSUB ∧
  ∀ (s : State) (rd ra rb rm : VIdx), EncodesAs (.rsub rd ra rb rm) 0x42 rd ra rb rm ∧
    let a := s.block.getV ra
    let b := s.block.getV rb
    let m := s.block.getV rm
    if a.len.val = 0 ∨ b.len.val = 0 ∨ m.len.val = 0 then Raises (.rsub rd ra rb rm) s 0x02
    else if ¬(a.len = m.len ∧ b.len = m.len) then Raises (.rsub rd ra rb rm) s 0x03
    else if ∃ i, i < m.len.val ∧ m.lane i = 0 then Raises (.rsub rd ra rb rm) s 0x04
    else RunsVector (.rsub rd ra rb rm) s rd m.len.val fun i => ((a.lane i : Int) - b.lane i) % m.lane i

/-- 43_rns_crt R155: RMUL, every form. -/
def Obligations.RmulMultipliesResidues : Prop :=
  IllegalFormsRaise .RMUL ∧
  ∀ (s : State) (rd ra rb rm : VIdx), EncodesAs (.rmul rd ra rb rm) 0x43 rd ra rb rm ∧
    let a := s.block.getV ra
    let b := s.block.getV rb
    let m := s.block.getV rm
    if a.len.val = 0 ∨ b.len.val = 0 ∨ m.len.val = 0 then Raises (.rmul rd ra rb rm) s 0x02
    else if ¬(a.len = m.len ∧ b.len = m.len) then Raises (.rmul rd ra rb rm) s 0x03
    else if ∃ i, i < m.len.val ∧ m.lane i = 0 then Raises (.rmul rd ra rb rm) s 0x04
    else RunsVector (.rmul rd ra rb rm) s rd m.len.val fun i => ((a.lane i : Int) * b.lane i) % m.lane i

/-- 43_rns_crt R156: RDECONS, every form; `Q` is the product of the moduli, `Q_i` the product of the others, `M_i` the
inverse of `Q_i` modulo `m_i` (0 for a modulus of 1). -/
def Obligations.RdeconsReconstructsByTheDirectFormula : Prop :=
  IllegalFormsRaise .RDECONS ∧
  ∀ (s : State) (ra rm : VIdx), EncodesAs (.rdecons ra rm) 0x44 0 ra 0 rm ∧
    let r := s.block.getV ra
    let m := s.block.getV rm
    let k := m.len.val
    let Q : Nat := ∏ i ∈ Finset.range k, m.lane i
    let Qi : Nat → Nat := fun i => ∏ j ∈ (Finset.range k).erase i, m.lane j
    if r.len.val = 0 ∨ k = 0 then Raises (.rdecons ra rm) s 0x02
    else if r.len ≠ m.len then Raises (.rdecons ra rm) s 0x03
    else if s.cfg.KMAX < k then Raises (.rdecons ra rm) s 0x06
    else if ∃ i, i < k ∧ m.lane i = 0 then Raises (.rdecons ra rm) s 0x04
    else if ∃ i, i < k ∧ Nat.gcd (Qi i) (m.lane i) ≠ 1 then Raises (.rdecons ra rm) s 0x05
    else
      ∃ M : Nat → Nat,
        (∀ i, i < k → if m.lane i = 1 then M i = 0 else M i < m.lane i ∧ (Qi i * M i) % m.lane i = 1) ∧
        RunsWide (.rdecons ra rm) s (((∑ i ∈ Finset.range k, r.lane i * Qi i * M i) % Q : Nat) : Int)

/-- 43_rns_crt R156, R160: the reconstructed integer is the only one in `[0, Q)` with the given residues. -/
def Obligations.RdeconsIsTheUniqueIntegerBelowQ : Prop :=
  ∀ (s : State) (ra rm : VIdx), (s.block.getV ra).len.val ≠ 0 → (s.block.getV ra).len = (s.block.getV rm).len →
    (s.block.getV rm).len.val ≤ s.cfg.KMAX → (∀ i, i < (s.block.getV rm).len.val → (s.block.getV rm).lane i ≠ 0) →
    (∀ i j, i < (s.block.getV rm).len.val → j < (s.block.getV rm).len.val → i ≠ j →
      Nat.gcd ((s.block.getV rm).lane i) ((s.block.getV rm).lane j) = 1) →
    ∃ B x, exec (.rdecons ra rm) s = .next (s.withBlock B) ∧ B.xw = some x ∧
      x.toNat < ∏ i ∈ Finset.range (s.block.getV rm).len.val, (s.block.getV rm).lane i ∧
      (∀ i, i < (s.block.getV rm).len.val →
        x.toNat % (s.block.getV rm).lane i = (s.block.getV ra).lane i % (s.block.getV rm).lane i) ∧
      ∀ y : Nat, y < ∏ i ∈ Finset.range (s.block.getV rm).len.val, (s.block.getV rm).lane i →
        (∀ i, i < (s.block.getV rm).len.val →
          y % (s.block.getV rm).lane i = (s.block.getV ra).lane i % (s.block.getV rm).lane i) → y = x.toNat

/-- 43_rns_crt R157: RCONS followed by RDECONS with the same pairwise-coprime moduli returns `XW mod Q`. -/
def Obligations.RconsThenRdeconsReturnsXwModQ : Prop :=
  ∀ (s : State) (rd rm : VIdx) (x : BitVec (s.cfg.KMAX * s.cfg.W)), s.block.xw = some x → rd ≠ rm →
    (s.block.getV rm).len.val ≠ 0 → (s.block.getV rm).len.val ≤ s.cfg.KMAX →
    (∀ i, i < (s.block.getV rm).len.val → (s.block.getV rm).lane i ≠ 0) →
    (∀ i j, i < (s.block.getV rm).len.val → j < (s.block.getV rm).len.val → i ≠ j →
      Nat.gcd ((s.block.getV rm).lane i) ((s.block.getV rm).lane j) = 1) →
    ∃ B C y, exec (.rcons rd rm) s = .next (s.withBlock B) ∧
      exec (.rdecons rd rm) (s.withBlock B) = .next (s.withBlock C) ∧ C.xw = some y ∧
      y.toNat = x.toNat % ∏ i ∈ Finset.range (s.block.getV rm).len.val, (s.block.getV rm).lane i

/-- 43_rns_crt R157, R159: on residues of `x` and `y`, RADD, RSUB, RMUL and then RDECONS give `(x + y) mod Q`,
`(x - y) mod Q`, `(x * y) mod Q`. -/
def Obligations.ResidueArithmeticReconstructs : Prop :=
  ∀ (s : State) (rd ra rb rm : VIdx) (x y : Nat), rd ≠ rm → (s.block.getV ra).len.val ≠ 0 →
    (s.block.getV ra).len = (s.block.getV rm).len → (s.block.getV rb).len = (s.block.getV rm).len →
    (s.block.getV rm).len.val ≤ s.cfg.KMAX →
    (∀ i, i < (s.block.getV rm).len.val → (s.block.getV rm).lane i ≠ 0) →
    (∀ i j, i < (s.block.getV rm).len.val → j < (s.block.getV rm).len.val → i ≠ j →
      Nat.gcd ((s.block.getV rm).lane i) ((s.block.getV rm).lane j) = 1) →
    (∀ i, i < (s.block.getV rm).len.val → (s.block.getV ra).lane i = x % (s.block.getV rm).lane i ∧
      (s.block.getV rb).lane i = y % (s.block.getV rm).lane i) →
    let Q : Int := ∏ i ∈ Finset.range (s.block.getV rm).len.val, ((s.block.getV rm).lane i : Int)
    let reconstructs : Instr → Int → Prop := fun i z =>
      ∃ B C w, exec i s = .next (s.withBlock B) ∧ exec (.rdecons rd rm) (s.withBlock B) = .next (s.withBlock C) ∧
        C.xw = some w ∧ (w.toNat : Int) = z % Q
    reconstructs (.radd rd ra rb rm) ((x : Int) + y) ∧ reconstructs (.rsub rd ra rb rm) ((x : Int) - y) ∧
      reconstructs (.rmul rd ra rb rm) ((x : Int) * y)

/-! ### All commands together (60_exceptions, 00_scope R16, 10_state) -/

/-- 60_exceptions R210 (with R205 to R208, R211): a command reports the first fault that applies, in the fixed order
EmptyOperand, DimMismatch, LenRange, ZeroModulus, NotCoprime; if none applies it completes in mode IDLE. -/
def Obligations.CommandFaultsInTheFixedOrder : Prop :=
  ∀ (i : Instr) (s : State),
    (s.block.readsEmpty i → Raises i s 0x02) ∧
    (¬s.block.readsEmpty i → s.block.lengthsDiffer i → Raises i s 0x03) ∧
    (¬s.block.readsEmpty i → ¬s.block.lengthsDiffer i → s.block.tooManyModuli i → Raises i s 0x06) ∧
    (¬s.block.readsEmpty i → ¬s.block.lengthsDiffer i → ¬s.block.tooManyModuli i → s.block.zeroModulusUsed i →
      Raises i s 0x04) ∧
    (¬s.block.readsEmpty i → ¬s.block.lengthsDiffer i → ¬s.block.tooManyModuli i → ¬s.block.zeroModulusUsed i →
      s.block.moduliShareFactor i → Raises i s 0x05) ∧
    (¬s.block.readsEmpty i → ¬s.block.lengthsDiffer i → ¬s.block.tooManyModuli i → ¬s.block.zeroModulusUsed i →
      ¬s.block.moduliShareFactor i →
      ∃ B, exec i s = .next (s.withBlock B) ∧ B.mode = .idle ∧ B.err = s.block.err ∧ B.errinfo = s.block.errinfo)

/-- 00_scope R16, 10_state R29: a command changes only the destination it names and, MINV alone, NOINV; parameters,
host side and PEND are as before. It ends in IDLE with the fault registers as before, or in FAULT. -/
def Obligations.CommandWritesOnlyItsDestination : Prop :=
  ∀ (i : Instr) (s : State), ∃ B, exec i s = .next (s.withBlock B) ∧
    (∀ k : XIdx, i.destX ≠ some k → B.getX k = s.block.getX k) ∧
    (∀ r : VIdx, i.destV ≠ some r → B.getV r = s.block.getV r) ∧
    (i.writesXW = false → B.xw = s.block.xw) ∧ (i.op ≠ .MINV → B.noinv = s.block.noinv) ∧ B.pend = s.block.pend ∧
    (B.mode = .idle ∧ B.err = s.block.err ∧ B.errinfo = s.block.errinfo ∨ B.mode = .fault)

/-- 60_exceptions R203: a command that ends in mode FAULT has only made the fault entry: a command-fault code in ERR, the
command word in ERRINFO, no partial result. -/
def Obligations.CommandFaultsArePrecise : Prop :=
  ∀ (i : Instr) (s : State) (B : Block s.cfg), exec i s = .next (s.withBlock B) → B.mode = .fault →
    ∃ code ∈ commandCodes, s.block.EnteredFault B code s.block.pend

/-- 40_scalar_modular R111: every residue a completed command writes is below the modulus it used. -/
def Obligations.ResultsAreCanonical : Prop :=
  ∀ (i : Instr) (s : State) (B : Block s.cfg), exec i s = .next (s.withBlock B) → B.mode = .idle →
    (∀ m q, i.modulusX = some m → s.block.getX m = some q →
      (∀ d w, i.destX = some d → B.getX d = some w → w.toNat < q.toNat) ∧
      (∀ d k, i.destV = some d → k < (B.getV d).len.val → (B.getV d).lane k < q.toNat)) ∧
    (∀ m, i.modulusV = some m →
      (∀ d k, i.destV = some d → k < (B.getV d).len.val → (B.getV d).lane k < (s.block.getV m).lane k) ∧
      (∀ w, i.writesXW = true → B.xw = some w →
        w.toNat < ∏ k ∈ Finset.range (s.block.getV m).len.val, (s.block.getV m).lane k))

/-- 10_state R24, R25, 70_reset_and_hazards R231: lanes at and above a register's length never influence a command: from
two blocks that differ only there, the command ends in two blocks that differ only there. -/
def Obligations.DeadLanesDoNotInfluenceCommands : Prop :=
  ∀ (i : Instr) (s : State) (c : Block s.cfg), s.block.LiveEq c →
    ∃ B C : Block s.cfg, exec i s = .next (s.withBlock B) ∧ exec i (s.withBlock c) = .next (s.withBlock C) ∧ B.LiveEq C

/-- 10_state R29: a step that changes NOINV is the block's turn completing a MINV without a fault, or the reset event,
which clears it; no other command, no host access and no fault changes it. -/
def Obligations.OnlyMinvAndResetChangeNoinv : Prop :=
  ∀ s t : State, step s = .next t →
    (t.block.noinv = s.block.noinv ∨
      ((s.host.turns = [] ∨ ∃ ts, s.host.turns = .block :: ts) ∧ s.block.mode = .busy ∧
        (∃ d a m, decode s.block.pend = .ok (.minv d a m)) ∧ t.block.mode = .idle) ∨
      (∃ ts, s.host.turns = .host .reset :: ts) ∧ t.block.noinv = false)

/-! ### Invariants and modes (10_state R30 to R34, 60_exceptions R214) -/

/-- 10_state R33, R34, 60_exceptions R201, R203: every step keeps the fault registers and the mode in agreement. -/
def Obligations.StepKeepsFaultRegistersConsistent : Prop := ∀ s t : State, s.Inv → step s = .next t → t.Inv

/-- 10_state R39: the reset state meets the invariant of the fault registers. -/
def Obligations.ResetHasConsistentFaultRegisters : Prop := State.reset.Inv

/-- 60_exceptions R214, 20_memory R73: in mode FAULT nothing but the reset event changes the block. -/
def Obligations.OnlyResetLeavesFault : Prop :=
  ∀ s t : State, s.block.mode = .fault → step s = .next t →
    (∃ ts, s.host.turns = .host .reset :: ts) ∨ ∃ H : HostSide s.cfg, t = s.withHost H

/-- 70_reset_and_hazards R230, 10_state R39: the reset event, in any mode, leaves the block in mode IDLE with every
register EMPTY and the flag and the fault registers zero; so does the reset state. -/
def Obligations.ResetEmptiesTheBlock : Prop :=
  let isReset : (p : Params) → Block p → Prop := fun _ b =>
    b.mode = .idle ∧ b.noinv = false ∧ b.err = 0 ∧ b.errinfo = 0 ∧ b.xw = none ∧ (∀ k : XIdx, b.getX k = none) ∧
      ∀ r : VIdx, (b.getV r).len.val = 0
  isReset State.reset.cfg State.reset.block ∧
    ∀ (s : State) (ts : List (Turn s.cfg)), s.host.turns = .host .reset :: ts →
      ∃ t, step s = .next t ∧ isReset t.cfg t.block ∧ t.cfg = s.cfg

/-! ### The host port (20_memory, 10_state R31 to R36) -/

/-- 20_memory R61: each mapped address names its own register, and every other address is unmapped. -/
def Obligations.AddressMapIsExact : Prop :=
  ∀ (p : Params),
    portReg p 0x0000 = .cmd ∧ portReg p 0x0001 = .status ∧ portReg p 0x0002 = .err ∧ portReg p 0x0003 = .errinfo ∧
    portReg p 0x0004 = .svalid ∧ (∀ i : XIdx, portReg p (BitVec.ofNat 16 (0x0010 + i)) = .scalar i) ∧
    (∀ r : VIdx, portReg p (BitVec.ofNat 16 (0x0020 + r)) = .vlen r) ∧
    (∀ j : Fin p.KMAX, portReg p (BitVec.ofNat 16 (0x0040 + j)) = .limb j) ∧
    (∀ (r : VIdx) (i : Fin p.NMAX), portReg p (BitVec.ofNat 16 (0x1000 * (r + 1) + i)) = .lane r i) ∧
    ∀ a a' : Addr, portReg p a = portReg p a' → portReg p a ≠ .unmapped → a = a'

/-- 20_memory R65: in mode IDLE a write to CMD latches the low 32 bits in PEND and sets BUSY, nothing else; a word with
higher bits set is BadValue. -/
def Obligations.IssueLatchesTheCommandWord : Prop :=
  ∀ (s : State) (ts : List (Turn s.cfg)) (w : Word s.cfg), s.block.mode = .idle →
    s.host.turns = .host (.write 0x0000 w) :: ts →
    ∃ B, step s = .next (s.update B (s.host.withTurns ts)) ∧
      if w.toNat < 2 ^ 32 then
        B.pend.toNat = w.toNat ∧ B.mode = .busy ∧ B.x = s.block.x ∧ B.v = s.block.v ∧ B.xw = s.block.xw ∧
          B.noinv = s.block.noinv ∧ B.err = s.block.err ∧ B.errinfo = s.block.errinfo
      else s.block.EnteredFault B 0x13 0x00010000

/-- 20_memory R67: in mode IDLE a write to `X<i>` stores the whole word, unreduced, and sets the valid tag. -/
def Obligations.HostWritesScalarRegister : Prop :=
  ∀ (s : State) (ts : List (Turn s.cfg)) (i : XIdx) (w : Word s.cfg), s.block.mode = .idle →
    s.host.turns = .host (.write (BitVec.ofNat 16 (0x0010 + i)) w) :: ts →
    ∃ B, step s = .next (s.update B (s.host.withTurns ts)) ∧ B.getX i = some w ∧ B.mode = .idle ∧
      B.noinv = s.block.noinv ∧ s.block.OnlyScalar B i

/-- 20_memory R68: in mode IDLE a read of a scalar register, a limb or a lane returns its value, or, where there is none,
raises EmptyRead and returns an unspecified word. -/
def Obligations.HostReadsRegisterOrRaisesEmptyRead : Prop :=
  ∀ (s : State) (ts : List (Turn s.cfg)) (a : Addr), s.block.mode = .idle → s.host.turns = .host (.read a) :: ts →
    let raised : Prop :=
      ∃ B, step s = .next (s.update B ((s.host.withTurns ts).answerFree a)) ∧
        s.block.EnteredFault B 0x11 (a.setWidth 32)
    let returns : Nat → Prop := fun n =>
      ∃ w, step s = .next (s.withHost ((s.host.withTurns ts).answer a w)) ∧ w.toNat = n
    (∀ i : XIdx, a = BitVec.ofNat 16 (0x0010 + i) →
      match s.block.getX i with
      | some w => returns w.toNat
      | none => raised) ∧
    (∀ j : Fin s.cfg.KMAX, a = BitVec.ofNat 16 (0x0040 + j) →
      match s.block.xw with
      | some x => returns (x.toNat / 2 ^ (s.cfg.W * j) % 2 ^ s.cfg.W)
      | none => raised) ∧
    (∀ (r : VIdx) (i : Fin s.cfg.NMAX), a = BitVec.ofNat 16 (0x1000 * (r + 1) + i) →
      if i.val < (s.block.getV r).len.val then returns ((s.block.getV r).lane i) else raised)

/-- 20_memory R69: in mode IDLE a limb write stores the word and sets XW's valid tag; the other limbs keep their value, or
become 0 if XW was EMPTY. -/
def Obligations.HostWritesLimb : Prop :=
  ∀ (s : State) (ts : List (Turn s.cfg)) (j : Fin s.cfg.KMAX) (w : Word s.cfg), s.block.mode = .idle →
    s.host.turns = .host (.write (BitVec.ofNat 16 (0x0040 + j)) w) :: ts →
    ∃ B x, step s = .next (s.update B (s.host.withTurns ts)) ∧ B.xw = some x ∧ getLimb x j = w ∧
      (∀ l : Fin s.cfg.KMAX, l ≠ j →
        getLimb x l =
          match s.block.xw with
          | some y => getLimb y l
          | none => 0) ∧
      B.mode = .idle ∧ s.block.OnlyWide B

/-- 10_state R26: XW is the sum of its limbs, limb 0 least significant. -/
def Obligations.WideRegisterIsTheSumOfItsLimbs : Prop :=
  ∀ (p : Params) (x : BitVec (p.KMAX * p.W)),
    x.toNat = ∑ j ∈ Finset.range p.KMAX, (getLimb x j).toNat * 2 ^ (p.W * j)

/-- 20_memory R70: in mode IDLE a lane write stores the word at any lane and leaves the length and every other lane
alone. -/
def Obligations.HostWritesLane : Prop :=
  ∀ (s : State) (ts : List (Turn s.cfg)) (r : VIdx) (i : Fin s.cfg.NMAX) (w : Word s.cfg), s.block.mode = .idle →
    s.host.turns = .host (.write (BitVec.ofNat 16 (0x1000 * (r + 1) + i)) w) :: ts →
    ∃ B, step s = .next (s.update B (s.host.withTurns ts)) ∧ (B.getV r).len = (s.block.getV r).len ∧
      (B.getV r).lane i = w.toNat ∧ (∀ k : Nat, k ≠ i → (B.getV r).lane k = (s.block.getV r).lane k) ∧
      B.mode = .idle ∧ s.block.OnlyVector B r

/-- 10_state R36: in mode IDLE a write of `VLEN<r>` sets the length and leaves the lanes alone, or is BadValue above NMAX;
a read returns the length. -/
def Obligations.HostAccessesVectorLength : Prop :=
  (∀ (s : State) (ts : List (Turn s.cfg)) (r : VIdx) (w : Word s.cfg), s.block.mode = .idle →
      s.host.turns = .host (.write (BitVec.ofNat 16 (0x0020 + r)) w) :: ts →
      ∃ B, step s = .next (s.update B (s.host.withTurns ts)) ∧
        if w.toNat ≤ s.cfg.NMAX then
          (B.getV r).len.val = w.toNat ∧ (B.getV r).lanes = (s.block.getV r).lanes ∧ B.mode = .idle ∧
            s.block.OnlyVector B r
        else s.block.EnteredFault B 0x13 (BitVec.ofNat 32 (0x00010020 + r))) ∧
    (∀ (s : State) (ts : List (Turn s.cfg)) (r : VIdx), s.block.mode = .idle →
      s.host.turns = .host (.read (BitVec.ofNat 16 (0x0020 + r))) :: ts →
      ∃ w, step s = .next (s.withHost ((s.host.withTurns ts).answer (BitVec.ofNat 16 (0x0020 + r)) w)) ∧
        w.toNat = (s.block.getV r).len.val)

/-- 20_memory R71: in mode IDLE an access to an unmapped address, a write to a read-only register and a read of CMD are
BadAddress. -/
def Obligations.BadAddressesFault : Prop :=
  ∀ (s : State) (ts : List (Turn s.cfg)) (a : Addr), s.block.mode = .idle →
    (s.host.turns = .host (.read a) :: ts → portReg s.cfg a = .unmapped ∨ a = 0x0000 →
      ∃ B, step s = .next (s.update B ((s.host.withTurns ts).answerFree a)) ∧
        s.block.EnteredFault B 0x12 (a.setWidth 32)) ∧
    (∀ w, s.host.turns = .host (.write a w) :: ts →
      portReg s.cfg a = .unmapped ∨ a = 0x0001 ∨ a = 0x0002 ∨ a = 0x0003 ∨ a = 0x0004 →
      ∃ B, step s = .next (s.update B (s.host.withTurns ts)) ∧
        s.block.EnteredFault B 0x12 (BitVec.ofNat 32 (0x00010000 + a.toNat)))

/-- 20_memory R72: in mode BUSY every access but a read of STATUS, ERR, ERRINFO is BusyAccess and abandons the pending
command. -/
def Obligations.AccessWhileBusyFaults : Prop :=
  ∀ (s : State) (ts : List (Turn s.cfg)) (a : Addr), s.block.mode = .busy →
    (s.host.turns = .host (.read a) :: ts → ¬(a = 0x0001 ∨ a = 0x0002 ∨ a = 0x0003) →
      ∃ B, step s = .next (s.update B ((s.host.withTurns ts).answerFree a)) ∧
        s.block.EnteredFault B 0x10 (a.setWidth 32)) ∧
    (∀ w, s.host.turns = .host (.write a w) :: ts →
      ∃ B, step s = .next (s.update B (s.host.withTurns ts)) ∧
        s.block.EnteredFault B 0x10 (BitVec.ofNat 32 (0x00010000 + a.toNat)))

/-- 20_memory R73: in mode FAULT every write is ignored and every read but of STATUS, ERR, ERRINFO returns an unspecified
word; nothing of the block changes and no further fault is recorded. -/
def Obligations.AccessInFaultChangesNothing : Prop :=
  ∀ (s : State) (ts : List (Turn s.cfg)) (a : Addr), s.block.mode = .fault →
    (s.host.turns = .host (.read a) :: ts → ¬(a = 0x0001 ∨ a = 0x0002 ∨ a = 0x0003) →
      step s = .next (s.withHost ((s.host.withTurns ts).answerFree a))) ∧
    (∀ w, s.host.turns = .host (.write a w) :: ts → step s = .next (s.withHost (s.host.withTurns ts)))

/-- 20_memory R66, 10_state R32 to R34: in every mode a read of STATUS, ERR, ERRINFO returns the register and changes
nothing; STATUS bits 0, 1, 2 are BUSY, FAULT, NOINV, its other bits 0. -/
def Obligations.DiagnosticRegistersReadInEveryMode : Prop :=
  ∀ (s : State) (ts : List (Turn s.cfg)) (a : Addr), s.host.turns = .host (.read a) :: ts →
    (a = 0x0001 → ∃ w, step s = .next (s.withHost ((s.host.withTurns ts).answer a w)) ∧ (w.getLsbD 0 = true ↔ s.block.mode = .busy) ∧
      (w.getLsbD 1 = true ↔ s.block.mode = .fault) ∧ w.getLsbD 2 = s.block.noinv ∧
      ∀ k, 3 ≤ k → w.getLsbD k = false) ∧
    (a = 0x0002 → ∃ w, step s = .next (s.withHost ((s.host.withTurns ts).answer a w)) ∧ w.toNat = s.block.err.toNat) ∧
    (a = 0x0003 → ∃ w, step s = .next (s.withHost ((s.host.withTurns ts).answer a w)) ∧ w.toNat = s.block.errinfo.toNat)

/-- 10_state R35: in mode IDLE a read of SVALID returns the valid tags of `x0..x7` in bits 0..7, of XW in bit 8, whether
`v0..v7` are live in bits 16..23, and 0 in every other bit. -/
def Obligations.SvalidShowsTheTags : Prop :=
  ∀ (s : State) (ts : List (Turn s.cfg)), s.block.mode = .idle → s.host.turns = .host (.read 0x0004) :: ts →
    ∃ w, step s = .next (s.withHost ((s.host.withTurns ts).answer 0x0004 w)) ∧
      (∀ i : XIdx, w.getLsbD i = (s.block.getX i).isSome) ∧ w.getLsbD 8 = s.block.xw.isSome ∧
      (∀ k, 9 ≤ k → k ≤ 15 → w.getLsbD k = false) ∧
      (∀ r : VIdx, w.getLsbD (16 + r) = true ↔ (s.block.getV r).len.val ≠ 0) ∧ ∀ k, 24 ≤ k → w.getLsbD k = false
end

