-- ==== Sys2Proof/Laws/State.lean ====
section
/-! SUPPORT. One lemma per field per update of the state, so that no proof unfolds a record update. -/

namespace Sys2Proof.Machine

variable {p : Params}

@[simp] theorem Block.setX_x (b : Block p) (i : XIdx) (o : Option (Word p)) : (b.setX i o).x = b.x.set i.val o := rfl
@[simp] theorem Block.setX_v (b : Block p) (i : XIdx) (o : Option (Word p)) : (b.setX i o).v = b.v := rfl
@[simp] theorem Block.setX_xw (b : Block p) (i : XIdx) (o : Option (Word p)) : (b.setX i o).xw = b.xw := rfl
@[simp] theorem Block.setX_mode (b : Block p) (i : XIdx) (o : Option (Word p)) : (b.setX i o).mode = b.mode := rfl
@[simp] theorem Block.setX_noinv (b : Block p) (i : XIdx) (o : Option (Word p)) : (b.setX i o).noinv = b.noinv := rfl
@[simp] theorem Block.setX_err (b : Block p) (i : XIdx) (o : Option (Word p)) : (b.setX i o).err = b.err := rfl
@[simp] theorem Block.setX_errinfo (b : Block p) (i : XIdx) (o : Option (Word p)) : (b.setX i o).errinfo = b.errinfo := rfl
@[simp] theorem Block.setX_pend (b : Block p) (i : XIdx) (o : Option (Word p)) : (b.setX i o).pend = b.pend := rfl

@[simp] theorem Block.setV_x (b : Block p) (r : VIdx) (t : VReg p) : (b.setV r t).x = b.x := rfl
@[simp] theorem Block.setV_v (b : Block p) (r : VIdx) (t : VReg p) : (b.setV r t).v = b.v.set r.val t := rfl
@[simp] theorem Block.setV_xw (b : Block p) (r : VIdx) (t : VReg p) : (b.setV r t).xw = b.xw := rfl
@[simp] theorem Block.setV_mode (b : Block p) (r : VIdx) (t : VReg p) : (b.setV r t).mode = b.mode := rfl
@[simp] theorem Block.setV_noinv (b : Block p) (r : VIdx) (t : VReg p) : (b.setV r t).noinv = b.noinv := rfl
@[simp] theorem Block.setV_err (b : Block p) (r : VIdx) (t : VReg p) : (b.setV r t).err = b.err := rfl
@[simp] theorem Block.setV_errinfo (b : Block p) (r : VIdx) (t : VReg p) : (b.setV r t).errinfo = b.errinfo := rfl
@[simp] theorem Block.setV_pend (b : Block p) (r : VIdx) (t : VReg p) : (b.setV r t).pend = b.pend := rfl

@[simp] theorem Block.setXW_x (b : Block p) (o : Option (BitVec (p.KMAX * p.W))) : (b.setXW o).x = b.x := rfl
@[simp] theorem Block.setXW_v (b : Block p) (o : Option (BitVec (p.KMAX * p.W))) : (b.setXW o).v = b.v := rfl
@[simp] theorem Block.setXW_xw (b : Block p) (o : Option (BitVec (p.KMAX * p.W))) : (b.setXW o).xw = o := rfl
@[simp] theorem Block.setXW_mode (b : Block p) (o : Option (BitVec (p.KMAX * p.W))) : (b.setXW o).mode = b.mode := rfl
@[simp] theorem Block.setXW_noinv (b : Block p) (o : Option (BitVec (p.KMAX * p.W))) : (b.setXW o).noinv = b.noinv := rfl
@[simp] theorem Block.setXW_err (b : Block p) (o : Option (BitVec (p.KMAX * p.W))) : (b.setXW o).err = b.err := rfl
@[simp] theorem Block.setXW_errinfo (b : Block p) (o : Option (BitVec (p.KMAX * p.W))) : (b.setXW o).errinfo = b.errinfo := rfl
@[simp] theorem Block.setXW_pend (b : Block p) (o : Option (BitVec (p.KMAX * p.W))) : (b.setXW o).pend = b.pend := rfl

@[simp] theorem Block.setMode_x (b : Block p) (m : Mode) : (b.setMode m).x = b.x := rfl
@[simp] theorem Block.setMode_v (b : Block p) (m : Mode) : (b.setMode m).v = b.v := rfl
@[simp] theorem Block.setMode_xw (b : Block p) (m : Mode) : (b.setMode m).xw = b.xw := rfl
@[simp] theorem Block.setMode_mode (b : Block p) (m : Mode) : (b.setMode m).mode = m := rfl
@[simp] theorem Block.setMode_noinv (b : Block p) (m : Mode) : (b.setMode m).noinv = b.noinv := rfl
@[simp] theorem Block.setMode_err (b : Block p) (m : Mode) : (b.setMode m).err = b.err := rfl
@[simp] theorem Block.setMode_errinfo (b : Block p) (m : Mode) : (b.setMode m).errinfo = b.errinfo := rfl
@[simp] theorem Block.setMode_pend (b : Block p) (m : Mode) : (b.setMode m).pend = b.pend := rfl

@[simp] theorem Block.setNoinv_x (b : Block p) (f : Bool) : (b.setNoinv f).x = b.x := rfl
@[simp] theorem Block.setNoinv_v (b : Block p) (f : Bool) : (b.setNoinv f).v = b.v := rfl
@[simp] theorem Block.setNoinv_xw (b : Block p) (f : Bool) : (b.setNoinv f).xw = b.xw := rfl
@[simp] theorem Block.setNoinv_mode (b : Block p) (f : Bool) : (b.setNoinv f).mode = b.mode := rfl
@[simp] theorem Block.setNoinv_noinv (b : Block p) (f : Bool) : (b.setNoinv f).noinv = f := rfl
@[simp] theorem Block.setNoinv_err (b : Block p) (f : Bool) : (b.setNoinv f).err = b.err := rfl
@[simp] theorem Block.setNoinv_errinfo (b : Block p) (f : Bool) : (b.setNoinv f).errinfo = b.errinfo := rfl
@[simp] theorem Block.setNoinv_pend (b : Block p) (f : Bool) : (b.setNoinv f).pend = b.pend := rfl

@[simp] theorem Block.raise_x (b : Block p) (f : FaultName) (info : BitVec 32) : (b.raise f info).x = b.x := rfl
@[simp] theorem Block.raise_v (b : Block p) (f : FaultName) (info : BitVec 32) : (b.raise f info).v = b.v := rfl
@[simp] theorem Block.raise_xw (b : Block p) (f : FaultName) (info : BitVec 32) : (b.raise f info).xw = b.xw := rfl
@[simp] theorem Block.raise_mode (b : Block p) (f : FaultName) (info : BitVec 32) : (b.raise f info).mode = .fault := rfl
@[simp] theorem Block.raise_noinv (b : Block p) (f : FaultName) (info : BitVec 32) : (b.raise f info).noinv = b.noinv := rfl
@[simp] theorem Block.raise_err (b : Block p) (f : FaultName) (info : BitVec 32) : (b.raise f info).err = f.code := rfl
@[simp] theorem Block.raise_errinfo (b : Block p) (f : FaultName) (info : BitVec 32) : (b.raise f info).errinfo = info := rfl
@[simp] theorem Block.raise_pend (b : Block p) (f : FaultName) (info : BitVec 32) : (b.raise f info).pend = b.pend := rfl

@[simp] theorem Block.resultX_x (b : Block p) (rd : XIdx) (n : Nat) : (b.resultX rd n).x = b.x.set rd.val (some (BitVec.ofNat p.W n)) := rfl
@[simp] theorem Block.resultX_v (b : Block p) (rd : XIdx) (n : Nat) : (b.resultX rd n).v = b.v := rfl
@[simp] theorem Block.resultX_xw (b : Block p) (rd : XIdx) (n : Nat) : (b.resultX rd n).xw = b.xw := rfl
@[simp] theorem Block.resultX_mode (b : Block p) (rd : XIdx) (n : Nat) : (b.resultX rd n).mode = b.mode := rfl
@[simp] theorem Block.resultX_noinv (b : Block p) (rd : XIdx) (n : Nat) : (b.resultX rd n).noinv = b.noinv := rfl
@[simp] theorem Block.resultX_err (b : Block p) (rd : XIdx) (n : Nat) : (b.resultX rd n).err = b.err := rfl
@[simp] theorem Block.resultX_errinfo (b : Block p) (rd : XIdx) (n : Nat) : (b.resultX rd n).errinfo = b.errinfo := rfl
@[simp] theorem Block.resultX_pend (b : Block p) (rd : XIdx) (n : Nat) : (b.resultX rd n).pend = b.pend := rfl

@[simp] theorem Block.resultV_x (b : Block p) (rd : VIdx) (n : Fin (p.NMAX + 1)) (f : Nat → Nat) : (b.resultV rd n f).x = b.x := rfl
@[simp] theorem Block.resultV_v (b : Block p) (rd : VIdx) (n : Fin (p.NMAX + 1)) (f : Nat → Nat) : (b.resultV rd n f).v = b.v.set rd.val ((b.getV rd).write n f) := rfl
@[simp] theorem Block.resultV_xw (b : Block p) (rd : VIdx) (n : Fin (p.NMAX + 1)) (f : Nat → Nat) : (b.resultV rd n f).xw = b.xw := rfl
@[simp] theorem Block.resultV_mode (b : Block p) (rd : VIdx) (n : Fin (p.NMAX + 1)) (f : Nat → Nat) : (b.resultV rd n f).mode = b.mode := rfl
@[simp] theorem Block.resultV_noinv (b : Block p) (rd : VIdx) (n : Fin (p.NMAX + 1)) (f : Nat → Nat) : (b.resultV rd n f).noinv = b.noinv := rfl
@[simp] theorem Block.resultV_err (b : Block p) (rd : VIdx) (n : Fin (p.NMAX + 1)) (f : Nat → Nat) : (b.resultV rd n f).err = b.err := rfl
@[simp] theorem Block.resultV_errinfo (b : Block p) (rd : VIdx) (n : Fin (p.NMAX + 1)) (f : Nat → Nat) : (b.resultV rd n f).errinfo = b.errinfo := rfl
@[simp] theorem Block.resultV_pend (b : Block p) (rd : VIdx) (n : Fin (p.NMAX + 1)) (f : Nat → Nat) : (b.resultV rd n f).pend = b.pend := rfl

@[simp] theorem Block.resultXW_x (b : Block p) (n : Nat) : (b.resultXW n).x = b.x := rfl
@[simp] theorem Block.resultXW_v (b : Block p) (n : Nat) : (b.resultXW n).v = b.v := rfl
@[simp] theorem Block.resultXW_xw (b : Block p) (n : Nat) : (b.resultXW n).xw = some (BitVec.ofNat (p.KMAX * p.W) n) := rfl
@[simp] theorem Block.resultXW_mode (b : Block p) (n : Nat) : (b.resultXW n).mode = b.mode := rfl
@[simp] theorem Block.resultXW_noinv (b : Block p) (n : Nat) : (b.resultXW n).noinv = b.noinv := rfl
@[simp] theorem Block.resultXW_err (b : Block p) (n : Nat) : (b.resultXW n).err = b.err := rfl
@[simp] theorem Block.resultXW_errinfo (b : Block p) (n : Nat) : (b.resultXW n).errinfo = b.errinfo := rfl
@[simp] theorem Block.resultXW_pend (b : Block p) (n : Nat) : (b.resultXW n).pend = b.pend := rfl

@[simp] theorem State.withBlock_cfg (s : State) (b : Block s.cfg) : (s.withBlock b).cfg = s.cfg := rfl
@[simp] theorem State.withBlock_block (s : State) (b : Block s.cfg) : (s.withBlock b).block = b := rfl
@[simp] theorem State.withBlock_host (s : State) (b : Block s.cfg) : (s.withBlock b).host = s.host := rfl
@[simp] theorem State.withHost_cfg (s : State) (h : HostSide s.cfg) : (s.withHost h).cfg = s.cfg := rfl
@[simp] theorem State.withHost_block (s : State) (h : HostSide s.cfg) : (s.withHost h).block = s.block := rfl
@[simp] theorem State.withHost_host (s : State) (h : HostSide s.cfg) : (s.withHost h).host = h := rfl


@[simp] theorem State.update_cfg (s : State) (b : Block s.cfg) (h : HostSide s.cfg) : (s.update b h).cfg = s.cfg := rfl
@[simp] theorem State.update_block (s : State) (b : Block s.cfg) (h : HostSide s.cfg) : (s.update b h).block = b := rfl
@[simp] theorem State.update_host (s : State) (b : Block s.cfg) (h : HostSide s.cfg) : (s.update b h).host = h := rfl
@[simp] theorem HostSide.withTurns_turns (h : HostSide p) (ts : List (Turn p)) : (h.withTurns ts).turns = ts := rfl
@[simp] theorem HostSide.withTurns_reads (h : HostSide p) (ts : List (Turn p)) : (h.withTurns ts).reads = h.reads := rfl
@[simp] theorem HostSide.withTurns_draws (h : HostSide p) (ts : List (Turn p)) : (h.withTurns ts).draws = h.draws := rfl
@[simp] theorem HostSide.drawn_turns (h : HostSide p) : h.drawn.turns = h.turns := rfl
@[simp] theorem HostSide.drawn_reads (h : HostSide p) : h.drawn.reads = h.reads := rfl
@[simp] theorem HostSide.drawn_draws (h : HostSide p) : h.drawn.draws = h.draws + 1 := rfl
@[simp] theorem HostSide.answer_turns (h : HostSide p) (a : Addr) (w : Word p) : (h.answer a w).turns = h.turns := rfl
@[simp] theorem HostSide.answer_reads (h : HostSide p) (a : Addr) (w : Word p) :
    (h.answer a w).reads = { addr := a, word := w } :: h.reads := rfl
@[simp] theorem HostSide.answer_draws (h : HostSide p) (a : Addr) (w : Word p) : (h.answer a w).draws = h.draws := rfl
@[simp] theorem HostSide.answerFree_turns (h : HostSide p) (a : Addr) : (h.answerFree a).turns = h.turns := rfl
@[simp] theorem HostSide.answerFree_draws (h : HostSide p) (a : Addr) : (h.answerFree a).draws = h.draws + 1 := rfl

@[simp] theorem Block.resetEvent_eq (b : Block p) (n : Nat) : b.resetEvent n = Block.afterReset p n := rfl
@[simp] theorem Block.afterReset_x (p : Params) (n : Nat) : (Block.afterReset p n).x = Vector.replicate 8 none := rfl
@[simp] theorem Block.afterReset_xw (p : Params) (n : Nat) : (Block.afterReset p n).xw = none := rfl
@[simp] theorem Block.afterReset_mode (p : Params) (n : Nat) : (Block.afterReset p n).mode = .idle := rfl
@[simp] theorem Block.afterReset_noinv (p : Params) (n : Nat) : (Block.afterReset p n).noinv = false := rfl
@[simp] theorem Block.afterReset_err (p : Params) (n : Nat) : (Block.afterReset p n).err = 0 := rfl
@[simp] theorem Block.afterReset_errinfo (p : Params) (n : Nat) : (Block.afterReset p n).errinfo = 0 := rfl
@[simp] theorem Block.afterReset_pend (p : Params) (n : Nat) : (Block.afterReset p n).pend = Config.resetPend n := rfl

@[simp] theorem VReg.write_len (r : VReg p) (n : Fin (p.NMAX + 1)) (f : Nat → Nat) : (r.write n f).len = n := rfl
@[simp] theorem VReg.setLane_len (r : VReg p) (i : Fin p.NMAX) (w : Word p) : (r.setLane i w).len = r.len := rfl
@[simp] theorem VReg.setLane_lanes (r : VReg p) (i : Fin p.NMAX) (w : Word p) : (r.setLane i w).lanes = r.lanes.set i.val w := rfl
@[simp] theorem VReg.setLen_len (r : VReg p) (n : Fin (p.NMAX + 1)) : (r.setLen n).len = n := rfl
@[simp] theorem VReg.setLen_lanes (r : VReg p) (n : Fin (p.NMAX + 1)) : (r.setLen n).lanes = r.lanes := rfl

/-! ### The register accessors -/

/-- A scalar register after a write. -/
@[simp] theorem Block.getX_setX (b : Block p) (i k : XIdx) (o : Option (Word p)) :
    (b.setX i o).getX k = if k = i then o else b.getX k := by
  simp only [Block.getX, Block.setX, Vector.getElem_set, Fin.ext_iff, eq_comm]

/-- A vector register after a write. -/
@[simp] theorem Block.getV_setV (b : Block p) (r k : VIdx) (t : VReg p) :
    (b.setV r t).getV k = if k = r then t else b.getV k := by
  simp only [Block.getV, Block.setV, Vector.getElem_set, Fin.ext_iff, eq_comm]

/-- A scalar register after a command's scalar result. -/
@[simp] theorem Block.getX_resultX (b : Block p) (rd k : XIdx) (n : Nat) :
    (b.resultX rd n).getX k = if k = rd then some (BitVec.ofNat p.W n) else b.getX k := Block.getX_setX b rd k _

/-- A vector register after a command's vector result. -/
@[simp] theorem Block.getV_resultV (b : Block p) (rd k : VIdx) (n : Fin (p.NMAX + 1)) (f : Nat → Nat) :
    (b.resultV rd n f).getV k = if k = rd then (b.getV rd).write n f else b.getV k := Block.getV_setV b rd k _

@[simp] theorem Block.getX_setV (b : Block p) (r : VIdx) (t : VReg p) (k : XIdx) : (b.setV r t).getX k = b.getX k := rfl
@[simp] theorem Block.getX_setXW (b : Block p) (o : Option (BitVec (p.KMAX * p.W))) (k : XIdx) : (b.setXW o).getX k = b.getX k := rfl
@[simp] theorem Block.getX_setMode (b : Block p) (m : Mode) (k : XIdx) : (b.setMode m).getX k = b.getX k := rfl
@[simp] theorem Block.getX_setNoinv (b : Block p) (f : Bool) (k : XIdx) : (b.setNoinv f).getX k = b.getX k := rfl
@[simp] theorem Block.getX_raise (b : Block p) (f : FaultName) (info : BitVec 32) (k : XIdx) : (b.raise f info).getX k = b.getX k := rfl
@[simp] theorem Block.getX_resultV (b : Block p) (rd : VIdx) (n : Fin (p.NMAX + 1)) (f : Nat → Nat) (k : XIdx) : (b.resultV rd n f).getX k = b.getX k := rfl
@[simp] theorem Block.getX_resultXW (b : Block p) (n : Nat) (k : XIdx) : (b.resultXW n).getX k = b.getX k := rfl
@[simp] theorem Block.getV_setX (b : Block p) (i : XIdx) (o : Option (Word p)) (k : VIdx) : (b.setX i o).getV k = b.getV k := rfl
@[simp] theorem Block.getV_setXW (b : Block p) (o : Option (BitVec (p.KMAX * p.W))) (k : VIdx) : (b.setXW o).getV k = b.getV k := rfl
@[simp] theorem Block.getV_setMode (b : Block p) (m : Mode) (k : VIdx) : (b.setMode m).getV k = b.getV k := rfl
@[simp] theorem Block.getV_setNoinv (b : Block p) (f : Bool) (k : VIdx) : (b.setNoinv f).getV k = b.getV k := rfl
@[simp] theorem Block.getV_raise (b : Block p) (f : FaultName) (info : BitVec 32) (k : VIdx) : (b.raise f info).getV k = b.getV k := rfl
@[simp] theorem Block.getV_resultX (b : Block p) (rd : XIdx) (n : Nat) (k : VIdx) : (b.resultX rd n).getV k = b.getV k := rfl
@[simp] theorem Block.getV_resultXW (b : Block p) (n : Nat) (k : VIdx) : (b.resultXW n).getV k = b.getV k := rfl

/-- After reset every scalar register is EMPTY. -/
@[simp] theorem Block.getX_afterReset (p : Params) (n : Nat) (k : XIdx) : (Block.afterReset p n).getX k = none := by
  simp [Block.getX]

/-- After reset every vector register has length 0. -/
@[simp] theorem Block.len_afterReset (p : Params) (n : Nat) (r : VIdx) :
    ((Block.afterReset p n).getV r).len = 0 := by
  simp [Block.getV, Block.afterReset]

/-- Two scalar files that agree at every index are equal. -/
theorem Block.x_ext {b c : Block p} (h : ∀ k, b.getX k = c.getX k) : b.x = c.x :=
  Vector.ext fun i hi => h ⟨i, hi⟩

/-- Two vector files that agree at every index are equal. -/
theorem Block.v_ext {b c : Block p} (h : ∀ r, b.getV r = c.getV r) : b.v = c.v :=
  Vector.ext fun i hi => h ⟨i, hi⟩

/-- What lane `i` holds after a vector result: the result below its length, the old contents from there on. -/
theorem VReg.lane_write (r : VReg p) (n : Fin (p.NMAX + 1)) (f : Nat → Nat) (i : Nat) (hi : i < p.NMAX) :
    (r.write n f).lane i = if i < n.val then f i % 2 ^ p.W else r.lane i := by
  by_cases h : i < n.val <;> simp [VReg.lane, VReg.write, hi, h]

/-- A lane is a word. -/
theorem VReg.lane_lt (r : VReg p) (i : Nat) : r.lane i < 2 ^ p.W := by
  unfold VReg.lane
  split
  · exact BitVec.isLt _
  · exact Nat.two_pow_pos _

/-- What lane `i` holds after the host's write of lane `j`. -/
theorem VReg.lane_setLane (r : VReg p) (j : Fin p.NMAX) (w : Word p) (i : Nat) :
    (r.setLane j w).lane i = if i = j.val then w.toNat else r.lane i := by
  by_cases hi : i < p.NMAX
  · by_cases h : i = j.val
    · subst h; simp [VReg.lane]
    · have h' : j.val ≠ i := fun e => h e.symm
      simp [VReg.lane, hi, h, h']
  · have h : i ≠ j.val := fun e => hi (e ▸ j.isLt)
    simp [VReg.lane, hi, h]

/-- A length write leaves the lanes alone. -/
@[simp] theorem VReg.lane_setLen (r : VReg p) (n : Fin (p.NMAX + 1)) (i : Nat) : (r.setLen n).lane i = r.lane i := rfl

end Sys2Proof.Machine
end

