-- ==== Sys2Proof/Laws/Ops.lean ====
section
/-! SUPPORT. What each shared operation can do, said once: the operand reads, the checks, the command shapes, the end
of a completion. -/

namespace Sys2Proof.Machine

variable {p : Params}

/-! ### The checks -/

@[simp] theorem require_eq_ok (c : Prop) [Decidable c] (f : FaultName) (u : Unit) : require c f = .ok u ↔ c := by
  unfold require; split <;> simp [*]

@[simp] theorem require_eq_error (c : Prop) [Decidable c] (f g : FaultName) :
    require c f = .error g ↔ ¬c ∧ f = g := by
  unfold require; split <;> simp [*]

@[simp] theorem require_true {c : Prop} [Decidable c] (h : c) (f : FaultName) : require c f = .ok () := if_pos h

@[simp] theorem require_false {c : Prop} [Decidable c] (h : ¬c) (f : FaultName) : require c f = .error f := if_neg h

/-! ### The operand reads -/

theorem Block.srcX_some {b : Block p} {i : XIdx} {w : Word p} (h : b.getX i = some w) : b.srcX i = .ok w.toNat := by
  simp [Block.srcX, h]

theorem Block.srcX_none {b : Block p} {i : XIdx} (h : b.getX i = none) : b.srcX i = .error .emptyOperand := by
  simp [Block.srcX, h]

theorem Block.srcX_ok_iff (b : Block p) (i : XIdx) (n : Nat) :
    b.srcX i = .ok n ↔ ∃ w, b.getX i = some w ∧ w.toNat = n := by
  cases h : b.getX i <;> simp [Block.srcX, h]

theorem Block.srcX_error_iff (b : Block p) (i : XIdx) (f : FaultName) :
    b.srcX i = .error f ↔ b.getX i = none ∧ f = .emptyOperand := by
  cases h : b.getX i <;> simp [Block.srcX, h, eq_comm]

theorem Block.srcV_live {b : Block p} {r : VIdx} (h : (b.getV r).len.val ≠ 0) : b.srcV r = .ok (b.getV r) := if_neg h

theorem Block.srcV_empty {b : Block p} {r : VIdx} (h : (b.getV r).len.val = 0) : b.srcV r = .error .emptyOperand :=
  if_pos h

theorem Block.srcV_ok_iff (b : Block p) (r : VIdx) (t : VReg p) :
    b.srcV r = .ok t ↔ (b.getV r).len.val ≠ 0 ∧ b.getV r = t := by
  unfold Block.srcV; split <;> simp [*]

theorem Block.srcV_error_iff (b : Block p) (r : VIdx) (f : FaultName) :
    b.srcV r = .error f ↔ (b.getV r).len.val = 0 ∧ f = .emptyOperand := by
  by_cases h : (b.getV r).len.val = 0
  · rw [Block.srcV_empty h]; simp [h, eq_comm]
  · rw [Block.srcV_live h]; simp [h]

theorem Block.srcXW_some {b : Block p} {w : BitVec (p.KMAX * p.W)} (h : b.xw = some w) : b.srcXW = .ok w.toNat := by
  simp [Block.srcXW, h]

theorem Block.srcXW_none {b : Block p} (h : b.xw = none) : b.srcXW = .error .emptyOperand := by
  simp [Block.srcXW, h]

/-! ### Sequencing of checks -/

@[simp] theorem bind_ok_eq {α β : Type} (a : α) (k : α → Except FaultName β) : (Except.ok a >>= k) = k a := rfl

@[simp] theorem bind_error_eq {α β : Type} (f : FaultName) (k : α → Except FaultName β) :
    ((Except.error f : Except FaultName α) >>= k) = .error f := rfl

/-- A sequence ends well exactly when its first part does and the rest does on its value. -/
theorem bind_eq_ok_iff {α β : Type} (m : Except FaultName α) (k : α → Except FaultName β) (c : β) :
    (m >>= k) = .ok c ↔ ∃ a, m = .ok a ∧ k a = .ok c := by
  cases m <;> simp

/-- A sequence raises a fault exactly when its first part raises it, or the rest does. -/
theorem bind_eq_error_iff {α β : Type} (m : Except FaultName α) (k : α → Except FaultName β) (f : FaultName) :
    (m >>= k) = .error f ↔ m = .error f ∨ ∃ a, m = .ok a ∧ k a = .error f := by
  cases m <;> simp

/-! ### The command shapes: what a completion that raises nothing has written -/

/-- Format S4 that raises nothing: the sources and the modulus were valid, the modulus positive, and one scalar
register is written. -/
theorem Block.scalarOp_ok {f : Nat → Nat → Nat → Nat} {rd ra rb rm : XIdx} {b b' : Block p}
    (h : b.scalarOp f rd ra rb rm = .ok b') :
    ∃ wa wb wm, b.getX ra = some wa ∧ b.getX rb = some wb ∧ b.getX rm = some wm ∧ wm.toNat ≠ 0 ∧
      b' = b.resultX rd (f wa.toNat wb.toNat wm.toNat) := by
  simp only [Block.scalarOp, bind_eq_ok_iff, Block.srcX_ok_iff, positiveModulus, require_eq_ok] at h
  obtain ⟨_, ⟨wa, ha, rfl⟩, _, ⟨wb, hb, rfl⟩, _, ⟨wm, hm, rfl⟩, _, hq, he⟩ := h
  exact ⟨wa, wb, wm, ha, hb, hm, hq, (Except.ok.inj he).symm⟩

/-- MINV that raises nothing. -/
theorem Block.inverseOp_ok {rd ra rm : XIdx} {b b' : Block p} (h : b.inverseOp rd ra rm = .ok b') :
    ∃ wa wm, b.getX ra = some wa ∧ b.getX rm = some wm ∧ wm.toNat ≠ 0 ∧
      b' = b.inverseResult rd (Arith.inverse wa.toNat wm.toNat) := by
  simp only [Block.inverseOp, bind_eq_ok_iff, Block.srcX_ok_iff, positiveModulus, require_eq_ok] at h
  obtain ⟨_, ⟨wa, ha, rfl⟩, _, ⟨wm, hm, rfl⟩, _, hq, he⟩ := h
  exact ⟨wa, wm, ha, hm, hq, (Except.ok.inj he).symm⟩

/-- Format V4 that raises nothing. -/
theorem Block.polyBinary_ok {f : (Nat → Nat) → (Nat → Nat) → Nat → Nat → Nat → Nat} {rd ra rb : VIdx} {rm : XIdx}
    {b b' : Block p} (h : b.polyBinary f rd ra rb rm = .ok b') :
    ∃ wm, (b.getV ra).len.val ≠ 0 ∧ (b.getV rb).len.val ≠ 0 ∧ b.getX rm = some wm ∧ (b.getV ra).len = (b.getV rb).len ∧
      wm.toNat ≠ 0 ∧
      b' = b.resultV rd (b.getV ra).len (f (b.getV ra).lane (b.getV rb).lane (b.getV ra).len.val wm.toNat) := by
  simp only [Block.polyBinary, bind_eq_ok_iff, Block.srcV_ok_iff, Block.srcX_ok_iff, sameLength, positiveModulus,
    require_eq_ok] at h
  obtain ⟨_, ⟨ha, rfl⟩, _, ⟨hb, rfl⟩, _, ⟨wm, hm, rfl⟩, _, hl, _, hq, he⟩ := h
  exact ⟨wm, ha, hb, hm, hl, hq, (Except.ok.inj he).symm⟩

/-- Format V3 that raises nothing. -/
theorem Block.polyUnary_ok {f : (Nat → Nat) → Nat → Nat → Nat} {rd ra : VIdx} {rm : XIdx} {b b' : Block p}
    (h : b.polyUnary f rd ra rm = .ok b') :
    ∃ wm, (b.getV ra).len.val ≠ 0 ∧ b.getX rm = some wm ∧ wm.toNat ≠ 0 ∧
      b' = b.resultV rd (b.getV ra).len (f (b.getV ra).lane wm.toNat) := by
  simp only [Block.polyUnary, bind_eq_ok_iff, Block.srcV_ok_iff, Block.srcX_ok_iff, positiveModulus, require_eq_ok] at h
  obtain ⟨_, ⟨ha, rfl⟩, _, ⟨wm, hm, rfl⟩, _, hq, he⟩ := h
  exact ⟨wm, ha, hm, hq, (Except.ok.inj he).symm⟩

/-- PNORM that raises nothing. -/
theorem Block.normOp_ok {rd : XIdx} {ra : VIdx} {b b' : Block p} (h : b.normOp rd ra = .ok b') :
    (b.getV ra).len.val ≠ 0 ∧ b' = b.resultX rd (Arith.polyNorm (b.getV ra).lane (b.getV ra).len.val) := by
  simp only [Block.normOp, bind_eq_ok_iff, Block.srcV_ok_iff] at h
  obtain ⟨_, ⟨ha, rfl⟩, he⟩ := h
  exact ⟨ha, (Except.ok.inj he).symm⟩

/-- Format R4 that raises nothing. -/
theorem Block.rnsBinary_ok {f : Nat → Nat → Nat → Nat} {rd ra rb rm : VIdx} {b b' : Block p}
    (h : b.rnsBinary f rd ra rb rm = .ok b') :
    (b.getV ra).len.val ≠ 0 ∧ (b.getV ra).len = (b.getV rm).len ∧ (b.getV rb).len = (b.getV rm).len ∧
      (∀ i, i < (b.getV rm).len.val → (b.getV rm).lane i ≠ 0) ∧
      b' = b.resultV rd (b.getV rm).len fun i => f ((b.getV ra).lane i) ((b.getV rb).lane i) ((b.getV rm).lane i) := by
  simp only [Block.rnsBinary, bind_eq_ok_iff, Block.srcV_ok_iff, sameLength, positiveModuli, require_eq_ok] at h
  obtain ⟨_, ⟨ha, rfl⟩, _, ⟨-, rfl⟩, _, ⟨-, rfl⟩, _, h1, _, h2, _, hq, he⟩ := h
  exact ⟨ha, h1, h2, hq, (Except.ok.inj he).symm⟩

/-- RCONS that raises nothing. -/
theorem Block.constructOp_ok {rd rm : VIdx} {b b' : Block p} (h : b.constructOp rd rm = .ok b') :
    ∃ w, (b.getV rm).len.val ≠ 0 ∧ b.xw = some w ∧ (∀ i, i < (b.getV rm).len.val → (b.getV rm).lane i ≠ 0) ∧
      b' = b.resultV rd (b.getV rm).len fun i => w.toNat % (b.getV rm).lane i := by
  cases hx : b.xw with
  | none => simp [Block.constructOp, Block.srcXW_none hx, bind_eq_ok_iff] at h
  | some w =>
    simp only [Block.constructOp, Block.srcXW_some hx, bind_eq_ok_iff, Block.srcV_ok_iff, positiveModuli,
      require_eq_ok] at h
    obtain ⟨_, ⟨hm, rfl⟩, _, hw, _, hq, he⟩ := h
    obtain rfl := Except.ok.inj hw
    exact ⟨w, hm, rfl, hq, (Except.ok.inj he).symm⟩

/-- RDECONS that raises nothing. -/
theorem Block.deconstructOp_ok {ra rm : VIdx} {b b' : Block p} (h : b.deconstructOp ra rm = .ok b') :
    (b.getV ra).len.val ≠ 0 ∧ (b.getV ra).len = (b.getV rm).len ∧ (b.getV rm).len.val ≤ p.KMAX ∧
      (∀ i, i < (b.getV rm).len.val → (b.getV rm).lane i ≠ 0) ∧
      Arith.crtInvertible (b.getV rm).lane (b.getV rm).len.val ∧
      b' = b.resultXW (Arith.crtValue (b.getV ra).lane (b.getV rm).lane (b.getV rm).len.val) := by
  simp only [Block.deconstructOp, bind_eq_ok_iff, Block.srcV_ok_iff, sameLength, lengthInRange, positiveModuli,
    coprimeModuli, require_eq_ok] at h
  obtain ⟨_, ⟨ha, rfl⟩, _, ⟨-, rfl⟩, _, h1, _, h2, _, hq, _, hc, he⟩ := h
  exact ⟨ha, h1, h2, hq, hc, (Except.ok.inj he).symm⟩

/-! ### The end of a completion -/

@[simp] theorem Block.finish_ok (b b' : Block p) : b.finish (.ok b') = b'.setMode .idle := rfl

@[simp] theorem Block.finish_error (b : Block p) (f : FaultName) : b.finish (.error f) = b.raise f b.pend := rfl

/-- A completion changes the block only. -/
theorem State.complete_eq (s : State) (r : Except FaultName (Block s.cfg)) :
    s.complete r = .next (s.withBlock (s.block.finish r)) := rfl

/-- What the next state of a completion is: either a fault entry over the old block, or the written block in mode
IDLE. -/
theorem State.complete_cases {s t : State} {r : Except FaultName (Block s.cfg)} (h : s.complete r = .next t) :
    (∃ f, r = .error f ∧ t = s.withBlock (s.block.raise f s.block.pend)) ∨
      (∃ b, r = .ok b ∧ t = s.withBlock (b.setMode .idle)) := by
  obtain rfl := Host.Outcome.next.inj h
  cases r with
  | error f => exact .inl ⟨f, rfl, rfl⟩
  | ok b => exact .inr ⟨b, rfl, rfl⟩

end Sys2Proof.Machine
end

