-- ==== Sys2Proof/Laws/Arith.lean ====
section
/-! SUPPORT. Small laws of the arithmetic and of the shared operations that statements about several commands cite. -/

namespace Sys2Proof.Machine

variable {p : Params}

/-- A word is zero exactly when its number is. -/
theorem word_eq_zero_iff {w : Nat} (q : BitVec w) : q = 0 ↔ q.toNat = 0 := by
  rw [← BitVec.toNat_inj]; simp

/-- `subMod` is the Euclidean remainder of the exact difference. -/
theorem Arith.subMod_cast (a b : Nat) {q : Nat} (hq : q ≠ 0) :
    ((Arith.subMod a b q : Nat) : Int) = ((a : Int) - b) % q :=
  Int.toNat_of_nonneg (Int.emod_nonneg _ (by exact_mod_cast hq))

/-- `subMod` is below its modulus. -/
theorem Arith.subMod_lt (a b : Nat) {q : Nat} (hq : q ≠ 0) : Arith.subMod a b q < q := by
  have h := Arith.subMod_cast a b hq
  have := Int.emod_lt_of_pos ((a : Int) - b) (show (0 : Int) < q by omega)
  omega

/-- Every command is a completion: it answers a next state in which only the block has changed. -/
theorem exec_eq_complete (i : Instr) (s : State) : ∃ r, exec i s = s.complete r := by
  cases i <;> exact ⟨_, rfl⟩

/-- A fault entry is what `EnteredFault` says. -/
theorem Block.enteredFault_raise (b : Block p) (f : FaultName) (info : BitVec 32) :
    b.EnteredFault (b.raise f info) f.code info := by
  constructor <;> rfl

/-- Reading the limb just written. -/
theorem getLimb_setLimb_same (x : BitVec (p.KMAX * p.W)) {j : Nat} (hj : j < p.KMAX) (w : Word p) :
    getLimb (setLimb x j w) j = w := by
  have hb : p.W * j + p.W ≤ p.KMAX * p.W := by
    nlinarith [Nat.mul_le_mul_left p.W (Nat.succ_le_of_lt hj), Nat.mul_succ p.W j]
  ext i hi
  have h1 : p.W * j + i < p.KMAX * p.W := by omega
  simp [getLimb, setLimb, hi, h1]

/-- Reading another limb than the one written. -/
theorem getLimb_setLimb_other (x : BitVec (p.KMAX * p.W)) {j l : Nat} (hl : l < p.KMAX) (w : Word p) (h : l ≠ j) :
    getLimb (setLimb x j w) l = getLimb x l := by
  have hb : p.W * l + p.W ≤ p.KMAX * p.W := by
    nlinarith [Nat.mul_le_mul_left p.W (Nat.succ_le_of_lt hl), Nat.mul_succ p.W l]
  ext i hi
  have h1 : p.W * l + i < p.KMAX * p.W := by omega
  simp only [getLimb, setLimb, BitVec.getElem_extractLsb', BitVec.getLsbD_or, BitVec.getLsbD_and, BitVec.getLsbD_not,
    BitVec.getLsbD_shiftLeft, h1, BitVec.getLsbD_setWidth]
  rcases Nat.lt_or_gt_of_ne h with h | h
  · have : p.W * l + i < p.W * j := by
      nlinarith [Nat.mul_le_mul_left p.W (Nat.succ_le_of_lt h), Nat.mul_succ p.W l]
    simp [this]
  · have : p.W * j + p.W ≤ p.W * l + i := by
      nlinarith [Nat.mul_le_mul_left p.W (Nat.succ_le_of_lt h), Nat.mul_succ p.W j]
    have h2 : p.W ≤ p.W * l + i - p.W * j := by omega
    have h3 : ¬p.W * l + i < p.W * j := by omega
    simp [h3, h2]

end Sys2Proof.Machine
end

