-- ==== Sys2Proof/Laws/PerInstr.lean ====
section
/-! SUPPORT. Facts about every command as syntax, one lemma per constructor. -/

namespace Sys2Proof.Laws

/-- The fields the encoder writes are well formed for the command's format (30_encoding R91, R97). -/
def EncodedFields.Statement (i : Instr) : Prop := i.op.format.wellFormed i.fields = true

/-- An index field that holds a register number is in range. -/
@[simp] theorem usedInRange_indexField : ∀ (used : Bool) (r : Fin 8), usedInRange used (indexField r) = true := by decide

/-- The zero field is in range, used or not. -/
@[simp] theorem usedInRange_zero : ∀ used : Bool, usedInRange used 0#4 = true := by decide

/-- A used field may hold anything as far as the check of unused fields goes. -/
@[simp] theorem unusedIsZero_used (field : BitVec 4) : unusedIsZero true field = true := rfl

/-- The zero field passes the check of unused fields. -/
@[simp] theorem unusedIsZero_zero : ∀ used : Bool, unusedIsZero used 0#4 = true := by decide

/-- The checks on the fields of an encoded command, field by field: `z` is zero by construction. -/
theorem wellFormed_fields (F : Format) (o : Op) (d a b m : BitVec 4) :
    F.wellFormed (o.fields d a b m) =
      ((usedInRange F.usesRd d && usedInRange F.usesRa a && usedInRange F.usesRb b && usedInRange F.usesRm m) &&
        (unusedIsZero F.usesRd d && unusedIsZero F.usesRa a && unusedIsZero F.usesRb b && unusedIsZero F.usesRm m)) := by
  simp [Format.wellFormed, Fields.reservedIsZero, Format.indexesInRange, Format.unusedAreZero, Op.fields]

theorem EncodedFields.madd (d a b m : Fin 8) : EncodedFields.Statement (.madd d a b m) := by
  simp [EncodedFields.Statement, Instr.op, Instr.fields, Op.format, wellFormed_fields, Format.usesRd, Format.usesRa, Format.usesRb, Format.usesRm]

theorem EncodedFields.msub (d a b m : Fin 8) : EncodedFields.Statement (.msub d a b m) := by
  simp [EncodedFields.Statement, Instr.op, Instr.fields, Op.format, wellFormed_fields, Format.usesRd, Format.usesRa, Format.usesRb, Format.usesRm]

theorem EncodedFields.mmul (d a b m : Fin 8) : EncodedFields.Statement (.mmul d a b m) := by
  simp [EncodedFields.Statement, Instr.op, Instr.fields, Op.format, wellFormed_fields, Format.usesRd, Format.usesRa, Format.usesRb, Format.usesRm]

theorem EncodedFields.minv (d a m : Fin 8) : EncodedFields.Statement (.minv d a m) := by
  simp [EncodedFields.Statement, Instr.op, Instr.fields, Op.format, wellFormed_fields, Format.usesRd, Format.usesRa, Format.usesRm]

theorem EncodedFields.padd (d a b m : Fin 8) : EncodedFields.Statement (.padd d a b m) := by
  simp [EncodedFields.Statement, Instr.op, Instr.fields, Op.format, wellFormed_fields, Format.usesRd, Format.usesRa, Format.usesRb, Format.usesRm]

theorem EncodedFields.psub (d a b m : Fin 8) : EncodedFields.Statement (.psub d a b m) := by
  simp [EncodedFields.Statement, Instr.op, Instr.fields, Op.format, wellFormed_fields, Format.usesRd, Format.usesRa, Format.usesRb, Format.usesRm]

theorem EncodedFields.pneg (d a m : Fin 8) : EncodedFields.Statement (.pneg d a m) := by
  simp [EncodedFields.Statement, Instr.op, Instr.fields, Op.format, wellFormed_fields, Format.usesRd, Format.usesRa, Format.usesRm]

theorem EncodedFields.pmulc (d a b m : Fin 8) : EncodedFields.Statement (.pmulc d a b m) := by
  simp [EncodedFields.Statement, Instr.op, Instr.fields, Op.format, wellFormed_fields, Format.usesRd, Format.usesRa, Format.usesRb, Format.usesRm]

theorem EncodedFields.pmuln (d a b m : Fin 8) : EncodedFields.Statement (.pmuln d a b m) := by
  simp [EncodedFields.Statement, Instr.op, Instr.fields, Op.format, wellFormed_fields, Format.usesRd, Format.usesRa, Format.usesRb, Format.usesRm]

theorem EncodedFields.pred (d a m : Fin 8) : EncodedFields.Statement (.pred d a m) := by
  simp [EncodedFields.Statement, Instr.op, Instr.fields, Op.format, wellFormed_fields, Format.usesRd, Format.usesRa, Format.usesRm]

theorem EncodedFields.pnorm (d m : Fin 8) : EncodedFields.Statement (.pnorm d m) := by
  simp [EncodedFields.Statement, Instr.op, Instr.fields, Op.format, wellFormed_fields, Format.usesRa, Format.usesRd]

theorem EncodedFields.rcons (d m : Fin 8) : EncodedFields.Statement (.rcons d m) := by
  simp [EncodedFields.Statement, Instr.op, Instr.fields, Op.format, wellFormed_fields, Format.usesRd, Format.usesRm]

theorem EncodedFields.radd (d a b m : Fin 8) : EncodedFields.Statement (.radd d a b m) := by
  simp [EncodedFields.Statement, Instr.op, Instr.fields, Op.format, wellFormed_fields, Format.usesRd, Format.usesRa, Format.usesRb, Format.usesRm]

theorem EncodedFields.rsub (d a b m : Fin 8) : EncodedFields.Statement (.rsub d a b m) := by
  simp [EncodedFields.Statement, Instr.op, Instr.fields, Op.format, wellFormed_fields, Format.usesRd, Format.usesRa, Format.usesRb, Format.usesRm]

theorem EncodedFields.rmul (d a b m : Fin 8) : EncodedFields.Statement (.rmul d a b m) := by
  simp [EncodedFields.Statement, Instr.op, Instr.fields, Op.format, wellFormed_fields, Format.usesRd, Format.usesRa, Format.usesRb, Format.usesRm]

theorem EncodedFields.rdecons (d m : Fin 8) : EncodedFields.Statement (.rdecons d m) := by
  simp [EncodedFields.Statement, Instr.op, Instr.fields, Op.format, wellFormed_fields, Format.usesRa, Format.usesRm]

end Sys2Proof.Laws
end

