-- ==== Sys2Proof/Machine/HostSoftware.lean ====
section
/-! DEFINITION. The settled formulas of the software around the block (49_host_software): plain functions that no step
uses, since all of it is outside the block (00_scope R5, log 20). `none` is a violated precondition. Samplers and
everything random stay out: the spec gives them no formula (91 N10). -/

namespace Sys2Proof.Machine.HostSoftware

/-- A vector over `Z_q` (49_host_software R171). -/
abbrev ZVec := List Nat

/-- A matrix, row by row (49_host_software R171). -/
abbrev Matrix := List ZVec

/-- The named value types (49_host_software R171, R182). -/
structure PublicKey where
  A : Matrix
  b : ZVec
deriving DecidableEq, Repr

/-- A secret key (R171, R182). -/
structure SecretKey where
  s : ZVec
deriving DecidableEq, Repr

/-- One encrypted bit (R171, R182). -/
structure Ciphertext where
  u : ZVec
  v : Nat
deriving DecidableEq, Repr

/-- An RNS value (R182; 43_rns_crt R150). -/
structure RnsValue where
  residues : ZVec
  moduli : ZVec
deriving DecidableEq, Repr

/-- The residue the host presents for an integer: a negative one becomes its additive inverse (00_scope R10,
49_host_software R179). -/
def residue (z : Int) (q : Nat) : Nat := (z % (q : Int)).toNat

/-- Centered reduction of a residue into `(-q/2, q/2]` (49_host_software R175). -/
def center (q t : Nat) : Int := if 2 * t ≤ q then (t : Int) else (t : Int) - (q : Int)

/-- The exact inner product (49_host_software R172). -/
def inner (v w : ZVec) : Nat := (List.zipWith (· * ·) v w).sum

/-- `inner_product_and_add`: `(Σ v_j * w_j + carry) mod q`, the spec's own reading of the name (49_host_software R177,
log 20). -/
def innerProductAndAdd (v w : ZVec) (carry q : Nat) : Option Nat :=
  if v.length = w.length ∧ 0 < q then some ((inner v w + carry) % q) else none

/-- `transpose_matrix` of a matrix with rows of length `n`. DESIGN CHOICE (log 21): the source names the helper and gives
no formula (91 N9); this is the plain transposition, and rows of another length violate its contract "dimensions must
agree" (49_host_software R177), so that no missing entry is ever read. -/
def transpose (A : Matrix) (n : Nat) : Option Matrix :=
  if ∀ row ∈ A, row.length = n then some ((List.range n).map fun j => A.map fun row => row.getD j 0) else none

/-- `matrix_mul_vector` modulo `q`. DESIGN CHOICE (log 21): the source gives no formula (91 N9); this is the exact inner
product of each row, reduced once, under the contract "dimensions must agree; moduli must be positive"
(49_host_software R177). -/
def mulVec (A : Matrix) (v : ZVec) (q : Nat) : Option ZVec :=
  if (∀ row ∈ A, row.length = v.length) ∧ 0 < q then some (A.map fun row => inner row v % q) else none

/-- Key generation: `b[i] = (A[i]·s + e[i]) mod q` (49_host_software R172, lengths as in 90_conflicts C5). -/
def generatePublicKey (A : Matrix) (sk : SecretKey) (e : List Int) (q : Nat) : Option PublicKey :=
  if (∀ row ∈ A, row.length = sk.s.length) ∧ e.length = A.length ∧ 0 < q then
    some { A := A, b := List.zipWith (fun row ei => residue ((inner row sk.s : Int) + ei) q) A e }
  else none

/-- Encryption of one bit under the selector `r`, `u = Aᵗ·r`; a bit outside `0, 1` is rejected (49_host_software R173,
93 U14). -/
def encrypt (pk : PublicKey) (r : ZVec) (messageBit q : Nat) : Option Ciphertext := do
  let At ← transpose pk.A (pk.A.headD []).length
  if messageBit ≤ 1 ∧ r.length = pk.A.length ∧ pk.b.length = pk.A.length ∧ 0 < q then
    let u ← mulVec At r q
    some { u := u, v := (inner pk.b r + messageBit * (q / 2)) % q }
  else none

/-- Decryption: `t = (v - u·s) mod q` is 0 when its centered magnitude is at most `q/4`, else 1 (49_host_software R174,
90_conflicts C4). -/
def decrypt (c : Ciphertext) (sk : SecretKey) (q : Nat) : Option Nat :=
  if c.u.length = sk.s.length ∧ 0 < q then
    some (if (center q (Arith.subMod c.v (inner c.u sk.s) q)).natAbs ≤ q / 4 then 0 else 1)
  else none

/-- The primes below a bound, by trial division (49_host_software R181). -/
def primesBelow (bound : Nat) : List Nat :=
  (List.range bound).filter fun n => 2 ≤ n ∧ ∀ d, d < n → 2 ≤ d → n % d ≠ 0

end Sys2Proof.Machine.HostSoftware
end

