-- ==== Sys2Proof/Tests/Slice0.lean ====
section
/-! SUPPORT. The model's own tests, each with the vector of 95_test_vectors or the rule its expected result comes from,
and a witness for every statement that has hypotheses. -/

namespace Sys2Proof.Tests

open Sys2Proof.Machine

/-! ### Builders of small states -/

abbrev Ref : Params := Params.reference

/-- The reset block with some scalar registers, vector registers and XW loaded. -/
def loaded (xs : List (XIdx × Nat)) (vs : List (VIdx × List Nat)) (xw : Option Nat) : Block Ref :=
  let b := xs.foldl (fun b e => b.setX e.1 (some (BitVec.ofNat 128 e.2))) (Block.afterReset Ref 0)
  let c := vs.foldl (fun b e => b.setV e.1 ((b.getV e.1).write (Fin.ofNat 17 e.2.length) fun i => e.2.getD i 0)) b
  c.setXW (xw.map (BitVec.ofNat _))

/-- A machine with a block and a host script. -/
abbrev machine (b : Block Ref) (ts : List (Turn Ref)) : State :=
  { cfg := Ref, block := b, host := { turns := ts, reads := [], draws := 1 } }

/-- A block with a command word pending. -/
abbrev pending (b : Block Ref) (w : CmdWord) : Block Ref := { b with mode := .busy, pend := w }

/-- The machine after one step; the reset state if the step does not answer next. -/
def after (s : State) : State :=
  match step s with
  | .next t => t
  | .fault _ | .refused _ => State.reset

/-- One completion of a command from given registers: one step with an exhausted script. -/
def complete (xs : List (XIdx × Nat)) (vs : List (VIdx × List Nat)) (xw : Option Nat) (w : CmdWord) : State :=
  after (machine (pending (loaded xs vs xw) w) [])

/-- One host action on given registers in mode IDLE. -/
def access (xs : List (XIdx × Nat)) (vs : List (VIdx × List Nat)) (xw : Option Nat) (act : HostAction Ref) : State :=
  after (machine (loaded xs vs xw) [.host act])

def x (s : State) (i : XIdx) : Option Nat := (s.block.getX i).map BitVec.toNat
def v (s : State) (r : VIdx) : List Nat := (List.range (s.block.getV r).len.val).map (s.block.getV r).lane
def xw (s : State) : Option Nat := s.block.xw.map BitVec.toNat
def status (s : State) : Nat := s.block.statusWord.toNat
/-- STATUS, ERR, ERRINFO. -/
def diag (s : State) : Nat × Nat × Nat := (status s, s.block.err.toNat, s.block.errinfo.toNat)
/-- What the reads returned, newest first. -/
def answers (s : State) : List Nat := s.host.reads.map fun r => r.word.toNat

/-! ### Well-formedness: each check refuses a term that breaks it (30_encoding R91, R97) -/

theorem test_wf_accepts : Format.S4.wellFormed ⟨0x12, 3, 1, 2, 0, 0⟩ = true := by decide +kernel
theorem test_wf_reserved : Fields.reservedIsZero ⟨0x12, 3, 1, 2, 0, 1⟩ = false := by decide +kernel
theorem test_wf_rd : Format.S4.indexesInRange ⟨0x12, 9, 1, 2, 0, 0⟩ = false := by decide +kernel
theorem test_wf_ra : Format.S4.indexesInRange ⟨0x12, 3, 9, 2, 0, 0⟩ = false := by decide +kernel
theorem test_wf_rb : Format.S4.indexesInRange ⟨0x12, 3, 1, 8, 0, 0⟩ = false := by decide +kernel
theorem test_wf_rm : Format.S4.indexesInRange ⟨0x12, 3, 1, 2, 8, 0⟩ = false := by decide +kernel
theorem test_wf_unused_rb : Format.S3.unusedAreZero ⟨0x20, 2, 1, 1, 0, 0⟩ = false := by decide +kernel
theorem test_wf_unused_rm : Format.VN.unusedAreZero ⟨0x36, 5, 2, 0, 1, 0⟩ = false := by decide +kernel
theorem test_wf_unused_ra : Format.RC.unusedAreZero ⟨0x40, 1, 1, 0, 0, 0⟩ = false := by decide +kernel
theorem test_wf_unused_rd : Format.RD.unusedAreZero ⟨0x44, 1, 3, 0, 0, 0⟩ = false := by decide +kernel
theorem test_wf_whole :
    Format.S4.wellFormed ⟨0x12, 3, 1, 2, 0, 1⟩ = false ∧ Format.S4.wellFormed ⟨0x12, 9, 1, 2, 0, 0⟩ = false ∧
      Format.S3.wellFormed ⟨0x20, 2, 1, 1, 0, 0⟩ = false := by decide +kernel

/-! ### Decoding: every command's word from the spec (30_encoding R98, 95_test_vectors 2.1 to 2.5) -/

theorem test_decode_scalar :
    decode 0x10312000 = .ok (.madd 3 1 2 0) ∧ decode 0x11312000 = .ok (.msub 3 1 2 0) ∧
      decode 0x12312000 = .ok (.mmul 3 1 2 0) ∧ decode 0x10777700 = .ok (.madd 7 7 7 7) ∧
      decode 0x10000000 = .ok (.madd 0 0 0 0) := by decide +kernel
theorem test_decode_inverse : decode 0x20210000 = .ok (.minv 2 1 0) := by decide +kernel
theorem test_decode_poly :
    decode 0x30201000 = .ok (.padd 2 0 1 0) ∧ decode 0x31201000 = .ok (.psub 2 0 1 0) ∧
      decode 0x32100000 = .ok (.pneg 1 0 0) ∧ decode 0x33201000 = .ok (.pmulc 2 0 1 0) ∧
      decode 0x34201000 = .ok (.pmuln 2 0 1 0) ∧ decode 0x35100000 = .ok (.pred 1 0 0) ∧
      decode 0x36520000 = .ok (.pnorm 5 2) := by decide +kernel
theorem test_decode_rns :
    decode 0x40100000 = .ok (.rcons 1 0) ∧ decode 0x41312000 = .ok (.radd 3 1 2 0) ∧
      decode 0x42321000 = .ok (.rsub 3 2 1 0) ∧ decode 0x43412000 = .ok (.rmul 4 1 2 0) ∧
      decode 0x44030000 = .ok (.rdecons 3 0) := by decide +kernel
/-- MMUL x3, x1, x2, x4 from the fields: opcode 0x12, rd 3, ra 1, rb 2, rm 4, z 0 (30_encoding R90). -/
theorem test_decode_bits :
    decode 0b00010010_0011_0001_0010_0100_00000000 = .ok (.mmul 3 1 2 4) ∧
      decode 0b00100000_0111_0110_0000_0101_00000000 = .ok (.minv 7 6 5) ∧
      decode 0b01000100_0000_0110_0000_0101_00000000 = .ok (.rdecons 6 5) ∧
      decode 0b01000000_0110_0000_0000_0101_00000000 = .ok (.rcons 6 5) := by decide +kernel
theorem test_encode :
    encode (.mmul 3 1 2 0) = 0x12312000 ∧ encode (.msub 5 6 1 0) = 0x11561000 ∧ encode (.rdecons 4 0) = 0x44040000 ∧
      encode (.pnorm 5 2) = 0x36520000 := by decide +kernel
theorem test_decode_opcodes :
    (List.map decode [0x00000000, 0xFFFFFFFF, 0x13000000, 0x21000000, 0x37000000, 0x45000000]) =
      List.replicate 6 (.error .unknownOpcode) := by decide +kernel
theorem test_decode_ranges :
    (List.map decode [0x12912000, 0x12392000, 0x12318000, 0x12312800]) =
      List.replicate 4 (.error .indexOutOfRange) := by decide +kernel
theorem test_decode_unused :
    (List.map decode [0x20211000, 0x36520100, 0x36521000, 0x40110000, 0x40101000, 0x44130000, 0x44031000, 0x44870000]) =
      List.replicate 8 (.error .unusedFieldSet) := by decide +kernel
theorem test_decode_reserved : decode 0x12312001 = .error .reservedBitsSet := by decide +kernel
/-- The mask of a format fixes exactly opcode, `z`, bit 3 of used fields and all of unused ones (30_encoding R92). -/
theorem test_masks :
    ∀ F ∈ [Format.S4, .S3, .V4, .V3, .VN, .R4, .RC, .RD],
      F.mask = 0xFF0000FF ||| (if F.usesRd then 0x00800000 else 0x00F00000) |||
        (if F.usesRa then 0x00080000 else 0x000F0000) ||| (if F.usesRb then 0x00008000 else 0x0000F000) |||
        (if F.usesRm then 0x00000800 else 0x00000F00) := by decide +kernel
theorem test_asm :
    asm (.mmul 3 1 2 0) = "MMUL x3, x1, x2, x0" ∧ asm (.pmuln 2 0 1 0) = "PMULN v2, v0, v1, x0" ∧
      asm (.rdecons 3 0) = "RDECONS v3, v0" := by decide +kernel
theorem test_decodeTableWord :
    decodeTableWord 32 0x10312000 = some (.madd 3 1 2 0) ∧ decodeTableWord 32 0x12912000 = none ∧
      decodeTableWord 33 0x110312000 = none := by decide +kernel
/-- `withFetchWord` makes the next step complete the word. -/
theorem test_withFetchWord : diag (after (State.reset.withFetchWord 32 0x10312000)) = (2, 0x02, 0x10312000) := by decide +kernel

/-! ### The scalar unit (95_test_vectors SV) -/

/-- SV4: the sum exceeds `W` bits and does not wrap. -/
theorem test_madd_wide :
    x (complete [(0, 2 ^ 127), (1, 2 ^ 128 - 1), (2, 2 ^ 128 - 1)] [] none 0x10312000) 3 = some (2 ^ 127 - 2) := by decide +kernel
/-- SV21: the modulus register is overwritten by the result. -/
theorem test_madd_alias : x (complete [(0, 11), (1, 7)] [] none 0x10011000) 0 = some 3 := by decide +kernel
/-- SV10. -/
theorem test_msub_wide :
    x (complete [(0, 2 ^ 128 - 2), (1, 5), (2, 2 ^ 128 - 1)] [] none 0x11312000) 3 = some 4 := by decide +kernel
/-- SV8 and its direction. -/
theorem test_msub : x (complete [(0, 11), (1, 3), (2, 31)] [] none 0x11312000) 3 = some 5 := by decide +kernel
/-- SV16: the product needs 256 bits. -/
theorem test_mmul_wide :
    x (complete [(0, 2 ^ 128 - 3), (1, 2 ^ 128 - 1), (2, 2 ^ 128 - 1)] [] none 0x12312000) 3 = some 4 := by decide +kernel
/-- SV18: the fault is precise. -/
theorem test_mmul_zero :
    let t := complete [(0, 0), (1, 1), (2, 1)] [] none 0x12312000
    diag t = (2, 0x04, 0x12312000) ∧ x t 3 = none := by decide +kernel

/-! ### The inverse unit (95_test_vectors IV) -/

/-- IV7 and IV12. -/
theorem test_minv :
    x (complete [(0, 2 ^ 127 - 1), (1, 2)] [] none 0x20210000) 2 = some (2 ^ 126) ∧
      x (complete [(0, 1), (1, 1)] [] none 0x20210000) 2 = some 0 := by decide +kernel
/-- IV8: no inverse: the destination is EMPTY, NOINV is set, SVALID is 0x003. -/
theorem test_minv_none :
    let t := complete [(0, 9), (1, 6), (2, 3)] [] none 0x20210000
    x t 2 = none ∧ diag t = (4, 0, 0) ∧ t.block.svalidWord.toNat = 0x003 := by decide +kernel

/-! ### The polynomial unit (95_test_vectors PV) -/

theorem test_padd : v (complete [(0, 100)] [(0, [1, 2, 3, 4]), (1, [99, 98, 97, 96])] none 0x30201000) 2 = [0, 0, 0, 0] := by
  decide +kernel
/-- The stale lanes of 95_test_vectors 2.3: lanes at and above the new length keep their contents. -/
theorem test_padd_stale :
    let t := complete [(0, 100)] [(0, [1, 2]), (1, [3, 4]), (2, [9, 9, 9, 9])] none 0x30201000
    v t 2 = [4, 6] ∧ (List.range 4).map (t.block.getV 2).lane = [4, 6, 9, 9] := by decide +kernel
theorem test_psub : v (complete [(0, 100)] [(0, [1, 2, 3, 4]), (1, [4, 3, 2, 1])] none 0x31201000) 2 = [97, 99, 1, 3] := by
  decide +kernel
theorem test_pneg : v (complete [(0, 100)] [(0, [0, 1, 50, 99])] none 0x32100000) 1 = [0, 99, 50, 1] := by decide +kernel
/-- PV9, PV24. -/
theorem test_pmulc :
    v (complete [(0, 100)] [(0, [1, 2, 3, 4]), (1, [5, 6, 7, 8])] none 0x33201000) 2 = [66, 68, 66, 60] := by decide +kernel
theorem test_pmulc_wide :
    v (complete [(0, 2 ^ 128 - 3)] [(0, List.replicate 4 (2 ^ 128 - 1))] none 0x33200000) 2 = [16, 16, 16, 16] := by decide +kernel
/-- PV10. -/
theorem test_pmuln :
    v (complete [(0, 100)] [(0, [1, 2, 3, 4]), (1, [5, 6, 7, 8])] none 0x34201000) 2 = [44, 64, 2, 60] := by decide +kernel
/-- The in-place square of 95_test_vectors 2.3. -/
theorem test_pmuln_alias : v (complete [(0, 100)] [(1, [1, 2, 3, 4])] none 0x34111000) 1 = [76, 80, 94, 20] := by decide +kernel
theorem test_pred : v (complete [(0, 100)] [(0, [100, 250, 99, 0])] none 0x35100000) 1 = [0, 50, 99, 0] := by decide +kernel
/-- PV6: stored words, not reduced; PV32: no modulus is needed. -/
theorem test_pnorm : x (complete [] [(0, [100, 250, 99, 0])] none 0x36500000) 5 = some 250 := by decide +kernel
/-- PV28, PV29: the order of the checks. -/
theorem test_poly_order :
    diag (complete [] [(0, [1, 2]), (1, [1])] none 0x30201000) = (2, 0x02, 0x30201000) ∧
      diag (complete [(0, 0)] [(0, [1, 2]), (1, [1])] none 0x30201000) = (2, 0x03, 0x30201000) := by decide +kernel
/-- The literal loop of 93_implementation_defined U1 gives what PV14 and PV21 say, and not the block's result. -/
theorem test_literal_loop :
    Arith.negacyclicLiteral (fun i => [1, 1].getD i 0) (fun i => [1, 1].getD i 0) 2 100 = [98, 2] ∧
      Arith.negacyclicLiteral (fun i => [1, 0, 0, 0].getD i 0) (fun i => [5, 6, 7, 8].getD i 0) 4 100 = [95, 6, 93, 8] := by
  decide +kernel

/-! ### The RNS/CRT unit (95_test_vectors CV) -/

theorem test_rcons : v (complete [] [(0, [2, 3, 5, 7])] (some 123) 0x40100000) 1 = [1, 0, 3, 4] := by decide +kernel
/-- The multi-limb example of 95_test_vectors 2.4. -/
theorem test_rcons_limbs :
    v (complete [] [(0, [7, 10, 2 ^ 64 + 13])] (some (7 * 2 ^ 128 + 5)) 0x40100000) 1 = [5, 7, 1188] := by decide +kernel
theorem test_radd :
    v (complete [] [(0, [2, 3, 5, 7]), (1, [1, 0, 3, 4]), (2, [0, 1, 0, 2])] none 0x41312000) 3 = [1, 1, 3, 6] := by decide +kernel
theorem test_rsub :
    v (complete [] [(0, [2, 3, 5, 7]), (1, [1, 0, 3, 4]), (2, [0, 1, 0, 2])] none 0x42321000) 3 = [1, 1, 2, 5] := by decide +kernel
theorem test_rmul :
    v (complete [] [(0, [2, 3, 5, 7]), (1, [1, 0, 3, 4]), (2, [0, 1, 0, 2])] none 0x43312000) 3 = [0, 0, 0, 1] := by decide +kernel
/-- CV8, and CV20 with a modulus of 1. -/
theorem test_rdecons :
    xw (complete [] [(0, [2, 3, 5, 7]), (1, [1, 0, 3, 4])] none 0x44010000) = some 123 ∧
      xw (complete [] [(0, [1, 5]), (1, [0, 2])] none 0x44010000) = some 2 := by decide +kernel
/-- CV28, CV30, CV25, CV22: LenRange before ZeroModulus, DimMismatch before LenRange, ZeroModulus before NotCoprime. -/
theorem test_rdecons_order :
    let fault (m r : List Nat) : Nat := (complete [] [(0, m), (1, r)] none 0x44010000).block.err.toNat
    fault [2, 3, 5, 7, 11, 13, 17, 19, 0] (List.replicate 9 1) = 0x06 ∧
      fault [2, 3, 5, 7, 11, 13, 17, 19] (List.replicate 9 1) = 0x03 ∧ fault [0, 6] [1, 2] = 0x04 ∧
      fault [4, 6] [1, 2] = 0x05 := by decide +kernel

/-! ### The host port (95_test_vectors HV) -/

/-- HV1, HV2, HV3. -/
theorem test_emptyRead :
    diag (access [] [] none (.read 0x0013)) = (2, 0x11, 0x00000013) ∧
      diag (access [] [] none (.read 0x0040)) = (2, 0x11, 0x00000040) ∧
      diag (access [] [(0, [1, 2, 3, 4])] none (.read 0x1004)) = (2, 0x11, 0x00001004) := by decide +kernel
/-- HV4 to HV10. -/
theorem test_badAddress :
    diag (access [] [] none (.write 0x0001 0)) = (2, 0x12, 0x00010001) ∧
      diag (access [] [] none (.read 0x0000)) = (2, 0x12, 0) ∧ diag (access [] [] none (.read 0x0005)) = (2, 0x12, 5) ∧
      diag (access [] [] none (.write 0x0018 0)) = (2, 0x12, 0x00010018) ∧
      diag (access [] [] none (.write 0x0048 1)) = (2, 0x12, 0x00010048) ∧
      diag (access [] [] none (.read 0x1010)) = (2, 0x12, 0x00001010) ∧
      diag (access [] [] none (.read 0x9000)) = (2, 0x12, 0x00009000) := by decide +kernel
/-- HV11, HV12. -/
theorem test_badValue :
    diag (access [] [] none (.write 0x0020 17)) = (2, 0x13, 0x00010020) ∧
      diag (access [] [] none (.write 0x0000 0x110312000)) = (2, 0x13, 0x00010000) := by decide +kernel
/-- HV13: the pending command is abandoned. -/
theorem test_busyAccess :
    let t := after (machine (pending (loaded [(0, 1)] [] none) 0x10300000) [.host (.write 0x0011 5)])
    diag t = (2, 0x10, 0x00010011) ∧ x t 3 = none := by decide +kernel
/-- 95_test_vectors 2.5: an illegal word is accepted at issue and faults at completion, before the EMPTY registers. -/
theorem test_illegal :
    status (access [] [] none (.write 0x0000 0x12912000)) = 1 ∧
      diag (complete [] [] none 0x12912000) = (2, 0x01, 0x12912000) := by decide +kernel
/-- 95_test_vectors 2.6: reads from reset that do not fault; the reads of a valid register, limb and lane. -/
theorem test_reads :
    answers (access [] [] none (.read 0x0004)) = [0] ∧ answers (access [] [] none (.read 0x0023)) = [0] ∧
      answers (access [(3, 2 ^ 128 - 1)] [] none (.read 0x0013)) = [2 ^ 128 - 1] ∧
      answers (access [] [] (some (7 * 2 ^ 128 + 5)) (.read 0x0041)) = [7] ∧
      answers (access [] [(7, [1, 2])] none (.read 0x8001)) = [2] := by decide +kernel
/-- SVALID of program P2's end state. -/
theorem test_svalid :
    answers (access [(0, 100), (5, 99)] [(0, [0]), (1, [0]), (2, [0]), (3, [0])] none (.read 0x0004)) = [0x0f0021] := by decide +kernel
/-- 20_memory R69: the first limb write zero-fills, a later one changes its limb only. -/
theorem test_limb_write :
    xw (access [] [] none (.write 0x0041 7)) = some (7 * 2 ^ 128) ∧
      xw (access [] [] (some (7 * 2 ^ 128)) (.write 0x0040 5)) = some (7 * 2 ^ 128 + 5) := by decide +kernel
/-- 20_memory R70, 10_state R36: a lane write leaves the length, a length write leaves the lanes. -/
theorem test_lane_write :
    ((access [] [] none (.write 0x1009 5)).block.getV 0).lane 9 = 5 ∧ v (access [] [] none (.write 0x1009 5)) 0 = [] ∧
      v (access [] [(0, [1, 2, 3])] none (.write 0x0020 2)) 0 = [1, 2] := by decide +kernel
/-- 20_memory R73: in mode FAULT a write is ignored; 70_reset_and_hazards R230: reset leaves it. -/
theorem test_fault_mode :
    let b := (loaded [(0, 1)] [] none).raise .dimMismatch 0x30201000
    x (after (machine b [.host (.write 0x0010 9)])) 0 = some 1 ∧
      diag (after (machine b [.host .reset])) = (0, 0, 0) ∧ x (after (machine b [.host .reset])) 0 = none := by decide +kernel

/-! ### The host's software (95_test_vectors T1, T2, T3, T5) -/

theorem test_lwe_keygen :
    (HostSoftware.generatePublicKey [[1, 2, 3], [4, 5, 6], [7, 8, 9]] ⟨[1, 2, 3]⟩ [1, -1, -1] 11).map (·.b) =
      some [4, 9, 5] := by decide +kernel
theorem test_lwe_encrypt :
    HostSoftware.encrypt ⟨[[1, 2, 3], [4, 5, 6], [7, 8, 9]], [4, 9, 5]⟩ [1, 0, 1] 1 11 = some ⟨[8, 10, 1], 3⟩ := by decide +kernel
theorem test_lwe_decrypt :
    HostSoftware.decrypt ⟨[8, 10, 1], 3⟩ ⟨[1, 2, 3]⟩ 11 = some 1 ∧
      HostSoftware.decrypt ⟨[8, 10, 1], 9⟩ ⟨[1, 2, 3]⟩ 11 = some 0 := by decide +kernel
theorem test_matrix :
    HostSoftware.transpose [[1, 2, 3], [4, 5, 6]] 3 = some [[1, 4], [2, 5], [3, 6]] ∧
      HostSoftware.mulVec [[1, 2, 3], [4, 5, 6]] [1, 2, 3] 11 = some [3, 10] := by decide +kernel
/-- The contract of 49_host_software R177: dimensions agree, moduli positive. -/
theorem test_matrix_contract :
    HostSoftware.transpose [[1, 2, 3], [4, 5]] 3 = none ∧ HostSoftware.mulVec [[1, 2, 3]] [1, 2] 11 = none ∧
      HostSoftware.mulVec [[1]] [1] 0 = none := by decide +kernel
theorem test_center : (List.range 11).map (HostSoftware.center 11) = [0, 1, 2, 3, 4, 5, -5, -4, -3, -2, -1] := by decide +kernel

/-! ### Witnesses: for each statement with hypotheses, a state and operands that meet them -/

/-- `x0 = 11`, `x1 = 7`, `x2 = 8`, `x3 = 18`, `v0 = [2,3,5,7]`, `v1 = [1,0,3,4]`, `v2 = [0,1,0,2]`, `v3 = [1,0,0,0]`,
XW = 123; `x4..x7` and `v4..v7` EMPTY; mode IDLE. -/
def sample : Block Ref :=
  loaded [(0, 11), (1, 7), (2, 8), (3, 18)] [(0, [2, 3, 5, 7]), (1, [1, 0, 3, 4]), (2, [0, 1, 0, 2]), (3, [1, 0, 0, 0])]
    (some 123)

/-- The sample in mode IDLE with a host script. -/
abbrev idle (ts : List (Turn Ref)) : State := machine sample ts
/-- The sample with a command pending. -/
abbrev busy (w : CmdWord) (ts : List (Turn Ref)) : State := machine (pending sample w) ts
/-- The sample in mode FAULT. -/
abbrev faulted (ts : List (Turn Ref)) : State := machine (sample.raise .dimMismatch sample.pend) ts

/-- The moduli `v0` of the sample are pairwise coprime. -/
theorem sample_coprime :
    ∀ i j, i < (sample.getV 0).len.val → j < (sample.getV 0).len.val → i ≠ j →
      Nat.gcd ((sample.getV 0).lane i) ((sample.getV 0).lane j) = 1 := by
  have h : ∀ i, i < (sample.getV 0).len.val → ∀ j, j < (sample.getV 0).len.val → i ≠ j →
      Nat.gcd ((sample.getV 0).lane i) ((sample.getV 0).lane j) = 1 := by decide +kernel
  exact fun i j hi hj => h i hi j hj

theorem sample_positive : ∀ i, i < (sample.getV 0).len.val → (sample.getV 0).lane i ≠ 0 := by decide +kernel

theorem witness_EncodeOfDecodeIsTheWord : ∃ w i, decode w = .ok i := ⟨0x36520000, .pnorm 5 2, by decide⟩

theorem witness_StepRunsTheDecodedCommand :
    (∃ (s : State) (ts : List (Turn s.cfg)) (i : Instr), s.block.mode = .busy ∧ s.host.turns = .block :: ts ∧
      decode s.block.pend = .ok i) ∧
    (∃ (s : State) (i : Instr), s.block.mode = .busy ∧ s.host.turns = [] ∧ decode s.block.pend = .ok i) ∧
    (∃ (s : State) (ts : List (Turn s.cfg)), s.block.mode = .idle ∧ s.host.turns = .block :: ts) ∧
    ∃ s : State, s.block.mode = .fault ∧ s.host.turns = [] :=
  ⟨⟨busy 0x10312000 [.block, .host .reset], [.host .reset], .madd 3 1 2 0, by decide +kernel⟩,
    ⟨busy 0x44010000 [], .rdecons 1 0, by decide +kernel⟩, ⟨idle [.block, .host .reset], [.host .reset], rfl, rfl⟩,
    faulted [], rfl, rfl⟩

theorem witness_IllegalWordRaisesIllegalCommand :
    (busy 0x12912000 [.block]).block.mode = .busy ∧ (busy 0x12912000 [.block]).host.turns = .block :: [] ∧
      ∀ o : Op, (busy 0x12912000 [.block]).block.pend &&& o.format.mask ≠ o.matchWord :=
  ⟨rfl, rfl, fun o => by cases o <;> decide⟩

/-- Of the clause on illegal forms in the sixteen statements of single commands: a reserved bit set. -/
theorem witness_IllegalFormsRaise (o : Op) :
    (o.matchWord ||| 1).extractLsb' 24 8 = o.code ∧ (o.matchWord ||| 1) &&& o.format.mask ≠ o.matchWord := by
  cases o <;> decide

theorem witness_IssuedCommandCompletes :
    ∃ (s : State) (polls : List Addr) (ts : List (Turn s.cfg)), s.block.mode = .busy ∧
      (∀ a ∈ polls, a = 0x0001 ∨ a = 0x0002 ∨ a = 0x0003) ∧
      s.host.turns = polls.map (fun a => .host (.read a)) ++ .block :: ts :=
  ⟨busy 0x10312000 [.host (.read 1), .host (.read 3), .block, .host .reset], [1, 3], [.host .reset], rfl, by simp, rfl⟩

theorem witness_MinvLaws :
    (∃ (s : State) (ra rb rm : XIdx) (a b m : Word s.cfg), s.block.getX ra = some a ∧ s.block.getX rb = some b ∧
      s.block.getX rm = some m ∧ m ≠ 0 ∧ a.toNat % m.toNat = b.toNat % m.toNat ∧ a ≠ b) ∧
    ∃ (s : State) (rd ra rm : XIdx) (a m : Word s.cfg), s.block.getX ra = some a ∧ s.block.getX rm = some m ∧
      2 ≤ m.toNat ∧ Nat.gcd a.toNat m.toNat = 1 ∧ rd ≠ rm :=
  ⟨⟨idle [], 1, 3, 0, 7, 18, 11, by decide +kernel⟩, idle [], 4, 1, 0, 7, 11, by decide +kernel⟩

/-- Also of PmulcIsTheProductModXnMinusOne. -/
theorem witness_PmulnIsTheProductModXnPlusOne :
    ∃ (s : State) (ra rb : VIdx) (rm : XIdx) (q : Word s.cfg), s.block.getX rm = some q ∧ q ≠ 0 ∧
      (s.block.getV ra).len.val ≠ 0 ∧ (s.block.getV ra).len = (s.block.getV rb).len :=
  ⟨idle [], 1, 2, 0, 11, by decide +kernel⟩

theorem witness_MultiplyingByOneIsReduction :
    ∃ (s : State) (ra re : VIdx), (s.block.getV re).len = (s.block.getV ra).len ∧ (s.block.getV re).lane 0 = 1 ∧
      (∀ i, i < (s.block.getV re).len.val → 0 < i → (s.block.getV re).lane i = 0) ∧ (s.block.getV re).len.val = 4 :=
  ⟨idle [], 1, 3, by decide +kernel⟩

theorem witness_PsubIsPaddOfPneg :
    ∃ (s : State) (rn ra rb : VIdx) (rm : XIdx) (q : Word s.cfg), s.block.getX rm = some q ∧ q ≠ 0 ∧
      (s.block.getV ra).len.val ≠ 0 ∧ (s.block.getV ra).len = (s.block.getV rb).len ∧ rn ≠ ra :=
  ⟨idle [], 4, 1, 2, 0, 11, by decide +kernel⟩

theorem witness_MultiplyThenAddAccumulates :
    ∃ (s : State) (rt ra rb racc rm : XIdx) (a b c q : Word s.cfg), s.block.getX ra = some a ∧
      s.block.getX rb = some b ∧ s.block.getX racc = some c ∧ s.block.getX rm = some q ∧ q ≠ 0 ∧ rt ≠ racc ∧ rt ≠ rm :=
  ⟨idle [], 4, 1, 2, 3, 0, 7, 8, 18, 11, by decide +kernel⟩

theorem witness_RdeconsIsTheUniqueIntegerBelowQ :
    (sample.getV 1).len.val ≠ 0 ∧ (sample.getV 1).len = (sample.getV 0).len ∧ (sample.getV 0).len.val ≤ Ref.KMAX ∧
      (∀ i, i < (sample.getV 0).len.val → (sample.getV 0).lane i ≠ 0) ∧
      ∀ i j, i < (sample.getV 0).len.val → j < (sample.getV 0).len.val → i ≠ j →
        Nat.gcd ((sample.getV 0).lane i) ((sample.getV 0).lane j) = 1 :=
  ⟨by decide +kernel, by decide +kernel, by decide +kernel, sample_positive, sample_coprime⟩

theorem witness_RconsThenRdeconsReturnsXwModQ :
    sample.xw = some (BitVec.ofNat _ 123) ∧ (4 : VIdx) ≠ 0 ∧ (sample.getV 0).len.val ≠ 0 ∧
      (sample.getV 0).len.val ≤ Ref.KMAX ∧ (∀ i, i < (sample.getV 0).len.val → (sample.getV 0).lane i ≠ 0) ∧
      ∀ i j, i < (sample.getV 0).len.val → j < (sample.getV 0).len.val → i ≠ j →
        Nat.gcd ((sample.getV 0).lane i) ((sample.getV 0).lane j) = 1 :=
  ⟨by decide +kernel, by decide, by decide +kernel, by decide +kernel, sample_positive, sample_coprime⟩

/-- With the hypotheses on `v0` of the witness above: `v1` and `v2` hold the residues of 123 and 100. -/
theorem witness_ResidueArithmeticReconstructs :
    (4 : VIdx) ≠ 0 ∧ (sample.getV 1).len.val ≠ 0 ∧ (sample.getV 1).len = (sample.getV 0).len ∧
      (sample.getV 2).len = (sample.getV 0).len ∧ (sample.getV 0).len.val ≤ Ref.KMAX ∧
      (∀ i, i < (sample.getV 0).len.val → (sample.getV 0).lane i ≠ 0) ∧
      (∀ i j, i < (sample.getV 0).len.val → j < (sample.getV 0).len.val → i ≠ j →
        Nat.gcd ((sample.getV 0).lane i) ((sample.getV 0).lane j) = 1) ∧
      ∀ i, i < (sample.getV 0).len.val → (sample.getV 1).lane i = 123 % (sample.getV 0).lane i ∧
        (sample.getV 2).lane i = 100 % (sample.getV 0).lane i :=
  ⟨by decide, by decide +kernel, by decide +kernel, by decide +kernel, by decide +kernel, sample_positive, sample_coprime,
    by decide +kernel⟩

/-! The six clauses of CommandFaultsInTheFixedOrder, one block each. -/

theorem witness_order_empty : sample.readsEmpty (.madd 0 1 4 0) := by
  left; exact ⟨4, by decide, by decide +kernel⟩
/-- CV29: lengths 8 and 9. -/
theorem witness_order_lengths :
    let b := loaded [] [(0, [2, 3, 5, 7, 11, 13, 17, 19, 23]), (1, List.replicate 8 1)] none
    ¬b.readsEmpty (.rdecons 1 0) ∧ b.lengthsDiffer (.rdecons 1 0) := by
  refine ⟨?_, 1, by decide, 0, by decide, by decide +kernel⟩
  rintro (⟨r, hr, -⟩ | ⟨r, hr, h⟩ | ⟨h, -⟩)
  · cases hr
  · revert r; decide +kernel
  · cases h
/-- CV27: `k = 9`. -/
theorem witness_order_tooMany :
    let b := loaded [] [(0, [2, 3, 5, 7, 11, 13, 17, 19, 23]), (1, List.replicate 9 1)] none
    ¬b.readsEmpty (.rdecons 1 0) ∧ ¬b.lengthsDiffer (.rdecons 1 0) ∧ b.tooManyModuli (.rdecons 1 0) := by
  refine ⟨?_, ?_, rfl, 0, rfl, by decide +kernel⟩
  · rintro (⟨r, hr, -⟩ | ⟨r, hr, h⟩ | ⟨h, -⟩)
    · cases hr
    · revert r; decide +kernel
    · cases h
  · rintro ⟨r, hr, t, ht, h⟩; revert r t; decide +kernel
/-- CV25: a zero modulus among moduli that are not coprime. -/
theorem witness_order_zero :
    let b := loaded [] [(0, [0, 6]), (1, [1, 2])] none
    ¬b.readsEmpty (.rdecons 1 0) ∧ ¬b.lengthsDiffer (.rdecons 1 0) ∧ ¬b.tooManyModuli (.rdecons 1 0) ∧
      b.zeroModulusUsed (.rdecons 1 0) := by
  refine ⟨?_, ?_, ?_, .inr ⟨0, rfl, 0, by decide +kernel⟩⟩
  · rintro (⟨r, hr, -⟩ | ⟨r, hr, h⟩ | ⟨h, -⟩)
    · cases hr
    · revert r; decide +kernel
    · cases h
  · rintro ⟨r, hr, t, ht, h⟩; revert r t; decide +kernel
  · rintro ⟨-, r, hr, h⟩; cases hr; revert h; decide +kernel
/-- CV22: moduli 4 and 6. -/
theorem witness_order_coprime :
    let b := loaded [] [(0, [4, 6]), (1, [1, 2])] none
    ¬b.readsEmpty (.rdecons 1 0) ∧ ¬b.lengthsDiffer (.rdecons 1 0) ∧ ¬b.tooManyModuli (.rdecons 1 0) ∧
      ¬b.zeroModulusUsed (.rdecons 1 0) ∧ b.moduliShareFactor (.rdecons 1 0) := by
  refine ⟨?_, ?_, ?_, ?_, rfl, 0, rfl, 0, 1, by decide +kernel⟩
  · rintro (⟨r, hr, -⟩ | ⟨r, hr, h⟩ | ⟨h, -⟩)
    · cases hr
    · revert r; decide +kernel
    · cases h
  · rintro ⟨r, hr, t, ht, h⟩; revert r t; decide +kernel
  · rintro ⟨-, r, hr, h⟩; cases hr; revert h; decide +kernel
  · rintro (⟨r, hr, -⟩ | ⟨r, hr, k, hk, h⟩)
    · cases hr
    · cases hr; revert k; decide +kernel
/-- No check applies: CV8, and a form without moduli. -/
theorem witness_order_completes :
    ¬sample.readsEmpty (.rdecons 1 0) ∧ ¬sample.lengthsDiffer (.rdecons 1 0) ∧ ¬sample.tooManyModuli (.rdecons 1 0) ∧
      ¬sample.zeroModulusUsed (.rdecons 1 0) ∧ ¬sample.moduliShareFactor (.rdecons 1 0) := by
  refine ⟨?_, ?_, ?_, ?_, ?_⟩
  · rintro (⟨r, hr, -⟩ | ⟨r, hr, h⟩ | ⟨h, -⟩)
    · cases hr
    · revert r; decide +kernel
    · cases h
  · rintro ⟨r, hr, t, ht, h⟩; revert r t; decide +kernel
  · rintro ⟨-, r, hr, h⟩; cases hr; revert h; decide +kernel
  · rintro (⟨r, hr, -⟩ | ⟨r, hr, k, hk, h⟩)
    · cases hr
    · cases hr; exact sample_positive k hk h
  · rintro ⟨-, r, hr, j, k, hj, hk, hne, h⟩; cases hr; exact h (sample_coprime j k hj hk hne)

theorem witness_CommandFaultsArePrecise :
    ∃ (i : Instr) (s : State) (B : Block s.cfg), exec i s = .next (s.withBlock B) ∧ B.mode = .fault :=
  ⟨.madd 0 1 4 0, idle [], sample.raise .emptyOperand sample.pend, rfl, rfl⟩

/-- A scalar, a vector and a wide result: the four clauses of ResultsAreCanonical. -/
theorem witness_ResultsAreCanonical :
    (∃ (s : State) (B : Block s.cfg) (q w : Word s.cfg), exec (.madd 4 1 2 0) s = .next (s.withBlock B) ∧
      B.mode = .idle ∧ s.block.getX 0 = some q ∧ B.getX 4 = some w) ∧
    (∃ (s : State) (B : Block s.cfg) (q : Word s.cfg), exec (.pneg 4 1 0) s = .next (s.withBlock B) ∧
      B.mode = .idle ∧ s.block.getX 0 = some q ∧ 3 < (B.getV 4).len.val) ∧
    (∃ (s : State) (B : Block s.cfg), exec (.radd 4 1 2 0) s = .next (s.withBlock B) ∧ B.mode = .idle ∧
      3 < (B.getV 4).len.val) ∧
    ∃ (s : State) (B : Block s.cfg) (w : BitVec (s.cfg.KMAX * s.cfg.W)),
      exec (.rdecons 1 0) s = .next (s.withBlock B) ∧ B.mode = .idle ∧ B.xw = some w :=
  ⟨⟨idle [], _, 11, 4, rfl, by decide +kernel⟩, ⟨idle [], _, 11, rfl, by decide +kernel⟩,
    ⟨idle [], _, rfl, by decide +kernel⟩, idle [], _, BitVec.ofNat _ 123, rfl, by decide +kernel⟩

/-- Two blocks that differ in lane 9 of `v1`, which holds four residues. -/
theorem witness_DeadLanesDoNotInfluenceCommands :
    let c := sample.setV 1 ((sample.getV 1).setLane ⟨9, by decide⟩ 5)
    sample.LiveEq c ∧ (c.getV 1).lane 9 = 5 ∧ (sample.getV 1).len.val = 4 := by
  refine ⟨⟨(Block.setV_x ..).symm, by decide +kernel, ?_, (Block.setV_xw ..).symm, (Block.setV_mode ..).symm,
    (Block.setV_noinv ..).symm, (Block.setV_err ..).symm, (Block.setV_errinfo ..).symm, (Block.setV_pend ..).symm⟩,
    by decide +kernel⟩
  intro r i hi
  rw [Block.getV_setV]
  split
  · subst_vars
    have h4 : i < 4 := hi.trans_eq (by decide +kernel)
    rw [VReg.lane_setLane, if_neg (show i ≠ 9 by omega)]
  · rfl

/-- MINV without an inverse changes NOINV and ends in IDLE; so does a reset of a block that has it set. A faulting MINV
and a host access while a MINV is pending leave it set. -/
theorem witness_OnlyMinvAndResetChangeNoinv :
    let noinv (s : State) : Bool × Mode := ((after s).block.noinv, (after s).block.mode)
    let set (b : Block Ref) : Block Ref := pending (b.setNoinv true) 0x20210000
    noinv (machine (pending (loaded [(0, 9), (1, 6)] [] none) 0x20210000) []) = (true, .idle) ∧
      noinv (machine (sample.setNoinv true) [.host .reset]) = (false, .idle) ∧
      noinv (machine (set (loaded [(0, 0), (1, 6)] [] none)) [.block]) = (true, .fault) ∧
      noinv (machine (set sample) [.host (.write 0x0010 1)]) = (true, .fault) := by decide +kernel

/-- A state with a recorded command fault, beside the reset state. -/
theorem witness_StepKeepsFaultRegistersConsistent : (faulted [.host .reset]).Inv := by
  constructor <;> simp [Block.raise, FaultName.code, commandCodes, accessCodes]

theorem witness_OnlyResetLeavesFault :
    (faulted [.host (.write 0x0010 1)]).block.mode = .fault ∧ (faulted [.host .reset]).block.mode = .fault := ⟨rfl, rfl⟩

theorem witness_ResetEmptiesTheBlock : (faulted [.host .reset]).host.turns = .host .reset :: [] := rfl

theorem witness_AddressMapIsExact : portReg Ref 0x0047 ≠ .unmapped ∧ portReg Ref 0x800F ≠ .unmapped := by decide +kernel

/-- A word that fits, and one with bit 32 set. -/
theorem witness_IssueLatchesTheCommandWord :
    (idle [.host (.write 0x0000 0xFFFFFFFF)]).block.mode = .idle ∧
      (idle [.host (.write 0x0000 0x100000000)]).block.mode = .idle := by decide +kernel

theorem witness_HostWritesScalarRegister :
    (idle [.host (.write 0x0017 5)]).block.mode = .idle ∧ BitVec.ofNat 16 (0x0010 + (7 : XIdx).val) = 0x0017 := by
  decide +kernel

/-- A valid and an EMPTY scalar register, the first and the last limb, a live lane and one at the length. -/
theorem witness_HostReadsRegisterOrRaisesEmptyRead :
    (idle []).block.mode = .idle ∧ sample.getX 0 = some 11 ∧ sample.getX 7 = none ∧ sample.xw.isSome = true ∧
      (loaded [] [] none).xw = none ∧ 3 < (sample.getV 0).len.val ∧ ¬4 < (sample.getV 0).len.val := by decide +kernel

theorem witness_HostWritesLimb :
    (idle [.host (.write (BitVec.ofNat 16 (0x0040 + (⟨7, by decide⟩ : Fin Ref.KMAX).val)) 5)]).block.mode = .idle ∧
      (machine (loaded [] [] none) [.host (.write (BitVec.ofNat 16 (0x0040 + (⟨0, by decide⟩ : Fin Ref.KMAX).val)) 5)]).block.mode = .idle := by
  decide +kernel

theorem witness_HostWritesLane :
    (idle [.host (.write (BitVec.ofNat 16 (0x1000 * ((7 : VIdx).val + 1) + (⟨15, by decide⟩ : Fin Ref.NMAX).val)) 5)]).block.mode = .idle := by
  decide +kernel

/-- The largest legal length and the first illegal one. -/
theorem witness_HostAccessesVectorLength :
    (idle [.host (.write 0x0020 16)]).block.mode = .idle ∧ (idle [.host (.write 0x0027 17)]).block.mode = .idle ∧
      (16 : Word Ref).toNat ≤ Ref.NMAX ∧ ¬(17 : Word Ref).toNat ≤ Ref.NMAX := by decide +kernel

/-- The unmapped addresses next to mapped ones (HV6 to HV10). -/
theorem witness_BadAddressesFault :
    (idle [.host (.read 0x0005)]).block.mode = .idle ∧
      List.map (portReg Ref) [0x0005, 0x0018, 0x0048, 0x1010, 0x9000] = List.replicate 5 .unmapped := by decide +kernel

theorem witness_AccessWhileBusyFaults :
    (busy 0x10312000 [.host (.read 0x0010)]).block.mode = .busy ∧
      (busy 0x10312000 [.host (.write 0x0001 0)]).block.mode = .busy := ⟨rfl, rfl⟩

theorem witness_AccessInFaultChangesNothing :
    (faulted [.host (.read 0x0000)]).block.mode = .fault ∧ (faulted [.host (.write 0x0000 0)]).block.mode = .fault :=
  ⟨rfl, rfl⟩

/-- STATUS in each mode: 0 idle, 1 busy, 2 fault. -/
theorem witness_DiagnosticRegistersReadInEveryMode :
    answers (after (idle [.host (.read 0x0001)])) = [0] ∧ answers (after (busy 0 [.host (.read 0x0001)])) = [1] ∧
      answers (after (faulted [.host (.read 0x0001)])) = [2] ∧ answers (after (faulted [.host (.read 0x0002)])) = [3] := by
  decide +kernel

theorem witness_SvalidShowsTheTags :
    (idle [.host (.read 0x0004)]).block.mode = .idle ∧ answers (after (idle [.host (.read 0x0004)])) = [0x0F010F] := by
  decide +kernel

end Sys2Proof.Tests
end

section
/-! PROOFS. The frame of a command (00_scope R16): what a completion that raises nothing leaves unchanged, said once per
shared operation and then once for all sixteen commands, and the obligation that follows from it. -/

namespace Sys2Proof.Machine

variable {p : Params}

/-! ### The frame of each result -/

/-- Equal scalar files answer equal reads. -/
theorem Block.getX_of_x_eq {b b' : Block p} (h : b'.x = b.x) (k : XIdx) : b'.getX k = b.getX k := by
  simp only [Block.getX, h]

/-- Equal vector files answer equal reads. -/
theorem Block.getV_of_v_eq {b b' : Block p} (h : b'.v = b.v) (r : VIdx) : b'.getV r = b.getV r := by
  simp only [Block.getV, h]

theorem Block.onlyScalar_setX (b : Block p) (rd : XIdx) (o : Option (Word p)) : b.OnlyScalar (b.setX rd o) rd where
  x k hk := by simp [hk]
  v := rfl
  xw := rfl
  err := rfl
  errinfo := rfl
  pend := rfl

/-- Writing the flag leaves all that `OnlyScalar` speaks of. -/
theorem Block.OnlyScalar.setNoinv {b b' : Block p} {rd : XIdx} (h : b.OnlyScalar b' rd) (f : Bool) :
    b.OnlyScalar (b'.setNoinv f) rd where
  x k hk := h.x k hk
  v := h.v
  xw := h.xw
  err := h.err
  errinfo := h.errinfo
  pend := h.pend

theorem Block.onlyScalar_resultX (b : Block p) (rd : XIdx) (n : Nat) : b.OnlyScalar (b.resultX rd n) rd :=
  b.onlyScalar_setX rd _

/-- Both results of MINV, the inverse and EMPTY, stay within `x[rd]` and NOINV. -/
theorem Block.onlyScalar_inverseResult (b : Block p) (rd : XIdx) (o : Option Nat) :
    b.OnlyScalar (b.inverseResult rd o) rd := by
  cases o with
  | none => exact (b.onlyScalar_setX rd none).setNoinv true
  | some y => exact (b.onlyScalar_resultX rd y).setNoinv false

theorem Block.onlyVector_resultV (b : Block p) (rd : VIdx) (n : Fin (p.NMAX + 1)) (f : Nat → Nat) :
    b.OnlyVector (b.resultV rd n f) rd where
  x := rfl
  v k hk := by simp [hk]
  xw := rfl
  noinv := rfl
  err := rfl
  errinfo := rfl
  pend := rfl

theorem Block.onlyWide_resultXW (b : Block p) (n : Nat) : b.OnlyWide (b.resultXW n) := by
  constructor <;> rfl

/-! ### The frame of every command -/

/-- Block `b'` differs from `b` in the mode and in what command `i` may write: its one destination and, for MINV,
NOINV. One constructor per register file. -/
inductive Block.WrittenBy (b : Block p) (i : Instr) (b' : Block p) : Prop
  | scalar {d : XIdx} (dest : i.destX = some d) (only : b.OnlyScalar b' d)
      (noinv : i.op ≠ .MINV → b'.noinv = b.noinv)
  | vector {d : VIdx} (dest : i.destV = some d) (only : b.OnlyVector b' d)
  | wide (dest : i.writesXW = true) (only : b.OnlyWide b')

/-- A scalar result other than MINV's keeps NOINV too. -/
theorem Block.writtenBy_resultX {i : Instr} {d : XIdx} (dest : i.destX = some d) (b : Block p) (n : Nat) :
    b.WrittenBy i (b.resultX d n) :=
  .scalar dest (b.onlyScalar_resultX d n) fun _ => rfl

theorem Block.writtenBy_resultV {i : Instr} {d : VIdx} (dest : i.destV = some d) (b : Block p)
    (n : Fin (p.NMAX + 1)) (f : Nat → Nat) : b.WrittenBy i (b.resultV d n f) :=
  .vector dest (b.onlyVector_resultV d n f)

/-- Every command is a completion whose checks, when they raise nothing, are followed by writes to its destination
only. -/
theorem exec_eq_complete_writtenBy (i : Instr) (s : State) :
    ∃ r, exec i s = s.complete r ∧ ∀ b', r = .ok b' → s.block.WrittenBy i b' := by
  cases i with
  | madd | msub | mmul =>
    refine ⟨_, rfl, fun b' h => ?_⟩
    obtain ⟨_, _, _, -, -, -, -, rfl⟩ := Block.scalarOp_ok h
    exact Block.writtenBy_resultX rfl _ _
  | minv rd =>
    refine ⟨_, rfl, fun b' h => ?_⟩
    obtain ⟨_, _, -, -, -, rfl⟩ := Block.inverseOp_ok h
    exact .scalar rfl (s.block.onlyScalar_inverseResult rd _) fun hop => absurd rfl hop
  | padd | psub | pmulc | pmuln =>
    refine ⟨_, rfl, fun b' h => ?_⟩
    obtain ⟨_, -, -, -, -, -, rfl⟩ := Block.polyBinary_ok h
    exact Block.writtenBy_resultV rfl _ _ _
  | pneg | pred =>
    refine ⟨_, rfl, fun b' h => ?_⟩
    obtain ⟨_, -, -, -, rfl⟩ := Block.polyUnary_ok h
    exact Block.writtenBy_resultV rfl _ _ _
  | pnorm =>
    refine ⟨_, rfl, fun b' h => ?_⟩
    obtain ⟨-, rfl⟩ := Block.normOp_ok h
    exact Block.writtenBy_resultX rfl _ _
  | rcons =>
    refine ⟨_, rfl, fun b' h => ?_⟩
    obtain ⟨_, -, -, -, rfl⟩ := Block.constructOp_ok h
    exact Block.writtenBy_resultV rfl _ _ _
  | radd | rsub | rmul =>
    refine ⟨_, rfl, fun b' h => ?_⟩
    obtain ⟨-, -, -, -, rfl⟩ := Block.rnsBinary_ok h
    exact Block.writtenBy_resultV rfl _ _ _
  | rdecons =>
    refine ⟨_, rfl, fun b' h => ?_⟩
    obtain ⟨-, -, -, -, -, rfl⟩ := Block.deconstructOp_ok h
    exact .wide rfl (s.block.onlyWide_resultXW _)

/-! ### What a command's writes leave unchanged -/

section
variable {b b' : Block p} {i : Instr}

theorem Block.WrittenBy.getX_eq (h : b.WrittenBy i b') {k : XIdx} (hk : i.destX ≠ some k) : b'.getX k = b.getX k := by
  cases h with
  | scalar dest only _ => exact only.x k fun e => hk (e ▸ dest)
  | vector _ only => exact Block.getX_of_x_eq only.x k
  | wide _ only => exact Block.getX_of_x_eq only.x k

theorem Block.WrittenBy.getV_eq (h : b.WrittenBy i b') {r : VIdx} (hr : i.destV ≠ some r) : b'.getV r = b.getV r := by
  cases h with
  | scalar _ only _ => exact Block.getV_of_v_eq only.v r
  | vector dest only => exact only.v r fun e => hr (e ▸ dest)
  | wide _ only => exact Block.getV_of_v_eq only.v r

theorem Block.WrittenBy.xw_eq (h : b.WrittenBy i b') (hi : i.writesXW = false) : b'.xw = b.xw := by
  cases h with
  | scalar _ only _ => exact only.xw
  | vector _ only => exact only.xw
  | wide dest _ => simp [hi] at dest

theorem Block.WrittenBy.noinv_eq (h : b.WrittenBy i b') (hi : i.op ≠ .MINV) : b'.noinv = b.noinv := by
  cases h with
  | scalar _ _ noinv => exact noinv hi
  | vector _ only => exact only.noinv
  | wide _ only => exact only.noinv

theorem Block.WrittenBy.pend_eq (h : b.WrittenBy i b') : b'.pend = b.pend := by
  cases h with
  | scalar _ only _ => exact only.pend
  | vector _ only => exact only.pend
  | wide _ only => exact only.pend

theorem Block.WrittenBy.err_eq (h : b.WrittenBy i b') : b'.err = b.err := by
  cases h with
  | scalar _ only _ => exact only.err
  | vector _ only => exact only.err
  | wide _ only => exact only.err

theorem Block.WrittenBy.errinfo_eq (h : b.WrittenBy i b') : b'.errinfo = b.errinfo := by
  cases h with
  | scalar _ only _ => exact only.errinfo
  | vector _ only => exact only.errinfo
  | wide _ only => exact only.errinfo

end

/-- Settles O37: a fault entry keeps every register, the flag and PEND; a completion that raises nothing is
`Block.WrittenBy` its command, and then only the mode is set. -/
theorem commandWritesOnlyItsDestination : Obligations.CommandWritesOnlyItsDestination := by
  intro i s
  obtain ⟨r, hexec, hwritten⟩ := exec_eq_complete_writtenBy i s
  refine ⟨s.block.finish r, hexec, ?_⟩
  cases r with
  | error f => exact ⟨fun _ _ => rfl, fun _ _ => rfl, fun _ => rfl, fun _ => rfl, rfl, .inr rfl⟩
  | ok b' =>
    have h := hwritten b' rfl
    exact ⟨fun _ hk => h.getX_eq hk, fun _ hr => h.getV_eq hr, h.xw_eq, h.noinv_eq, h.pend_eq,
      .inl ⟨rfl, h.err_eq, h.errinfo_eq⟩⟩

end Sys2Proof.Machine
end

section
/-! PROOFS. Lanes at and above a register's length never influence a command (10_state R24, R25): `Block.LiveEq` is
carried through the operand reads, the checks, the arithmetic and the writes, each once, and then through the sixteen
commands. -/

namespace Sys2Proof.Machine

variable {p : Params}

/-! ### Sequences of checks run on two blocks -/

/-- Two sequences of checks raise the same fault, or both end well with values related by `R`. -/
inductive SameOutcome {α β : Type} (R : α → β → Prop) : Except FaultName α → Except FaultName β → Prop
  | error (f : FaultName) : SameOutcome R (.error f) (.error f)
  | ok {a : α} {b : β} (h : R a b) : SameOutcome R (.ok a) (.ok b)

section
variable {α β γ δ : Type} {R : α → β → Prop} {T : γ → δ → Prop}

theorem SameOutcome.bind {m : Except FaultName α} {n : Except FaultName β} {k : α → Except FaultName γ}
    {l : β → Except FaultName δ} (h : SameOutcome R m n) (hk : ∀ a b, R a b → SameOutcome T (k a) (l b)) :
    SameOutcome T (m >>= k) (n >>= l) := by
  cases h with
  | error f => exact .error f
  | ok hab => exact hk _ _ hab

/-- The form of `SameOutcome.bind` for a first part that is the same on both sides; what follows may use that it ended
well. -/
theorem SameOutcome.bind_of_eq {m n : Except FaultName α} {k : α → Except FaultName γ} {l : α → Except FaultName δ}
    (h : m = n) (hk : ∀ a, m = .ok a → SameOutcome T (k a) (l a)) : SameOutcome T (m >>= k) (n >>= l) := by
  subst h
  cases m with
  | error f => exact .error f
  | ok a => exact hk a rfl

end

/-! ### The operand reads and the checks -/

/-- Two vector registers of one length that hold the same live lanes. -/
structure VReg.LiveEq (r t : VReg p) : Prop where
  len : r.len = t.len
  lane : ∀ i, i < r.len.val → r.lane i = t.lane i

/-- A condition on all live lanes is the same of both registers. -/
theorem VReg.LiveEq.forall_lane_iff {r t : VReg p} (h : r.LiveEq t) (P : Nat → Prop) :
    (∀ i, i < r.len.val → P (r.lane i)) ↔ ∀ i, i < t.len.val → P (t.lane i) := by
  rw [← h.len]
  exact forall₂_congr fun i hi => by rw [h.lane i hi]

theorem VReg.LiveEq.sameLength_eq {r r' t t' : VReg p} (hr : r.LiveEq r') (ht : t.LiveEq t') :
    sameLength r t = sameLength r' t' := by
  simp only [sameLength, hr.len, ht.len]

theorem VReg.LiveEq.lengthInRange_eq {m m' : VReg p} (h : m.LiveEq m') : lengthInRange m = lengthInRange m' := by
  simp only [lengthInRange, h.len]

theorem VReg.LiveEq.positiveModuli_eq {m m' : VReg p} (h : m.LiveEq m') : positiveModuli m = positiveModuli m' := by
  simp only [positiveModuli, h.forall_lane_iff (· ≠ 0)]

section
variable {b c : Block p}

theorem Block.LiveEq.getV (h : b.LiveEq c) (r : VIdx) : (b.getV r).LiveEq (c.getV r) := ⟨h.len r, h.lane r⟩

theorem Block.LiveEq.srcX_eq (h : b.LiveEq c) (i : XIdx) : b.srcX i = c.srcX i := by
  simp only [Block.srcX, Block.getX, h.x]

theorem Block.LiveEq.srcXW_eq (h : b.LiveEq c) : b.srcXW = c.srcXW := by
  simp only [Block.srcXW, h.xw]

theorem Block.LiveEq.srcV (h : b.LiveEq c) (r : VIdx) : SameOutcome VReg.LiveEq (b.srcV r) (c.srcV r) := by
  unfold Block.srcV
  rw [← h.len r]
  split
  · exact .error _
  · exact .ok (h.getV r)

end

/-! ### The arithmetic reads only the live lanes -/

/-- Coefficient `k < n` of a binary vector function depends on the first `n` lanes of its operands only. -/
def Arith.ReadsLiveLanes (f : (Nat → Nat) → (Nat → Nat) → Nat → Nat → Nat → Nat) : Prop :=
  ∀ (a a' c c' : Nat → Nat) (n q k : Nat), (∀ i, i < n → a i = a' i) → (∀ i, i < n → c i = c' i) → k < n →
    f a c n q k = f a' c' n q k

/-- A function that is computed lane by lane reads only the live lanes. -/
theorem Arith.readsLiveLanes_lanewise (g : Nat → Nat → Nat → Nat) :
    Arith.ReadsLiveLanes fun a c _ q k => g (a k) (c k) q :=
  fun a a' c c' _ q k ha hc hk => show g (a k) (c k) q = g (a' k) (c' k) q by rw [ha k hk, hc k hk]

theorem Arith.readsLiveLanes_polyAdd : Arith.ReadsLiveLanes Arith.polyAdd := Arith.readsLiveLanes_lanewise Arith.addMod

theorem Arith.readsLiveLanes_polySub : Arith.ReadsLiveLanes Arith.polySub := Arith.readsLiveLanes_lanewise Arith.subMod

/-- A sum of lane products over selected pairs of live lanes. -/
theorem Arith.sum_pairs_congr {a a' c c' : Nat → Nat} {n : Nat} (ha : ∀ i, i < n → a i = a' i)
    (hc : ∀ i, i < n → c i = c' i) (sel : Nat → Nat → Prop) [∀ i j, Decidable (sel i j)] :
    (∑ i ∈ Finset.range n, ∑ j ∈ Finset.range n, if sel i j then a i * c j else 0) =
      ∑ i ∈ Finset.range n, ∑ j ∈ Finset.range n, if sel i j then a' i * c' j else 0 :=
  Finset.sum_congr rfl fun i hi => Finset.sum_congr rfl fun j hj => by
    rw [ha i (Finset.mem_range.mp hi), hc j (Finset.mem_range.mp hj)]

theorem Arith.readsLiveLanes_polyCyclic : Arith.ReadsLiveLanes Arith.polyCyclic := by
  intro a a' c c' n q k ha hc _
  simp only [Arith.polyCyclic, Arith.sum_pairs_congr ha hc]

theorem Arith.readsLiveLanes_polyNegacyclic : Arith.ReadsLiveLanes Arith.polyNegacyclic := by
  intro a a' c c' n q k ha hc _
  simp only [Arith.polyNegacyclic, Arith.convolution, Arith.sum_pairs_congr ha hc]

section
variable {m m' : Nat → Nat} {k : Nat} (hm : ∀ i, i < k → m i = m' i)
include hm

theorem Arith.polyNorm_congr : Arith.polyNorm m k = Arith.polyNorm m' k :=
  Finset.sup_congr rfl fun i hi => hm i (Finset.mem_range.mp hi)

theorem Arith.crtQ_congr : Arith.crtQ m k = Arith.crtQ m' k :=
  Finset.prod_congr rfl fun i hi => hm i (Finset.mem_range.mp hi)

theorem Arith.crtQi_congr {i : Nat} (hi : i < k) : Arith.crtQi m k i = Arith.crtQi m' k i := by
  simp only [Arith.crtQi, Arith.crtQ_congr hm, hm i hi]

theorem Arith.crtInvertible_congr : Arith.crtInvertible m k ↔ Arith.crtInvertible m' k :=
  forall₂_congr fun i hi => by rw [Arith.crtQi_congr hm hi, hm i hi]

theorem Arith.crtValue_congr {r r' : Nat → Nat} (hr : ∀ i, i < k → r i = r' i) :
    Arith.crtValue r m k = Arith.crtValue r' m' k := by
  unfold Arith.crtValue
  rw [Arith.crtQ_congr hm]
  refine congrArg (· % _) (Finset.sum_congr rfl fun i hi => ?_)
  have hi := Finset.mem_range.mp hi
  rw [hr i hi, hm i hi, Arith.crtQi_congr hm hi]

end

theorem VReg.LiveEq.coprimeModuli_eq {m m' : VReg p} (h : m.LiveEq m') : coprimeModuli m = coprimeModuli m' := by
  simp only [coprimeModuli, ← h.len, Arith.crtInvertible_congr h.lane]

/-! ### The writes -/

section
variable {b c : Block p} (h : b.LiveEq c)
include h

theorem Block.LiveEq.setX (i : XIdx) (o : Option (Word p)) : (b.setX i o).LiveEq (c.setX i o) :=
  { h with x := by simp only [Block.setX_x, h.x] }

theorem Block.LiveEq.setXW (o : Option (BitVec (p.KMAX * p.W))) : (b.setXW o).LiveEq (c.setXW o) :=
  { h with xw := rfl }

theorem Block.LiveEq.setMode (m : Mode) : (b.setMode m).LiveEq (c.setMode m) := { h with mode := rfl }

theorem Block.LiveEq.setNoinv (f : Bool) : (b.setNoinv f).LiveEq (c.setNoinv f) := { h with noinv := rfl }

theorem Block.LiveEq.raise (f : FaultName) (info : BitVec 32) : (b.raise f info).LiveEq (c.raise f info) :=
  { h with err := rfl, errinfo := rfl, mode := rfl }

theorem Block.LiveEq.setV (r : VIdx) {t t' : VReg p} (ht : t.LiveEq t') : (b.setV r t).LiveEq (c.setV r t') := by
  have hreg : ∀ k, ((b.setV r t).getV k).LiveEq ((c.setV r t').getV k) := fun k => by
    simp only [Block.getV_setV]
    split
    · exact ht
    · exact h.getV k
  exact { h with len := fun k => (hreg k).len, lane := fun k => (hreg k).lane }

theorem Block.LiveEq.resultX (rd : XIdx) (n : Nat) : (b.resultX rd n).LiveEq (c.resultX rd n) := h.setX rd _

theorem Block.LiveEq.resultXW (n : Nat) : (b.resultXW n).LiveEq (c.resultXW n) := h.setXW _

theorem Block.LiveEq.inverseResult (rd : XIdx) (o : Option Nat) :
    (b.inverseResult rd o).LiveEq (c.inverseResult rd o) := by
  cases o with
  | none => exact (h.setX rd none).setNoinv true
  | some y => exact (h.resultX rd y).setNoinv false

end

/-- A vector result is live-equal over any two old registers, since it overwrites every lane below its length. -/
theorem VReg.liveEq_write (r t : VReg p) (n : Fin (p.NMAX + 1)) {f g : Nat → Nat} (hfg : ∀ i, i < n.val → f i = g i) :
    (r.write n f).LiveEq (t.write n g) where
  len := rfl
  lane i hi := by
    have hn : i < n.val := hi
    have hmax : i < p.NMAX := by omega
    rw [VReg.lane_write r n f i hmax, VReg.lane_write t n g i hmax, if_pos hn, if_pos hn, hfg i hn]

theorem Block.LiveEq.resultV {b c : Block p} (h : b.LiveEq c) (rd : VIdx) {n n' : Fin (p.NMAX + 1)} (hn : n = n')
    {f g : Nat → Nat} (hfg : ∀ i, i < n.val → f i = g i) : (b.resultV rd n f).LiveEq (c.resultV rd n' g) := by
  subst hn
  exact h.setV rd (VReg.liveEq_write _ _ n hfg)

theorem Block.LiveEq.finish {b c : Block p} (h : b.LiveEq c) {r r' : Except FaultName (Block p)}
    (hr : SameOutcome Block.LiveEq r r') : (b.finish r).LiveEq (c.finish r') := by
  cases hr with
  | error f =>
    rw [Block.finish_error, Block.finish_error, ← h.pend]
    exact h.raise f b.pend
  | ok h' => exact h'.setMode .idle

/-! ### The command shapes -/

section
variable {b c : Block p} (h : b.LiveEq c)
include h

theorem Block.LiveEq.scalarOp (f : Nat → Nat → Nat → Nat) (rd ra rb rm : XIdx) :
    SameOutcome Block.LiveEq (b.scalarOp f rd ra rb rm) (c.scalarOp f rd ra rb rm) :=
  .bind_of_eq (h.srcX_eq ra) fun _ _ => .bind_of_eq (h.srcX_eq rb) fun _ _ => .bind_of_eq (h.srcX_eq rm) fun _ _ =>
    .bind_of_eq rfl fun _ _ => .ok (h.resultX rd _)

theorem Block.LiveEq.inverseOp (rd ra rm : XIdx) :
    SameOutcome Block.LiveEq (b.inverseOp rd ra rm) (c.inverseOp rd ra rm) :=
  .bind_of_eq (h.srcX_eq ra) fun _ _ => .bind_of_eq (h.srcX_eq rm) fun _ _ =>
    .bind_of_eq rfl fun _ _ => .ok (h.inverseResult rd _)

/-- The check that the lengths are equal makes every lane below the first length live in both operands. -/
theorem Block.LiveEq.polyBinary {f : (Nat → Nat) → (Nat → Nat) → Nat → Nat → Nat → Nat} (hf : Arith.ReadsLiveLanes f)
    (rd ra rb : VIdx) (rm : XIdx) :
    SameOutcome Block.LiveEq (b.polyBinary f rd ra rb rm) (c.polyBinary f rd ra rb rm) := by
  refine .bind (h.srcV ra) fun a a' ha => .bind (h.srcV rb) fun d d' hd => .bind_of_eq (h.srcX_eq rm) fun q _ =>
    .bind_of_eq (ha.sameLength_eq hd) fun _ hlen => .bind_of_eq rfl fun _ _ => .ok (h.resultV rd ha.len fun k hk => ?_)
  have hlen : a.len = d.len := (require_eq_ok ..).mp hlen
  rw [← ha.len]
  exact hf _ _ _ _ _ _ _ ha.lane (hlen ▸ hd.lane) hk

theorem Block.LiveEq.polyUnary (g : Nat → Nat → Nat) (rd ra : VIdx) (rm : XIdx) :
    SameOutcome Block.LiveEq (b.polyUnary (fun a q k => g (a k) q) rd ra rm)
      (c.polyUnary (fun a q k => g (a k) q) rd ra rm) :=
  .bind (h.srcV ra) fun _ _ ha => .bind_of_eq (h.srcX_eq rm) fun q _ => .bind_of_eq rfl fun _ _ =>
    .ok (h.resultV rd ha.len fun k hk => congrArg (g · q) (ha.lane k hk))

theorem Block.LiveEq.normOp (rd : XIdx) (ra : VIdx) :
    SameOutcome Block.LiveEq (b.normOp rd ra) (c.normOp rd ra) := by
  refine .bind (h.srcV ra) fun a a' ha => .ok ?_
  rw [← ha.len, Arith.polyNorm_congr ha.lane]
  exact h.resultX rd _

theorem Block.LiveEq.rnsBinary (f : Nat → Nat → Nat → Nat) (rd ra rb rm : VIdx) :
    SameOutcome Block.LiveEq (b.rnsBinary f rd ra rb rm) (c.rnsBinary f rd ra rb rm) := by
  refine .bind (h.srcV ra) fun a a' ha => .bind (h.srcV rb) fun d d' hd => .bind (h.srcV rm) fun m m' hm =>
    .bind_of_eq (ha.sameLength_eq hm) fun _ ham => .bind_of_eq (hd.sameLength_eq hm) fun _ hdm =>
    .bind_of_eq hm.positiveModuli_eq fun _ _ => .ok (h.resultV rd hm.len fun i hi => ?_)
  have ham : a.len = m.len := (require_eq_ok ..).mp ham
  have hdm : d.len = m.len := (require_eq_ok ..).mp hdm
  rw [ha.lane i (ham ▸ hi), hd.lane i (hdm ▸ hi), hm.lane i hi]

theorem Block.LiveEq.constructOp (rd rm : VIdx) :
    SameOutcome Block.LiveEq (b.constructOp rd rm) (c.constructOp rd rm) :=
  .bind (h.srcV rm) fun _ _ hm => .bind_of_eq h.srcXW_eq fun x _ => .bind_of_eq hm.positiveModuli_eq fun _ _ =>
    .ok (h.resultV rd hm.len fun i hi => congrArg (x % ·) (hm.lane i hi))

theorem Block.LiveEq.deconstructOp (ra rm : VIdx) :
    SameOutcome Block.LiveEq (b.deconstructOp ra rm) (c.deconstructOp ra rm) := by
  refine .bind (h.srcV ra) fun a a' ha => .bind (h.srcV rm) fun m m' hm =>
    .bind_of_eq (ha.sameLength_eq hm) fun _ ham => .bind_of_eq hm.lengthInRange_eq fun _ _ =>
    .bind_of_eq hm.positiveModuli_eq fun _ _ => .bind_of_eq hm.coprimeModuli_eq fun _ _ => .ok ?_
  have ham : a.len = m.len := (require_eq_ok ..).mp ham
  rw [← hm.len, Arith.crtValue_congr hm.lane (ham ▸ ha.lane)]
  exact h.resultXW _

end

/-! ### Every command -/

/-- Every command is a completion whose outcome is the same from both blocks. -/
theorem exec_eq_complete_sameOutcome (i : Instr) (s : State) {c : Block s.cfg} (h : s.block.LiveEq c) :
    ∃ r r', exec i s = s.complete r ∧ exec i (s.withBlock c) = (s.withBlock c).complete r' ∧
      SameOutcome Block.LiveEq r r' := by
  cases i with
  | madd rd ra rb rm => exact ⟨_, _, rfl, rfl, h.scalarOp Arith.addMod rd ra rb rm⟩
  | msub rd ra rb rm => exact ⟨_, _, rfl, rfl, h.scalarOp Arith.subMod rd ra rb rm⟩
  | mmul rd ra rb rm => exact ⟨_, _, rfl, rfl, h.scalarOp Arith.mulMod rd ra rb rm⟩
  | minv rd ra rm => exact ⟨_, _, rfl, rfl, h.inverseOp rd ra rm⟩
  | padd rd ra rb rm => exact ⟨_, _, rfl, rfl, h.polyBinary Arith.readsLiveLanes_polyAdd rd ra rb rm⟩
  | psub rd ra rb rm => exact ⟨_, _, rfl, rfl, h.polyBinary Arith.readsLiveLanes_polySub rd ra rb rm⟩
  | pneg rd ra rm => exact ⟨_, _, rfl, rfl, h.polyUnary (Arith.subMod 0) rd ra rm⟩
  | pmulc rd ra rb rm => exact ⟨_, _, rfl, rfl, h.polyBinary Arith.readsLiveLanes_polyCyclic rd ra rb rm⟩
  | pmuln rd ra rb rm => exact ⟨_, _, rfl, rfl, h.polyBinary Arith.readsLiveLanes_polyNegacyclic rd ra rb rm⟩
  | pred rd ra rm => exact ⟨_, _, rfl, rfl, h.polyUnary (· % ·) rd ra rm⟩
  | pnorm rd ra => exact ⟨_, _, rfl, rfl, h.normOp rd ra⟩
  | rcons rd rm => exact ⟨_, _, rfl, rfl, h.constructOp rd rm⟩
  | radd rd ra rb rm => exact ⟨_, _, rfl, rfl, h.rnsBinary Arith.addMod rd ra rb rm⟩
  | rsub rd ra rb rm => exact ⟨_, _, rfl, rfl, h.rnsBinary Arith.subMod rd ra rb rm⟩
  | rmul rd ra rb rm => exact ⟨_, _, rfl, rfl, h.rnsBinary Arith.mulMod rd ra rb rm⟩
  | rdecons ra rm => exact ⟨_, _, rfl, rfl, h.deconstructOp ra rm⟩

/-- Settles O40: the outcomes of the command from the two blocks are related by `Block.LiveEq`, and the end of a
completion keeps the relation. -/
theorem deadLanesDoNotInfluenceCommands : Obligations.DeadLanesDoNotInfluenceCommands := by
  intro i s c h
  obtain ⟨r, r', hexec, hexec', hr⟩ := exec_eq_complete_sameOutcome i s h
  exact ⟨s.block.finish r, c.finish r', hexec, hexec', h.finish hr⟩

end Sys2Proof.Machine
end

section
/-! PROOFS. What a step can do to the block, said once (`Block.StepsTo`, `step_cases`), and the two obligations that
follow from it: NOINV (10_state R29) and the fault registers (R33, R34, 60_exceptions R203). -/

namespace Sys2Proof.Machine

variable {p : Params}

/-! ### A command raises command faults only -/

/-- Whatever fault the checks raise has the code of a command fault (60_exceptions R201). -/
def RaisesCommandFaults {α : Type} (m : Except FaultName α) : Prop := ∀ f, m = .error f → f.code ∈ commandCodes

theorem raisesCommandFaults_ok {α : Type} (a : α) : RaisesCommandFaults (.ok a) := fun _ h => nomatch h

theorem RaisesCommandFaults.bind {α β : Type} {m : Except FaultName α} {k : α → Except FaultName β}
    (hm : RaisesCommandFaults m) (hk : ∀ a, RaisesCommandFaults (k a)) : RaisesCommandFaults (m >>= k) := by
  intro f h
  obtain hf | ⟨a, -, hf⟩ := (bind_eq_error_iff m k f).mp h
  · exact hm f hf
  · exact hk a f hf

theorem raisesCommandFaults_require {c : Prop} [Decidable c] {f : FaultName} (hf : f.code ∈ commandCodes) :
    RaisesCommandFaults (require c f) := by
  intro g h
  obtain ⟨-, rfl⟩ := (require_eq_error c f g).mp h
  exact hf

theorem Block.raisesCommandFaults_srcX (b : Block p) (i : XIdx) : RaisesCommandFaults (b.srcX i) := by
  intro f h
  obtain ⟨-, rfl⟩ := (b.srcX_error_iff i f).mp h
  decide

theorem Block.raisesCommandFaults_srcV (b : Block p) (r : VIdx) : RaisesCommandFaults (b.srcV r) := by
  intro f h
  obtain ⟨-, rfl⟩ := (b.srcV_error_iff r f).mp h
  decide

theorem Block.raisesCommandFaults_srcXW (b : Block p) : RaisesCommandFaults b.srcXW := by
  cases h : b.xw with
  | some w => rw [Block.srcXW_some h]; exact raisesCommandFaults_ok _
  | none =>
    rw [Block.srcXW_none h]
    intro f hf
    obtain rfl := Except.error.inj hf
    decide

theorem raisesCommandFaults_sameLength (r t : VReg p) : RaisesCommandFaults (sameLength r t) :=
  raisesCommandFaults_require (by decide)

theorem raisesCommandFaults_positiveModulus (q : Nat) : RaisesCommandFaults (positiveModulus q) :=
  raisesCommandFaults_require (by decide)

theorem raisesCommandFaults_positiveModuli (m : VReg p) : RaisesCommandFaults (positiveModuli m) :=
  raisesCommandFaults_require (by decide)

theorem raisesCommandFaults_lengthInRange (m : VReg p) : RaisesCommandFaults (lengthInRange m) :=
  raisesCommandFaults_require (by decide)

theorem raisesCommandFaults_coprimeModuli (m : VReg p) : RaisesCommandFaults (coprimeModuli m) :=
  raisesCommandFaults_require (by decide)

section
variable (b : Block p)

theorem Block.raisesCommandFaults_scalarOp (f : Nat → Nat → Nat → Nat) (rd ra rb rm : XIdx) :
    RaisesCommandFaults (b.scalarOp f rd ra rb rm) :=
  (b.raisesCommandFaults_srcX ra).bind fun _ => (b.raisesCommandFaults_srcX rb).bind fun _ =>
    (b.raisesCommandFaults_srcX rm).bind fun q => (raisesCommandFaults_positiveModulus q).bind fun _ =>
    raisesCommandFaults_ok _

theorem Block.raisesCommandFaults_inverseOp (rd ra rm : XIdx) : RaisesCommandFaults (b.inverseOp rd ra rm) :=
  (b.raisesCommandFaults_srcX ra).bind fun _ => (b.raisesCommandFaults_srcX rm).bind fun m =>
    (raisesCommandFaults_positiveModulus m).bind fun _ => raisesCommandFaults_ok _

theorem Block.raisesCommandFaults_polyBinary (f : (Nat → Nat) → (Nat → Nat) → Nat → Nat → Nat → Nat)
    (rd ra rb : VIdx) (rm : XIdx) : RaisesCommandFaults (b.polyBinary f rd ra rb rm) :=
  (b.raisesCommandFaults_srcV ra).bind fun a => (b.raisesCommandFaults_srcV rb).bind fun c =>
    (b.raisesCommandFaults_srcX rm).bind fun q => (raisesCommandFaults_sameLength a c).bind fun _ =>
    (raisesCommandFaults_positiveModulus q).bind fun _ => raisesCommandFaults_ok _

theorem Block.raisesCommandFaults_polyUnary (f : (Nat → Nat) → Nat → Nat → Nat) (rd ra : VIdx) (rm : XIdx) :
    RaisesCommandFaults (b.polyUnary f rd ra rm) :=
  (b.raisesCommandFaults_srcV ra).bind fun _ => (b.raisesCommandFaults_srcX rm).bind fun q =>
    (raisesCommandFaults_positiveModulus q).bind fun _ => raisesCommandFaults_ok _

theorem Block.raisesCommandFaults_normOp (rd : XIdx) (ra : VIdx) : RaisesCommandFaults (b.normOp rd ra) :=
  (b.raisesCommandFaults_srcV ra).bind fun _ => raisesCommandFaults_ok _

theorem Block.raisesCommandFaults_rnsBinary (f : Nat → Nat → Nat → Nat) (rd ra rb rm : VIdx) :
    RaisesCommandFaults (b.rnsBinary f rd ra rb rm) :=
  (b.raisesCommandFaults_srcV ra).bind fun a => (b.raisesCommandFaults_srcV rb).bind fun c =>
    (b.raisesCommandFaults_srcV rm).bind fun m => (raisesCommandFaults_sameLength a m).bind fun _ =>
    (raisesCommandFaults_sameLength c m).bind fun _ => (raisesCommandFaults_positiveModuli m).bind fun _ =>
    raisesCommandFaults_ok _

theorem Block.raisesCommandFaults_constructOp (rd rm : VIdx) : RaisesCommandFaults (b.constructOp rd rm) :=
  (b.raisesCommandFaults_srcV rm).bind fun m => b.raisesCommandFaults_srcXW.bind fun _ =>
    (raisesCommandFaults_positiveModuli m).bind fun _ => raisesCommandFaults_ok _

theorem Block.raisesCommandFaults_deconstructOp (ra rm : VIdx) : RaisesCommandFaults (b.deconstructOp ra rm) :=
  (b.raisesCommandFaults_srcV ra).bind fun a => (b.raisesCommandFaults_srcV rm).bind fun m =>
    (raisesCommandFaults_sameLength a m).bind fun _ => (raisesCommandFaults_lengthInRange m).bind fun _ =>
    (raisesCommandFaults_positiveModuli m).bind fun _ => (raisesCommandFaults_coprimeModuli m).bind fun _ =>
    raisesCommandFaults_ok _

end

/-- Every command is a completion whose checks raise command faults only. -/
theorem exec_eq_complete_raisesCommandFaults (i : Instr) (s : State) :
    ∃ r, exec i s = s.complete r ∧ RaisesCommandFaults r := by
  cases i with
  | madd | msub | mmul => exact ⟨_, rfl, s.block.raisesCommandFaults_scalarOp _ _ _ _ _⟩
  | minv => exact ⟨_, rfl, s.block.raisesCommandFaults_inverseOp _ _ _⟩
  | padd | psub | pmulc | pmuln => exact ⟨_, rfl, s.block.raisesCommandFaults_polyBinary _ _ _ _ _⟩
  | pneg | pred => exact ⟨_, rfl, s.block.raisesCommandFaults_polyUnary _ _ _ _⟩
  | pnorm => exact ⟨_, rfl, s.block.raisesCommandFaults_normOp _ _⟩
  | rcons => exact ⟨_, rfl, s.block.raisesCommandFaults_constructOp _ _⟩
  | radd | rsub | rmul => exact ⟨_, rfl, s.block.raisesCommandFaults_rnsBinary _ _ _ _ _⟩
  | rdecons => exact ⟨_, rfl, s.block.raisesCommandFaults_deconstructOp _ _⟩

/-! ### The host's accesses -/

theorem accessInfo_lt (a : Addr) (isWrite : Bool) : (accessInfo a isWrite).toNat < 2 ^ 17 := by
  have ha := a.isLt
  cases isWrite <;> simp [accessInfo] <;> omega

/-- A read in mode IDLE raises access faults only (60_exceptions R209). -/
theorem Block.idleRead_error {b : Block p} {reg : PortReg p} {f : FaultName} (h : b.idleRead reg = .error f) :
    f.code ∈ accessCodes := by
  cases reg with
  | status | err | errinfo | svalid | vlen =>
    simp only [Block.idleRead] at h
    cases h
  | cmd | unmapped =>
    obtain rfl := Except.error.inj h
    decide
  | scalar | limb | lane =>
    simp only [Block.idleRead] at h
    split at h <;> cases h
    decide

/-- A write in mode IDLE raises access faults only (60_exceptions R209). -/
theorem Block.idleWrite_error {b : Block p} {w : Word p} {reg : PortReg p} {f : FaultName}
    (h : b.idleWrite w reg = .error f) : f.code ∈ accessCodes := by
  cases reg with
  | scalar | limb | lane =>
    simp only [Block.idleWrite] at h
    cases h
  | status | err | errinfo | svalid | unmapped =>
    obtain rfl := Except.error.inj h
    decide
  | cmd =>
    simp only [Block.idleWrite, Block.issue] at h
    split at h <;> cases h
    decide
  | vlen =>
    simp only [Block.idleWrite] at h
    split at h <;> cases h
    decide

/-- An accepted write changes neither NOINV nor the fault registers, and enters no fault. -/
structure Block.AcceptedWrite (b b' : Block p) : Prop where
  idle : b.mode = .idle
  mode : b'.mode ≠ .fault
  noinv : b'.noinv = b.noinv
  err : b'.err = b.err
  errinfo : b'.errinfo = b.errinfo

theorem Block.idleWrite_ok {b b' : Block p} {w : Word p} {reg : PortReg p} (hb : b.mode = .idle)
    (h : b.idleWrite w reg = .ok b') : b.AcceptedWrite b' := by
  cases reg with
  | status | err | errinfo | svalid | unmapped =>
    simp only [Block.idleWrite] at h
    cases h
  | scalar | limb | lane =>
    obtain rfl := Except.ok.inj h
    exact ⟨hb, by simp [hb], rfl, rfl, rfl⟩
  | cmd =>
    simp only [Block.idleWrite, Block.issue] at h
    split at h <;> cases h
    exact ⟨hb, by simp, rfl, rfl, rfl⟩
  | vlen =>
    simp only [Block.idleWrite] at h
    split at h <;> cases h
    exact ⟨hb, by simp [hb], rfl, rfl, rfl⟩

/-- A host access that faults (60_exceptions R209): `b'` is the fault entry over `b`, with an access code and an address
and write bit in ERRINFO. -/
inductive Block.AccessFaults (b : Block p) : Block p → Prop
  | mk {f : FaultName} {a : Addr} {isWrite : Bool} (running : b.mode ≠ .fault) (code : f.code ∈ accessCodes) :
      b.AccessFaults (b.raise f (accessInfo a isWrite))

/-- What a read does to the block: nothing, or the fault entry. -/
theorem hostRead_cases (a : Addr) (b : Block p) (h : HostSide p) :
    (hostRead a b h).1 = b ∨ b.AccessFaults (hostRead a b h).1 := by
  unfold hostRead
  split
  · exact .inl rfl
  · split
    next hidle =>
      split
      · exact .inl rfl
      next herr => exact .inr ⟨by simp [hidle], Block.idleRead_error herr⟩
    next hbusy => exact .inr ⟨by simp [hbusy], by decide⟩
    · exact .inl rfl

/-- What a write does to the block: nothing, the accepted write, or the fault entry. -/
theorem hostWrite_cases (a : Addr) (w : Word p) (b : Block p) :
    hostWrite a w b = b ∨ b.AcceptedWrite (hostWrite a w b) ∨ b.AccessFaults (hostWrite a w b) := by
  unfold hostWrite
  split
  next hidle =>
    split
    next hok => exact .inr (.inl (Block.idleWrite_ok hidle hok))
    next herr => exact .inr (.inr ⟨by simp [hidle], Block.idleWrite_error herr⟩)
  next hbusy => exact .inr (.inr ⟨by simp [hbusy], by decide⟩)
  · exact .inl rfl

/-! ### What a step can do to the block -/

/-- It is the block's turn: next in the script, or the script is exhausted (log 3). -/
def State.BlockIsNext (s : State) : Prop := s.host.turns = [] ∨ ∃ ts, s.host.turns = .block :: ts

/-- What one step does to the block: nothing, the completion of a command, a command fault, an accepted host write, an
access fault, or the reset event. -/
inductive State.StepsTo (s : State) : Block s.cfg → Prop
  | unchanged : s.StepsTo s.block
  | completed {i : Instr} {b' : Block s.cfg} (turn : s.BlockIsNext) (busy : s.block.mode = .busy)
      (decoded : decode s.block.pend = .ok i) (written : s.block.WrittenBy i b') : s.StepsTo (b'.setMode .idle)
  | commandFault {f : FaultName} (busy : s.block.mode = .busy) (code : f.code ∈ commandCodes) :
      s.StepsTo (s.block.raise f s.block.pend)
  | hostWrite {b' : Block s.cfg} (write : s.block.AcceptedWrite b') : s.StepsTo b'
  | accessFault {b' : Block s.cfg} (fault : s.block.AccessFaults b') : s.StepsTo b'
  | reset (turn : ∃ ts, s.host.turns = .host .reset :: ts) (n : Nat) : s.StepsTo (Block.afterReset s.cfg n)

/-- What a command does to the block: it has made its writes and is in mode IDLE, or it has raised a command fault. -/
theorem exec_cases (i : Instr) (s : State) :
    ∃ B, exec i s = .next (s.withBlock B) ∧
      ((∃ b', s.block.WrittenBy i b' ∧ B = b'.setMode .idle) ∨
        ∃ f : FaultName, f.code ∈ commandCodes ∧ B = s.block.raise f s.block.pend) := by
  obtain ⟨r, hexec, hwritten⟩ := exec_eq_complete_writtenBy i s
  obtain ⟨r', hexec', hfaults⟩ := exec_eq_complete_raisesCommandFaults i s
  cases r with
  | ok b' => exact ⟨_, hexec, .inl ⟨b', hwritten b' rfl, rfl⟩⟩
  | error f =>
    cases r' with
    | error g => exact ⟨_, hexec', .inr ⟨g, hfaults g rfl, rfl⟩⟩
    | ok b' =>
      have hsame := Host.Outcome.next.inj (hexec.symm.trans hexec')
      have hmode : Mode.fault = Mode.idle := congrArg (fun t : State => t.block.mode) hsame
      exact nomatch hmode

/-- The block's turn changes the block as a step may. -/
theorem blockTurn_stepsTo {s : State} (turn : s.BlockIsNext) (H : HostSide s.cfg) :
    ∃ B, blockTurn (s.withHost H) = .next (s.update B H) ∧ s.StepsTo B := by
  cases hmode : s.block.mode with
  | idle | fault => exact ⟨s.block, by simp [blockTurn, hmode], .unchanged⟩
  | busy =>
    have hturn : blockTurn (s.withHost H) = completion (s.withHost H) := by simp [blockTurn, hmode]
    rw [hturn]
    cases hdec : decode s.block.pend with
    | error e =>
      exact ⟨s.block.raise .illegalCommand s.block.pend, by simp [completion, hdec, State.complete_eq],
        .commandFault hmode (by decide)⟩
    | ok i =>
      obtain ⟨B, hexec, hB⟩ := exec_cases i (s.withHost H)
      refine ⟨B, by simp [completion, hdec, hexec], ?_⟩
      obtain ⟨b', hwritten, rfl⟩ | ⟨f, hcode, rfl⟩ := hB
      · exact .completed turn hmode hdec hwritten
      · exact .commandFault hmode hcode

/-- The host's turn changes the block as a step may. -/
theorem hostTurn_stepsTo {s : State} {act : HostAction s.cfg} {ts : List (Turn s.cfg)}
    (turn : s.host.turns = .host act :: ts) : s.StepsTo (hostAct act s.block (s.host.withTurns ts)).1 := by
  cases act with
  | read a =>
    change s.StepsTo (hostRead a s.block _).1
    obtain h | h := hostRead_cases a s.block (s.host.withTurns ts)
    · rw [h]; exact .unchanged
    · exact .accessFault h
  | write a w =>
    change s.StepsTo (hostWrite a w s.block)
    obtain h | h | h := hostWrite_cases a w s.block
    · rw [h]; exact .unchanged
    · exact .hostWrite h
    · exact .accessFault h
  | reset => exact .reset ⟨ts, turn⟩ _

/-- Every step answers a next state of the same parameters, whose block is one of `StepsTo`. -/
theorem step_stepsTo (s : State) : ∃ B H, step s = .next (s.update B H) ∧ s.StepsTo B := by
  unfold step
  split
  next hturns =>
    obtain ⟨B, hstep, hB⟩ := blockTurn_stepsTo (s := s) (.inl hturns) s.host
    exact ⟨B, s.host, hstep, hB⟩
  next ts hturns =>
    obtain ⟨B, hstep, hB⟩ := blockTurn_stepsTo (s := s) (.inr ⟨ts, hturns⟩) (s.host.withTurns ts)
    exact ⟨B, _, hstep, hB⟩
  next act ts hturns => exact ⟨_, _, rfl, hostTurn_stepsTo hturns⟩

theorem step_cases {s t : State} (h : step s = .next t) : ∃ B H, t = s.update B H ∧ s.StepsTo B := by
  obtain ⟨B, H, hstep, hB⟩ := step_stepsTo s
  exact ⟨B, H, Host.Outcome.next.inj (h.symm.trans hstep), hB⟩

/-! ### NOINV -/

/-- Settles O41: of the changes a step can make to the block, only a completed MINV and the reset event write NOINV. -/
theorem onlyMinvAndResetChangeNoinv : Obligations.OnlyMinvAndResetChangeNoinv := by
  intro s t h
  obtain ⟨B, H, rfl, hB⟩ := step_cases h
  cases hB with
  | unchanged => exact .inl rfl
  | @completed i b' turn busy decoded written =>
    cases i with
    | minv d a m => exact .inr (.inl ⟨turn, busy, ⟨d, a, m, decoded⟩, rfl⟩)
    | _ => exact .inl (written.noinv_eq nofun)
  | commandFault => exact .inl rfl
  | hostWrite write => exact .inl write.noinv
  | accessFault fault =>
    obtain ⟨-, -⟩ := fault
    exact .inl rfl
  | reset turn n => exact .inr (.inr ⟨turn, rfl⟩)

/-! ### The fault registers -/

/-- ERR is 0 for no fault. -/
theorem FaultName.code_ne_zero (f : FaultName) : f.code ≠ 0 := by
  cases f <;> decide

theorem FaultName.code_listed (f : FaultName) : f.code ∈ commandCodes ∨ f.code ∈ accessCodes := by
  cases f <;> decide

/-- No code is both a command fault's and an access fault's. -/
theorem not_mem_accessCodes_of_mem_commandCodes {code : BitVec 8} (h : code ∈ commandCodes) : code ∉ accessCodes := by
  revert code
  decide

/-- A block outside mode FAULT with zero fault registers meets the invariant. -/
theorem Block.faultInv_of_running {b : Block p} (hmode : b.mode ≠ .fault) (herr : b.err = 0) (hinfo : b.errinfo = 0) :
    b.FaultInv where
  err_zero_iff := by simp [hmode, herr]
  errinfo_zero _ := hinfo
  code_listed h := absurd herr h
  command_info h := absurd (herr ▸ h) (by decide)
  access_info h := absurd (herr ▸ h) (by decide)

theorem Block.FaultInv.err_zero {b : Block p} (h : b.FaultInv) (hmode : b.mode ≠ .fault) : b.err = 0 :=
  h.err_zero_iff.mpr hmode

/-- A fault entry meets the invariant when ERRINFO is what the kind of the fault asks for. -/
theorem Block.faultInv_raise (b : Block p) {f : FaultName} {info : BitVec 32}
    (hcommand : f.code ∈ commandCodes → info = b.pend) (haccess : f.code ∈ accessCodes → info.toNat < 2 ^ 17) :
    (b.raise f info).FaultInv where
  err_zero_iff := ⟨fun h => absurd h f.code_ne_zero, fun h => absurd rfl h⟩
  errinfo_zero h := absurd h f.code_ne_zero
  code_listed _ := f.code_listed
  command_info := hcommand
  access_info := haccess

theorem Block.faultInv_raise_command (b : Block p) {f : FaultName} (hf : f.code ∈ commandCodes) :
    (b.raise f b.pend).FaultInv :=
  b.faultInv_raise (fun _ => rfl) fun h => absurd h (not_mem_accessCodes_of_mem_commandCodes hf)

theorem Block.AccessFaults.faultInv {b b' : Block p} (h : b.AccessFaults b') : b'.FaultInv := by
  obtain @⟨f, a, isWrite, -, hf⟩ := h
  exact b.faultInv_raise (fun h => absurd hf (not_mem_accessCodes_of_mem_commandCodes h)) fun _ =>
    accessInfo_lt a isWrite

theorem Block.faultInv_afterReset (p : Params) (n : Nat) : (Block.afterReset p n).FaultInv :=
  Block.faultInv_of_running nofun rfl rfl

/-- The invariant survives a step that ends outside mode FAULT and leaves the fault registers alone. -/
theorem Block.FaultInv.of_running {b b' : Block p} (h : b.FaultInv) (hmode : b.mode ≠ .fault)
    (hmode' : b'.mode ≠ .fault) (herr : b'.err = b.err) (hinfo : b'.errinfo = b.errinfo) : b'.FaultInv :=
  have h0 := h.err_zero hmode
  Block.faultInv_of_running hmode' (herr.trans h0) (hinfo.trans (h.errinfo_zero h0))

/-- Settles O42, by the cases of what a step can do to the block. -/
theorem stepKeepsFaultRegistersConsistent : Obligations.StepKeepsFaultRegistersConsistent := by
  intro s t hinv h
  have hinv : s.block.FaultInv := hinv
  obtain ⟨B, H, rfl, hB⟩ := step_cases h
  change B.FaultInv
  cases hB with
  | unchanged => exact hinv
  | completed _ busy _ written => exact hinv.of_running (by simp [busy]) nofun written.err_eq written.errinfo_eq
  | commandFault _ code => exact s.block.faultInv_raise_command code
  | hostWrite write => exact hinv.of_running (by simp [write.idle]) write.mode write.err write.errinfo
  | accessFault fault => exact fault.faultInv
  | reset _ n => exact Block.faultInv_afterReset s.cfg n

/-- Settles O43: the reset state is a block right after reset. -/
theorem resetHasConsistentFaultRegisters : Obligations.ResetHasConsistentFaultRegisters :=
  Block.faultInv_afterReset Params.reference 0

end Sys2Proof.Machine
end

section
/-! PROOFS. The reset, the limbs of XW, and the accesses to SVALID and VLEN in mode IDLE (10_state R26, R35, R36, R39). The
step rules of an access in mode IDLE are stated once, for every register of the port. -/

namespace Sys2Proof.Machine

variable {p : Params}

/-! ### A host access as a step -/

theorem step_of_hostTurn {s : State} {act : HostAction s.cfg} {ts : List (Turn s.cfg)}
    (turn : s.host.turns = .host act :: ts) : step s = .next (hostTurn s act ts) := by
  simp only [step, turn]

/-- In mode IDLE the diagnostic registers read as every other register does. -/
theorem Block.idleRead_of_diagnostic {b : Block p} {reg : PortReg p} {w : Word p} (h : b.diagnostic reg = some w) :
    b.idleRead reg = .ok w := by
  cases reg with
  | status | err | errinfo => exact congrArg Except.ok (Option.some.inj h)
  | cmd | svalid | scalar | vlen | limb | lane | unmapped => exact nomatch h

theorem hostRead_idle_ok {a : Addr} {b : Block p} {w : Word p} (hmode : b.mode = .idle)
    (hw : b.idleRead (portReg p a) = .ok w) (h : HostSide p) : hostRead a b h = (b, h.answer a w) := by
  unfold hostRead
  cases hd : b.diagnostic (portReg p a) with
  | some w' =>
    obtain rfl := Except.ok.inj ((Block.idleRead_of_diagnostic hd).symm.trans hw)
    rfl
  | none => simp only [hmode, hw]

section
variable {s : State} {ts : List (Turn s.cfg)} {a : Addr} {w : Word s.cfg} (hmode : s.block.mode = .idle)
include hmode

/-- A read in mode IDLE that does not fault only answers the host. -/
theorem step_read_idle_ok (turn : s.host.turns = .host (.read a) :: ts)
    (hw : s.block.idleRead (portReg s.cfg a) = .ok w) :
    step s = .next (s.withHost ((s.host.withTurns ts).answer a w)) := by
  simp only [step_of_hostTurn turn, hostTurn, hostAct, hostRead_idle_ok hmode hw]

/-- A write in mode IDLE that does not fault is the write itself. -/
theorem step_write_idle_ok (turn : s.host.turns = .host (.write a w) :: ts) {B : Block s.cfg}
    (hw : s.block.idleWrite w (portReg s.cfg a) = .ok B) : step s = .next (s.update B (s.host.withTurns ts)) := by
  simp only [step_of_hostTurn turn, hostTurn, hostAct, hostWrite, hmode, hw]

/-- A write in mode IDLE that faults makes the fault entry. -/
theorem step_write_idle_error (turn : s.host.turns = .host (.write a w) :: ts) {f : FaultName}
    (hw : s.block.idleWrite w (portReg s.cfg a) = .error f) :
    step s = .next (s.update (s.block.raise f (accessInfo a true)) (s.host.withTurns ts)) := by
  simp only [step_of_hostTurn turn, hostTurn, hostAct, hostWrite, hmode, hw]

end

/-! ### Reset -/

/-- Settles O45: both blocks are `Block.afterReset`. -/
theorem resetEmptiesTheBlock : Obligations.ResetEmptiesTheBlock := by
  refine ⟨⟨rfl, rfl, rfl, rfl, rfl, Block.getX_afterReset _ _, fun r => ?_⟩, fun s ts turn =>
    ⟨_, step_of_hostTurn turn, ⟨rfl, rfl, rfl, rfl, rfl, Block.getX_afterReset _ _, fun r => ?_⟩, rfl⟩⟩
  · exact congrArg Fin.val (Block.len_afterReset _ _ r)
  · exact congrArg Fin.val (Block.len_afterReset _ _ r)

/-! ### The limbs of XW -/

theorem toNat_getLimb (x : BitVec (p.KMAX * p.W)) (j : Nat) :
    (getLimb x j).toNat = x.toNat / (2 ^ p.W) ^ j % 2 ^ p.W := by
  rw [getLimb, BitVec.extractLsb'_toNat, Nat.shiftRight_eq_div_pow, Nat.pow_mul]

/-- The sum of the `k` lowest digits of `x` in base `B`, each at its place. -/
theorem sum_digits_eq_mod (B x k : Nat) : ∑ j ∈ Finset.range k, x / B ^ j % B * B ^ j = x % B ^ k := by
  induction k with
  | zero => simp [Nat.mod_one]
  | succ k ih => rw [Finset.sum_range_succ, ih, Nat.mod_pow_succ, Nat.mul_comm (B ^ k)]

/-- Settles O51: the limbs are the digits of XW in base `2 ^ W`, and XW has `KMAX` of them. -/
theorem wideRegisterIsTheSumOfItsLimbs : Obligations.WideRegisterIsTheSumOfItsLimbs := by
  intro p x
  have hlt : x.toNat < (2 ^ p.W) ^ p.KMAX := x.isLt.trans_eq (by rw [Nat.mul_comm, Nat.pow_mul])
  calc x.toNat = ∑ j ∈ Finset.range p.KMAX, x.toNat / (2 ^ p.W) ^ j % 2 ^ p.W * (2 ^ p.W) ^ j := by
        rw [sum_digits_eq_mod, Nat.mod_eq_of_lt hlt]
    _ = ∑ j ∈ Finset.range p.KMAX, (getLimb x j).toNat * 2 ^ (p.W * j) := by
        simp only [toNat_getLimb, Nat.pow_mul]

/-! ### SVALID -/

theorem Block.getLsbD_svalidWord (b : Block p) (k : Nat) :
    b.svalidWord.getLsbD k = (decide (k < p.W) && b.svalidBit k) := by
  rw [Block.svalidWord, BitVec.getLsbD_ofFnLE]
  split <;> simp [*]

/-- The tags stand in the low 32 bits, which every data word has (00_scope R7). -/
theorem Block.getLsbD_svalidWord_low (b : Block p) {k : Nat} (hk : k < 32) :
    b.svalidWord.getLsbD k = b.svalidBit k := by
  have hW := p.W_ge
  rw [b.getLsbD_svalidWord, decide_eq_true (by omega), Bool.true_and]

theorem Block.svalidBit_scalar (b : Block p) (i : XIdx) : b.svalidBit i.val = (b.getX i).isSome := dif_pos i.isLt

theorem Block.svalidBit_wide (b : Block p) : b.svalidBit 8 = b.xw.isSome := rfl

theorem Block.svalidBit_vector (b : Block p) (r : VIdx) :
    b.svalidBit (16 + r.val) = ((b.getV r).len.val != 0) := by
  rw [Block.svalidBit, dif_neg (by omega), if_neg (by omega), dif_pos (by omega)]
  simp only [Nat.add_sub_cancel_left]

theorem Block.svalidBit_unused (b : Block p) {k : Nat} (hk : 9 ≤ k ∧ k ≤ 15 ∨ 24 ≤ k) : b.svalidBit k = false := by
  rw [Block.svalidBit, dif_neg (by omega), if_neg (by omega), dif_neg (by omega)]

/-- Settles O58: the read answers `svalidWord`, bit by bit `svalidBit`. -/
theorem svalidShowsTheTags : Obligations.SvalidShowsTheTags := by
  intro s ts hmode turn
  refine ⟨s.block.svalidWord, step_read_idle_ok hmode turn rfl, fun i => ?_, ?_, fun k h9 h15 => ?_, fun r => ?_,
    fun k h24 => ?_⟩
  · rw [Block.getLsbD_svalidWord_low _ (by omega), Block.svalidBit_scalar]
  · rw [Block.getLsbD_svalidWord_low _ (by decide), Block.svalidBit_wide]
  · rw [Block.getLsbD_svalidWord_low _ (by omega), Block.svalidBit_unused _ (.inl ⟨h9, h15⟩)]
  · rw [Block.getLsbD_svalidWord_low _ (by omega), Block.svalidBit_vector, bne_iff_ne]
  · rw [Block.getLsbD_svalidWord, Block.svalidBit_unused _ (.inr h24), Bool.and_false]

/-! ### VLEN -/

/-- The address of the length of `v[r]` (20_memory R61). -/
theorem portReg_vlen (p : Params) (r : VIdx) : portReg p (BitVec.ofNat 16 (0x0020 + r.val)) = .vlen r := by
  have hr := r.isLt
  have hn : (BitVec.ofNat 16 (0x0020 + r.val)).toNat = 0x0020 + r.val := by
    rw [BitVec.toNat_ofNat]
    omega
  simp only [portReg, hn]
  rw [if_neg (by omega), if_neg (by omega), if_neg (by omega), if_neg (by omega), if_neg (by omega),
    dif_neg (by omega), dif_pos (by omega)]
  simp only [Nat.add_sub_cancel_left]

theorem accessInfo_vlen_write (r : VIdx) :
    accessInfo (BitVec.ofNat 16 (0x0020 + r.val)) true = BitVec.ofNat 32 (0x00010020 + r.val) := by
  revert r
  decide

theorem Block.onlyVector_setV (b : Block p) (r : VIdx) (t : VReg p) : b.OnlyVector (b.setV r t) r where
  x := rfl
  v k hk := by simp [hk]
  xw := rfl
  noinv := rfl
  err := rfl
  errinfo := rfl
  pend := rfl

/-- A length fits a data word. -/
theorem toNat_ofNat_len (n : Fin (p.NMAX + 1)) : (BitVec.ofNat p.W n.val).toNat = n.val := by
  have hn := n.isLt
  have hmax := p.NMAX_le
  have hW : 2 ^ 32 ≤ 2 ^ p.W := Nat.pow_le_pow_right (by decide) p.W_ge
  rw [BitVec.toNat_ofNat, Nat.mod_eq_of_lt (by omega)]

/-- Settles O53: the write is `VReg.setLen` or raises BadValue, as `w` is at most `NMAX` or not. -/
theorem hostAccessesVectorLength : Obligations.HostAccessesVectorLength := by
  refine ⟨fun s ts r w hmode turn => ?_, fun s ts r hmode turn => ?_⟩
  · split
    next hle =>
      refine ⟨_, step_write_idle_ok hmode turn (by rw [portReg_vlen]; exact dif_pos hle), ?_⟩
      simp [hmode, Block.onlyVector_setV]
    next hgt =>
      refine ⟨_, step_write_idle_error hmode turn (by rw [portReg_vlen]; exact dif_neg hgt), ?_⟩
      rw [accessInfo_vlen_write]
      exact s.block.enteredFault_raise .badValue _
  · exact ⟨_, step_read_idle_ok hmode turn (by rw [portReg_vlen]; rfl), toNat_ofNat_len _⟩

end Sys2Proof.Machine
end

section
/-! PROOFS. The address map (20_memory R61) and the host's accesses in every mode (R65 to R73). The map is inverted once
(`PortReg.addr`); the step rules of a diagnostic read and of an access that faults in mode IDLE are stated once, for
every register of the port. -/

namespace Sys2Proof.Machine

variable {p : Params}

/-! ### The address map -/

/-- The word address of a port register; an unmapped register has none, and 0 stands for it. -/
def PortReg.addr : PortReg p → Nat
  | .cmd | .unmapped => 0x0000
  | .status => 0x0001
  | .err => 0x0002
  | .errinfo => 0x0003
  | .svalid => 0x0004
  | .scalar i => 0x0010 + i.val
  | .vlen r => 0x0020 + r.val
  | .limb j => 0x0040 + j.val
  | .lane r i => 0x1000 * (r.val + 1) + i.val

theorem PortReg.addr_lt (reg : PortReg p) : reg.addr < 2 ^ 16 := by
  have hN := p.NMAX_le
  have hK := p.KMAX_le
  cases reg <;> simp only [PortReg.addr] <;> omega

/-- A mapped address is the address of the register it names. -/
theorem addr_portReg (a : Addr) : portReg p a ≠ .unmapped → (portReg p a).addr = a.toNat := by
  fun_cases portReg p a
  case case10 => exact fun h => absurd rfl h
  all_goals
    intro _
    simp only [PortReg.addr]
    omega

/-- Every register of the port is named by its address. -/
theorem portReg_addr {reg : PortReg p} (h : reg ≠ .unmapped) : portReg p (BitVec.ofNat 16 reg.addr) = reg := by
  have hN := p.NMAX_le
  have hK := p.KMAX_le
  have ha : (BitVec.ofNat 16 reg.addr).toNat = reg.addr := by
    rw [BitVec.toNat_ofNat, Nat.mod_eq_of_lt reg.addr_lt]
  cases reg with
  | unmapped => exact absurd rfl h
  | cmd | status | err | errinfo | svalid => rfl
  | vlen r => exact portReg_vlen p r
  | scalar | limb =>
    simp only [PortReg.addr] at ha ⊢
    simp (disch := omega) only [portReg, ha, ↓if_neg, ↓dif_neg, ↓dif_pos, Nat.add_sub_cancel_left]
  | lane r i =>
    have hr : (0x1000 * (r.val + 1) + i.val) / 0x1000 = r.val + 1 := by omega
    have hi : (0x1000 * (r.val + 1) + i.val) % 0x1000 = i.val := by omega
    simp only [PortReg.addr] at ha ⊢
    simp (disch := omega) only [portReg, ha, hr, hi, ↓if_neg, ↓dif_neg, ↓dif_pos, Nat.add_sub_cancel]

theorem portReg_scalar (p : Params) (i : XIdx) : portReg p (BitVec.ofNat 16 (0x0010 + i.val)) = .scalar i :=
  portReg_addr (reg := .scalar i) nofun

theorem portReg_limb (j : Fin p.KMAX) : portReg p (BitVec.ofNat 16 (0x0040 + j.val)) = .limb j :=
  portReg_addr (reg := .limb j) nofun

theorem portReg_lane (r : VIdx) (i : Fin p.NMAX) :
    portReg p (BitVec.ofNat 16 (0x1000 * (r.val + 1) + i.val)) = .lane r i :=
  portReg_addr (reg := .lane r i) nofun

/-- Settles O46: `PortReg.addr` inverts the map on the mapped addresses, from both sides. -/
theorem addressMapIsExact : Obligations.AddressMapIsExact := by
  refine fun p => ⟨rfl, rfl, rfl, rfl, rfl, portReg_scalar p, portReg_vlen p, portReg_limb, portReg_lane,
    fun a a' heq hmapped => BitVec.eq_of_toNat_eq ?_⟩
  rw [← addr_portReg a hmapped, heq, addr_portReg a' (heq ▸ hmapped)]

theorem eq_of_portReg_eq {a : Addr} {reg : PortReg p} (h : portReg p a = reg) (hmapped : reg ≠ .unmapped) :
    a = BitVec.ofNat 16 reg.addr := by
  subst h
  rw [addr_portReg a hmapped, BitVec.ofNat_toNat, BitVec.setWidth_eq]

/-- Only STATUS, ERR and ERRINFO are diagnostic registers. -/
theorem Block.diagnostic_eq_none (b : Block p) {a : Addr} (ha : ¬(a = 0x0001 ∨ a = 0x0002 ∨ a = 0x0003)) :
    b.diagnostic (portReg p a) = none := by
  cases hreg : portReg p a with
  | cmd | svalid | scalar | vlen | limb | lane | unmapped => rfl
  | status => exact absurd (.inl (eq_of_portReg_eq hreg nofun)) ha
  | err => exact absurd (.inr (.inl (eq_of_portReg_eq hreg nofun))) ha
  | errinfo => exact absurd (.inr (.inr (eq_of_portReg_eq hreg nofun))) ha

/-! ### ERRINFO of an access fault -/

theorem accessInfo_read (a : Addr) : accessInfo a false = a.setWidth 32 := by
  rw [accessInfo, if_neg Bool.false_ne_true, Nat.add_zero, BitVec.ofNat_toNat]

theorem accessInfo_write (a : Addr) : accessInfo a true = BitVec.ofNat 32 (0x00010000 + a.toNat) := by
  rw [accessInfo, if_pos rfl, Nat.add_comm]

/-! ### The rules of an access -/

section
variable {s : State} {ts : List (Turn s.cfg)} {a : Addr} {w : Word s.cfg}

/-- In every mode a diagnostic register only answers the host. -/
theorem step_read_diagnostic (turn : s.host.turns = .host (.read a) :: ts)
    (hw : s.block.diagnostic (portReg s.cfg a) = some w) :
    step s = .next (s.withHost ((s.host.withTurns ts).answer a w)) := by
  simp only [step_of_hostTurn turn, hostTurn, hostAct, hostRead, hw]

/-- A read in mode IDLE that faults makes the fault entry and returns an unspecified word. -/
theorem step_read_idle_error (hmode : s.block.mode = .idle) (turn : s.host.turns = .host (.read a) :: ts)
    {f : FaultName} (hf : s.block.idleRead (portReg s.cfg a) = .error f) :
    ∃ B, step s = .next (s.update B ((s.host.withTurns ts).answerFree a)) ∧
      s.block.EnteredFault B f.code (a.setWidth 32) := by
  have hdiag : s.block.diagnostic (portReg s.cfg a) = none := by
    cases hd : s.block.diagnostic (portReg s.cfg a) with
    | none => rfl
    | some w => exact nomatch (Block.idleRead_of_diagnostic hd).symm.trans hf
  refine ⟨_, ?_, s.block.enteredFault_raise f _⟩
  simp only [step_of_hostTurn turn, hostTurn, hostAct, hostRead, hdiag, hmode, hf, accessInfo_read]

/-- A write in mode IDLE that faults makes the fault entry and no write. -/
theorem step_write_idle_enteredFault (hmode : s.block.mode = .idle) (turn : s.host.turns = .host (.write a w) :: ts)
    {f : FaultName} (hf : s.block.idleWrite w (portReg s.cfg a) = .error f) :
    ∃ B, step s = .next (s.update B (s.host.withTurns ts)) ∧
      s.block.EnteredFault B f.code (BitVec.ofNat 32 (0x00010000 + a.toNat)) :=
  ⟨_, step_write_idle_error hmode turn hf, accessInfo_write a ▸ s.block.enteredFault_raise f _⟩

end

/-! ### Accesses in mode IDLE -/

theorem VReg.lane_val (r : VReg p) (i : Fin p.NMAX) : r.lane i.val = r.lanes[i].toNat := dif_pos i.isLt

/-- Settles O47: the write is `Block.issue`, which accepts exactly the words below `2 ^ 32`. -/
theorem issueLatchesTheCommandWord : Obligations.IssueLatchesTheCommandWord := by
  intro s ts w hmode turn
  split
  next hlt =>
    refine ⟨_, step_write_idle_ok hmode turn (if_pos hlt), ?_, rfl, rfl, rfl, rfl, rfl, rfl, rfl⟩
    rw [BitVec.toNat_setWidth, Nat.mod_eq_of_lt hlt]
  next hge => exact step_write_idle_enteredFault hmode turn (if_neg hge)

/-- Settles O48: the write is `Block.setX`. -/
theorem hostWritesScalarRegister : Obligations.HostWritesScalarRegister := by
  intro s ts i w hmode turn
  refine ⟨s.block.setX i (some w), step_write_idle_ok hmode turn (by rw [portReg_scalar]; rfl), ?_, hmode, rfl,
    s.block.onlyScalar_setX i _⟩
  rw [Block.getX_setX, if_pos rfl]

/-- Settles O49, by what the register holds: a value is the answer, none is EmptyRead. -/
theorem hostReadsRegisterOrRaisesEmptyRead : Obligations.HostReadsRegisterOrRaisesEmptyRead := by
  intro s ts a hmode turn
  have raised := step_read_idle_error hmode turn (f := .emptyRead)
  refine ⟨fun i ha => ?_, fun j ha => ?_, fun r i ha => ?_⟩ <;> subst ha
  · cases hx : s.block.getX i with
    | some w => exact ⟨w, step_read_idle_ok hmode turn (by simp only [portReg_scalar, Block.idleRead, hx]), rfl⟩
    | none => exact raised (by simp only [portReg_scalar, Block.idleRead, hx])
  · cases hx : s.block.xw with
    | some x =>
      refine ⟨getLimb x j, step_read_idle_ok hmode turn (by simp only [portReg_limb, Block.idleRead, hx]), ?_⟩
      rw [toNat_getLimb, Nat.pow_mul]
    | none => exact raised (by simp only [portReg_limb, Block.idleRead, hx])
  · split
    next hlive =>
      exact ⟨(s.block.getV r).lanes[i], step_read_idle_ok hmode turn (by rw [portReg_lane]; exact if_pos hlive),
        ((s.block.getV r).lane_val i).symm⟩
    next hdead => exact raised (by rw [portReg_lane]; exact if_neg hdead)

/-- Settles O50: the write is `setLimb` on XW, or on 0 where XW is EMPTY. -/
theorem hostWritesLimb : Obligations.HostWritesLimb := by
  intro s ts j w hmode turn
  refine ⟨s.block.setXW _, setLimb (s.block.xw.getD 0) j w, step_write_idle_ok hmode turn (by rw [portReg_limb]; rfl),
    rfl, getLimb_setLimb_same _ j.isLt w, fun l hl => ?_, hmode, ⟨rfl, rfl, rfl, rfl, rfl, rfl⟩⟩
  rw [getLimb_setLimb_other _ l.isLt w (Fin.val_ne_of_ne hl)]
  cases s.block.xw with
  | some y => rfl
  | none => exact BitVec.extractLsb'_zero

/-- Settles O52: the write is `VReg.setLane`. -/
theorem hostWritesLane : Obligations.HostWritesLane := by
  intro s ts r i w hmode turn
  refine ⟨s.block.setV r ((s.block.getV r).setLane i w), step_write_idle_ok hmode turn (by rw [portReg_lane]; rfl),
    ?_, ?_, fun k hk => ?_, hmode, s.block.onlyVector_setV r _⟩
  · rw [Block.getV_setV, if_pos rfl, VReg.setLane_len]
  · rw [Block.getV_setV, if_pos rfl, VReg.lane_setLane, if_pos rfl]
  · rw [Block.getV_setV, if_pos rfl, VReg.lane_setLane, if_neg hk]

/-- Settles O54: each of these addresses names a register whose access `idleRead` or `idleWrite` refuses. -/
theorem badAddressesFault : Obligations.BadAddressesFault := by
  intro s ts a hmode
  refine ⟨fun turn ha => step_read_idle_error hmode turn (f := .badAddress) ?_,
    fun w turn ha => step_write_idle_enteredFault hmode turn (f := .badAddress) ?_⟩
  · obtain h | rfl := ha
    · rw [h]; rfl
    · rfl
  · obtain h | rfl | rfl | rfl | rfl := ha
    · rw [h]; rfl
    all_goals rfl

/-! ### Accesses in modes BUSY and FAULT -/

/-- Settles O55: outside the diagnostic registers an access in mode BUSY is the fault entry. -/
theorem accessWhileBusyFaults : Obligations.AccessWhileBusyFaults := by
  intro s ts a hmode
  refine ⟨fun turn ha => ⟨_, ?_, s.block.enteredFault_raise .busyAccess _⟩,
    fun w turn => ⟨_, ?_, s.block.enteredFault_raise .busyAccess _⟩⟩
  · simp only [step_of_hostTurn turn, hostTurn, hostAct, hostRead, s.block.diagnostic_eq_none ha, hmode,
      accessInfo_read]
  · simp only [step_of_hostTurn turn, hostTurn, hostAct, hostWrite, hmode, accessInfo_write]

/-- Settles O56: outside the diagnostic registers an access in mode FAULT leaves the block. -/
theorem accessInFaultChangesNothing : Obligations.AccessInFaultChangesNothing := by
  intro s ts a hmode
  refine ⟨fun turn ha => ?_, fun w turn => ?_⟩
  · simp only [step_of_hostTurn turn, hostTurn, hostAct, hostRead, s.block.diagnostic_eq_none ha, hmode]
  · simp only [step_of_hostTurn turn, hostTurn, hostAct, hostWrite, hmode]

/-! ### The diagnostic registers -/

theorem Block.getLsbD_statusWord (b : Block p) (k : Nat) :
    b.statusWord.getLsbD k = (decide (k < p.W) && b.statusBit k) := by
  rw [Block.statusWord, BitVec.getLsbD_ofFnLE]
  split <;> simp [*]

/-- The status bits stand in the low 32 bits, which every data word has (00_scope R7). -/
theorem Block.getLsbD_statusWord_low (b : Block p) {k : Nat} (hk : k < 32) :
    b.statusWord.getLsbD k = b.statusBit k := by
  have hW := p.W_ge
  rw [b.getLsbD_statusWord, decide_eq_true (by omega), Bool.true_and]

theorem Block.statusBit_unused (b : Block p) {k : Nat} (hk : 3 ≤ k) : b.statusBit k = false := by
  obtain ⟨j, rfl⟩ := Nat.exists_eq_add_of_le' hk
  rfl

/-- A zero-extended word keeps its value: a data word has at least 32 bits (00_scope R7). -/
theorem toNat_setWidth_word {n : Nat} (hn : n ≤ 32) (x : BitVec n) : (x.setWidth p.W).toNat = x.toNat :=
  BitVec.toNat_setWidth_of_le (hn.trans p.W_ge)

/-- Settles O57: each register answers its word in every mode; STATUS is `statusBit`, bit by bit. -/
theorem diagnosticRegistersReadInEveryMode : Obligations.DiagnosticRegistersReadInEveryMode := by
  intro s ts a turn
  refine ⟨fun ha => ⟨s.block.statusWord, ?_, ?_, ?_, ?_, fun k hk => ?_⟩, fun ha => ⟨s.block.errWord, ?_, ?_⟩,
    fun ha => ⟨s.block.errinfoWord, ?_, ?_⟩⟩ <;> subst ha
  · exact step_read_diagnostic turn rfl
  · rw [Block.getLsbD_statusWord_low _ (by decide), Block.statusBit, beq_iff_eq]
  · rw [Block.getLsbD_statusWord_low _ (by decide), Block.statusBit, beq_iff_eq]
  · rw [Block.getLsbD_statusWord_low _ (by decide), Block.statusBit]
  · rw [Block.getLsbD_statusWord, Block.statusBit_unused _ hk, Bool.and_false]
  · exact step_read_diagnostic turn rfl
  · exact toNat_setWidth_word (by decide) _
  · exact step_read_diagnostic turn rfl
  · exact toNat_setWidth_word (by decide) _

end Sys2Proof.Machine
end

section
/-! PROOFS. Decoder and encoder are inverse to each other, and the decoder accepts exactly the masked words (30_encoding
R92, R95, R97). The word is taken apart into its fields once; after that every fact is about one field at a time. -/

namespace Sys2Proof

/-! ### A word and its fields -/

@[simp] theorem Fields.ofWord_toWord (f : Fields) : Fields.ofWord f.toWord = f := by
  obtain ⟨op, rd, ra, rb, rm, z⟩ := f
  simp only [Fields.ofWord, Fields.toWord, Fields.mk.injEq]
  refine ⟨?_, ?_, ?_, ?_, ?_, ?_⟩ <;>
    simp (disch := decide) only [BitVec.extractLsb'_append_eq_of_le, BitVec.extractLsb'_append_eq_of_add_le,
      BitVec.extractLsb'_eq_self, Nat.reduceSub]

@[simp] theorem Fields.toWord_ofWord (w : CmdWord) : (Fields.ofWord w).toWord = w := by
  simp (disch := decide) only [Fields.ofWord, Fields.toWord, BitVec.extractLsb'_append_extractLsb'_eq_extractLsb']
  exact BitVec.extractLsb'_eq_self

/-- Two words are the same as soon as all their fields are. -/
theorem Fields.ofWord_injective : Function.Injective Fields.ofWord :=
  Function.LeftInverse.injective Fields.toWord_ofWord

/-- Masking a word masks each field with the mask's own field. -/
theorem Fields.ofWord_and (w v : CmdWord) :
    Fields.ofWord (w &&& v) =
      { op := (Fields.ofWord w).op &&& (Fields.ofWord v).op, rd := (Fields.ofWord w).rd &&& (Fields.ofWord v).rd,
        ra := (Fields.ofWord w).ra &&& (Fields.ofWord v).ra, rb := (Fields.ofWord w).rb &&& (Fields.ofWord v).rb,
        rm := (Fields.ofWord w).rm &&& (Fields.ofWord v).rm, z := (Fields.ofWord w).z &&& (Fields.ofWord v).z } := by
  simp only [Fields.ofWord, BitVec.extractLsb'_and]

/-- The match word of an opcode has only the opcode byte set (30_encoding R92). -/
theorem Op.ofWord_matchWord (o : Op) : Fields.ofWord o.matchWord = o.fields 0 0 0 0 := by
  cases o <;> decide

/-! ### One index field -/

/-- What a format asks of one index field: used, it names a register; unused, it is zero (30_encoding R91). -/
def FieldFits (used : Bool) (field : BitVec 4) : Prop :=
  usedInRange used field = true ∧ unusedIsZero used field = true

/-- The bits of an index field that the encoding fixes: bit 3 of a used field, all bits of an unused one. -/
def fixedBits (used : Bool) : BitVec 4 := if used then 0x8 else 0xF

/-- The index field the encoder writes for an operand: zero where the format does not use it. -/
def operandField (used : Bool) (r : Fin 8) : BitVec 4 := if used then indexField r else 0

theorem fieldFits_iff_and_fixedBits : ∀ (used : Bool) (field : BitVec 4),
    FieldFits used field ↔ field &&& fixedBits used = 0 := by
  unfold FieldFits; decide

@[simp] theorem regIndex_indexField : ∀ r : Fin 8, regIndex (indexField r) = r := by decide

/-- A field that fits is what the encoder writes for the register it names. -/
theorem FieldFits.operandField_regIndex : ∀ {used : Bool} {field : BitVec 4}, FieldFits used field →
    operandField used (regIndex field) = field := by
  unfold FieldFits; decide

/-! ### Opcodes and formats -/

theorem Op.ofCode_code (o : Op) : Op.ofCode o.code = some o := by
  cases o <;> rfl

/-- The decoder finds an opcode exactly at its own byte of the table (30_encoding R93). -/
theorem Op.ofCode_eq_some_iff {c : BitVec 8} {o : Op} : Op.ofCode c = some o ↔ c = o.code := by
  constructor
  · intro h
    have hc := List.find?_some h
    exact (beq_iff_eq.mp hc).symm
  · rintro rfl
    exact o.ofCode_code

/-- The mask of a format, field by field (30_encoding R92). -/
theorem Format.ofWord_mask (F : Format) :
    Fields.ofWord F.mask =
      { op := BitVec.allOnes 8, rd := fixedBits F.usesRd, ra := fixedBits F.usesRa, rb := fixedBits F.usesRb,
        rm := fixedBits F.usesRm, z := BitVec.allOnes 8 } := by
  cases F <;> decide

/-- Fields are well formed exactly when `z` is zero and every index field fits. -/
theorem Format.wellFormed_iff (F : Format) (f : Fields) :
    F.wellFormed f = true ↔
      f.z = 0 ∧ FieldFits F.usesRd f.rd ∧ FieldFits F.usesRa f.ra ∧ FieldFits F.usesRb f.rb ∧
        FieldFits F.usesRm f.rm := by
  simp only [Format.wellFormed, Fields.reservedIsZero, Format.indexesInRange, Format.unusedAreZero, FieldFits,
    Bool.and_eq_true, beq_iff_eq]
  tauto

/-! ### The decoder -/

/-- The fields encode some command of opcode `o`. -/
def Fields.Encodes (f : Fields) (o : Op) : Prop := f.op = o.code ∧ o.format.wellFormed f = true

/-- The command of opcode `o` whose registers the index fields name. -/
def Fields.command (f : Fields) (o : Op) : Instr :=
  o.build (regIndex f.rd) (regIndex f.ra) (regIndex f.rb) (regIndex f.rm)

/-- The decoder accepts a word exactly when its fields encode a command, and answers that command. -/
theorem decode_eq_ok_iff {w : CmdWord} {i : Instr} :
    decode w = .ok i ↔ ∃ o, (Fields.ofWord w).Encodes o ∧ (Fields.ofWord w).command o = i := by
  simp only [decode, Fields.Encodes, Fields.command, ← Op.ofCode_eq_some_iff, Format.wellFormed]
  cases Op.ofCode (Fields.ofWord w).op with
  | none => simp
  | some o => grind

@[simp] theorem Op.op_build (o : Op) (d a b m : Fin 8) : (o.build d a b m).op = o := by
  cases o <;> rfl

@[simp] theorem Fields.op_command (f : Fields) (o : Op) : (f.command o).op = o := o.op_build ..

/-! ### The encoder -/

@[simp] theorem ofWord_encode (i : Instr) : Fields.ofWord (encode i) = i.fields := Fields.ofWord_toWord _

theorem Instr.fields_op (i : Instr) : i.fields.op = i.op.code := by
  cases i <;> rfl

/-- The encoder writes well-formed fields for every command. -/
theorem Instr.wellFormed_fields (i : Instr) : i.op.format.wellFormed i.fields = true :=
  match i with
  | .madd .. => Laws.EncodedFields.madd ..
  | .msub .. => Laws.EncodedFields.msub ..
  | .mmul .. => Laws.EncodedFields.mmul ..
  | .minv .. => Laws.EncodedFields.minv ..
  | .padd .. => Laws.EncodedFields.padd ..
  | .psub .. => Laws.EncodedFields.psub ..
  | .pneg .. => Laws.EncodedFields.pneg ..
  | .pmulc .. => Laws.EncodedFields.pmulc ..
  | .pmuln .. => Laws.EncodedFields.pmuln ..
  | .pred .. => Laws.EncodedFields.pred ..
  | .pnorm .. => Laws.EncodedFields.pnorm ..
  | .rcons .. => Laws.EncodedFields.rcons ..
  | .radd .. => Laws.EncodedFields.radd ..
  | .rsub .. => Laws.EncodedFields.rsub ..
  | .rmul .. => Laws.EncodedFields.rmul ..
  | .rdecons .. => Laws.EncodedFields.rdecons ..

theorem Instr.encodes_fields (i : Instr) : i.fields.Encodes i.op := ⟨i.fields_op, i.wellFormed_fields⟩

/-- The registers are read back from the fields the encoder wrote. -/
theorem Instr.command_fields (i : Instr) : i.fields.command i.op = i := by
  cases i <;> simp [Instr.fields, Instr.op, Op.fields, Fields.command, Op.build]

/-- The encoder writes an operand where the format uses its field, and zero elsewhere. -/
theorem Op.fields_build (o : Op) (d a b m : Fin 8) :
    (o.build d a b m).fields =
      o.fields (operandField o.format.usesRd d) (operandField o.format.usesRa a) (operandField o.format.usesRb b)
        (operandField o.format.usesRm m) := by
  cases o <;> rfl

/-- Fields that encode a command are the fields of that command: no bit is ignored (30_encoding R95). -/
theorem Fields.Encodes.fields_command {f : Fields} {o : Op} (h : f.Encodes o) : (f.command o).fields = f := by
  obtain ⟨hop, hwf⟩ := h
  obtain ⟨hz, hd, ha, hb, hm⟩ := (o.format.wellFormed_iff f).mp hwf
  rw [Fields.command, Op.fields_build, hd.operandField_regIndex, ha.operandField_regIndex, hb.operandField_regIndex,
    hm.operandField_regIndex, Op.fields, ← hop, ← hz]

/-! ### The mask rule -/

/-- The mask rule of 30_encoding R92, field by field. -/
theorem encodes_iff_and_mask (w : CmdWord) (o : Op) :
    (Fields.ofWord w).Encodes o ↔ w &&& o.format.mask = o.matchWord := by
  rw [← Fields.ofWord_injective.eq_iff, Fields.ofWord_and, Op.ofWord_matchWord, Format.ofWord_mask, Fields.Encodes,
    Format.wellFormed_iff]
  simp only [Op.fields, Fields.mk.injEq, fieldFits_iff_and_fixedBits, BitVec.and_allOnes]
  tauto

/-! ### The obligations -/

/-- Settles O1: the fields the encoder writes encode the command, and its registers are read back from them. -/
theorem decodeOfEncodeIsTheCommand : Obligations.DecodeOfEncodeIsTheCommand := by
  intro i
  rw [decode_eq_ok_iff, ofWord_encode]
  exact ⟨i.op, i.encodes_fields, i.command_fields⟩

/-- Settles O2: an accepted word has the fields of its command, and a word is determined by its fields. -/
theorem encodeOfDecodeIsTheWord : Obligations.EncodeOfDecodeIsTheWord := by
  intro w i h
  obtain ⟨o, henc, rfl⟩ := decode_eq_ok_iff.mp h
  rw [encode, henc.fields_command, Fields.toWord_ofWord]

/-- Settles O3: a word decodes to opcode `o` exactly when its fields encode a command of `o`, which is the mask rule. -/
theorem decodeAcceptsExactlyTheMaskedWords : Obligations.DecodeAcceptsExactlyTheMaskedWords := by
  intro w o
  rw [← encodes_iff_and_mask]
  constructor
  · rintro ⟨i, hdec, rfl⟩
    obtain ⟨o, henc, rfl⟩ := decode_eq_ok_iff.mp hdec
    rwa [Fields.op_command]
  · intro henc
    exact ⟨_, decode_eq_ok_iff.mpr ⟨o, henc, rfl⟩, Fields.op_command _ o⟩

/-- Settles O4: ten closed words, each decoded by evaluation. -/
theorem sampleWordsDecode : Obligations.SampleWordsDecode := by
  unfold Obligations.SampleWordsDecode
  decide

end Sys2Proof
end

section
/-! PROOFS. Every residue a command writes is below its modulus (40_scalar_modular R111): the arithmetic reduces below
it, the writes keep it below, and so on through the command shapes and the sixteen commands. -/

namespace Sys2Proof.Machine

variable {p : Params}

/-! ### The arithmetic reduces below the modulus -/

/-- The ternary function `f` answers a residue: a number below its last argument, the modulus. -/
def Arith.Reduces (f : Nat → Nat → Nat → Nat) : Prop := ∀ {q : Nat}, q ≠ 0 → ∀ a c : Nat, f a c q < q

theorem Arith.reduces_addMod : Arith.Reduces Arith.addMod := fun hq _ _ => Nat.mod_lt _ (Nat.pos_of_ne_zero hq)

theorem Arith.reduces_subMod : Arith.Reduces Arith.subMod := fun hq a c => Arith.subMod_lt a c hq

theorem Arith.reduces_mulMod : Arith.Reduces Arith.mulMod := fun hq _ _ => Nat.mod_lt _ (Nat.pos_of_ne_zero hq)

section
variable {q : Nat} (hq : q ≠ 0)
include hq

theorem Arith.polyAdd_lt (a c : Nat → Nat) (n k : Nat) : Arith.polyAdd a c n q k < q := Arith.reduces_addMod hq _ _

theorem Arith.polySub_lt (a c : Nat → Nat) (n k : Nat) : Arith.polySub a c n q k < q := Arith.reduces_subMod hq _ _

theorem Arith.polyCyclic_lt (a c : Nat → Nat) (n k : Nat) : Arith.polyCyclic a c n q k < q :=
  Nat.mod_lt _ (Nat.pos_of_ne_zero hq)

theorem Arith.polyNegacyclic_lt (a c : Nat → Nat) (n k : Nat) : Arith.polyNegacyclic a c n q k < q :=
  Arith.reduces_subMod hq _ _

theorem Arith.polyNeg_lt (a : Nat → Nat) (k : Nat) : Arith.polyNeg a q k < q := Arith.reduces_subMod hq _ _

theorem Arith.polyReduce_lt (a : Nat → Nat) (k : Nat) : Arith.polyReduce a q k < q :=
  Nat.mod_lt _ (Nat.pos_of_ne_zero hq)

end

theorem Arith.inverse_lt {a m y : Nat} (hm : m ≠ 0) (h : Arith.inverse a m = some y) : y < m := by
  unfold Arith.inverse at h
  split at h
  · cases h
  · split at h <;> obtain rfl := Option.some.inj h
    · omega
    · have := Int.emod_lt_of_pos (Arith.extendedEuclid a m).2 (show (0 : Int) < m by omega)
      omega

/-- The product of positive moduli is positive, so the reconstructed integer is below it (43_rns_crt R156). -/
theorem Arith.crtValue_lt (r : Nat → Nat) {m : Nat → Nat} {k : Nat} (hm : ∀ i, i < k → m i ≠ 0) :
    Arith.crtValue r m k < ∏ i ∈ Finset.range k, m i :=
  Nat.mod_lt _ (Finset.prod_pos fun i hi => Nat.pos_of_ne_zero (hm i (Finset.mem_range.mp hi)))

/-! ### A result that is written stays below the bound of the value computed -/

theorem toNat_ofNat_lt {w n q : Nat} (h : n < q) : (BitVec.ofNat w n).toNat < q :=
  (BitVec.toNat_ofNat n w).trans_lt ((Nat.mod_le n _).trans_lt h)

theorem Block.toNat_resultX_lt {b : Block p} {rd : XIdx} {n q : Nat} {w : Word p} (hn : n < q)
    (hw : (b.resultX rd n).getX rd = some w) : w.toNat < q := by
  rw [Block.getX_resultX, if_pos rfl] at hw
  obtain rfl := Option.some.inj hw
  exact toNat_ofNat_lt hn

theorem Block.lane_resultV_lt {b : Block p} {rd : VIdx} {n : Fin (p.NMAX + 1)} {f : Nat → Nat} {k q : Nat}
    (hf : k < n.val → f k < q) (hk : k < ((b.resultV rd n f).getV rd).len.val) :
    ((b.resultV rd n f).getV rd).lane k < q := by
  rw [Block.getV_resultV, if_pos rfl] at hk ⊢
  rw [VReg.write_len] at hk
  rw [VReg.lane_write _ _ _ _ (by omega), if_pos hk]
  exact (Nat.mod_le _ _).trans_lt (hf hk)

/-! ### The command shapes -/

section
variable {b b' : Block p} {f : Nat → Nat → Nat → Nat}

theorem Block.scalarOp_lt {rd ra rb rm : XIdx} (hf : Arith.Reduces f) (h : b.scalarOp f rd ra rb rm = .ok b')
    (q w : Word p) (hq : b.getX rm = some q) (hw : b'.getX rd = some w) : w.toNat < q.toNat := by
  obtain ⟨_, _, _, -, -, hm, h0, rfl⟩ := Block.scalarOp_ok h
  obtain rfl := Option.some.inj (hm.symm.trans hq)
  exact Block.toNat_resultX_lt (hf h0 _ _) hw

/-- Where MINV finds no inverse, `x[rd]` is EMPTY and holds no residue. -/
theorem Block.inverseOp_lt {rd ra rm : XIdx} (h : b.inverseOp rd ra rm = .ok b') (q w : Word p)
    (hq : b.getX rm = some q) (hw : b'.getX rd = some w) : w.toNat < q.toNat := by
  obtain ⟨wa, wm, -, hm, h0, rfl⟩ := Block.inverseOp_ok h
  obtain rfl := Option.some.inj (hm.symm.trans hq)
  cases hinv : Arith.inverse wa.toNat wm.toNat with
  | none => simp [hinv, Block.inverseResult] at hw
  | some y =>
    rw [hinv] at hw
    exact Block.toNat_resultX_lt (Arith.inverse_lt h0 hinv) hw

theorem Block.polyBinary_lt {g : (Nat → Nat) → (Nat → Nat) → Nat → Nat → Nat → Nat} {rd ra rb : VIdx} {rm : XIdx}
    (hg : ∀ {q : Nat}, q ≠ 0 → ∀ (a c : Nat → Nat) (n k : Nat), g a c n q k < q)
    (h : b.polyBinary g rd ra rb rm = .ok b') (q : Word p) (k : Nat) (hq : b.getX rm = some q)
    (hk : k < (b'.getV rd).len.val) : (b'.getV rd).lane k < q.toNat := by
  obtain ⟨_, -, -, hm, -, h0, rfl⟩ := Block.polyBinary_ok h
  obtain rfl := Option.some.inj (hm.symm.trans hq)
  exact Block.lane_resultV_lt (fun _ => hg h0 _ _ _ _) hk

theorem Block.polyUnary_lt {g : (Nat → Nat) → Nat → Nat → Nat} {rd ra : VIdx} {rm : XIdx}
    (hg : ∀ {q : Nat}, q ≠ 0 → ∀ (a : Nat → Nat) (k : Nat), g a q k < q) (h : b.polyUnary g rd ra rm = .ok b')
    (q : Word p) (k : Nat) (hq : b.getX rm = some q) (hk : k < (b'.getV rd).len.val) :
    (b'.getV rd).lane k < q.toNat := by
  obtain ⟨_, -, hm, h0, rfl⟩ := Block.polyUnary_ok h
  obtain rfl := Option.some.inj (hm.symm.trans hq)
  exact Block.lane_resultV_lt (fun _ => hg h0 _ _) hk

theorem Block.rnsBinary_lt {rd ra rb rm : VIdx} (hf : Arith.Reduces f) (h : b.rnsBinary f rd ra rb rm = .ok b')
    (k : Nat) (hk : k < (b'.getV rd).len.val) : (b'.getV rd).lane k < (b.getV rm).lane k := by
  obtain ⟨-, -, -, h0, rfl⟩ := Block.rnsBinary_ok h
  exact Block.lane_resultV_lt (fun hkm => hf (h0 k hkm) _ _) hk

theorem Block.constructOp_lt {rd rm : VIdx} (h : b.constructOp rd rm = .ok b') (k : Nat)
    (hk : k < (b'.getV rd).len.val) : (b'.getV rd).lane k < (b.getV rm).lane k := by
  obtain ⟨_, -, -, h0, rfl⟩ := Block.constructOp_ok h
  exact Block.lane_resultV_lt (fun hkm => Nat.mod_lt _ (Nat.pos_of_ne_zero (h0 k hkm))) hk

theorem Block.deconstructOp_lt {ra rm : VIdx} (h : b.deconstructOp ra rm = .ok b')
    (w : BitVec (p.KMAX * p.W)) (hw : b'.xw = some w) :
    w.toNat < ∏ k ∈ Finset.range (b.getV rm).len.val, (b.getV rm).lane k := by
  obtain ⟨-, -, -, h0, -, rfl⟩ := Block.deconstructOp_ok h
  obtain rfl := Option.some.inj hw
  exact toNat_ofNat_lt (Arith.crtValue_lt _ h0)

end

/-! ### Every command -/

/-- What R111 asks of the registers command `i` wrote in `b'`, against the moduli as they were in `b`: one field per
kind of destination and modulus. -/
structure Block.CanonicalResult (b : Block p) (i : Instr) (b' : Block p) : Prop where
  scalar : ∀ m d, i.modulusX = some m → i.destX = some d →
    ∀ q w, b.getX m = some q → b'.getX d = some w → w.toNat < q.toNat
  vector : ∀ m d, i.modulusX = some m → i.destV = some d →
    ∀ q k, b.getX m = some q → k < (b'.getV d).len.val → (b'.getV d).lane k < q.toNat
  residues : ∀ m d, i.modulusV = some m → i.destV = some d →
    ∀ k, k < (b'.getV d).len.val → (b'.getV d).lane k < (b.getV m).lane k
  wide : ∀ m, i.modulusV = some m → i.writesXW = true →
    ∀ w, b'.xw = some w → w.toNat < ∏ k ∈ Finset.range (b.getV m).len.val, (b.getV m).lane k

/-- Every command is a completion whose result, when the checks raise nothing, is canonical. A command has one
destination and at most one modulus, so one field at most speaks of it; PNORM names no modulus. -/
theorem exec_eq_complete_canonicalResult (i : Instr) (s : State) :
    ∃ r, exec i s = s.complete r ∧ ∀ b', r = .ok b' → s.block.CanonicalResult i b' := by
  cases i <;> refine ⟨_, rfl, fun b' h => ?_⟩
  case madd => exact ⟨fun | _, _, rfl, rfl => Block.scalarOp_lt Arith.reduces_addMod h, nofun, nofun, nofun⟩
  case msub => exact ⟨fun | _, _, rfl, rfl => Block.scalarOp_lt Arith.reduces_subMod h, nofun, nofun, nofun⟩
  case mmul => exact ⟨fun | _, _, rfl, rfl => Block.scalarOp_lt Arith.reduces_mulMod h, nofun, nofun, nofun⟩
  case minv => exact ⟨fun | _, _, rfl, rfl => Block.inverseOp_lt h, nofun, nofun, nofun⟩
  case padd => exact ⟨nofun, fun | _, _, rfl, rfl => Block.polyBinary_lt Arith.polyAdd_lt h, nofun, nofun⟩
  case psub => exact ⟨nofun, fun | _, _, rfl, rfl => Block.polyBinary_lt Arith.polySub_lt h, nofun, nofun⟩
  case pmulc => exact ⟨nofun, fun | _, _, rfl, rfl => Block.polyBinary_lt Arith.polyCyclic_lt h, nofun, nofun⟩
  case pmuln => exact ⟨nofun, fun | _, _, rfl, rfl => Block.polyBinary_lt Arith.polyNegacyclic_lt h, nofun, nofun⟩
  case pneg => exact ⟨nofun, fun | _, _, rfl, rfl => Block.polyUnary_lt Arith.polyNeg_lt h, nofun, nofun⟩
  case pred => exact ⟨nofun, fun | _, _, rfl, rfl => Block.polyUnary_lt Arith.polyReduce_lt h, nofun, nofun⟩
  case pnorm => exact ⟨nofun, nofun, nofun, nofun⟩
  case rcons => exact ⟨nofun, nofun, fun | _, _, rfl, rfl => Block.constructOp_lt h, nofun⟩
  case radd => exact ⟨nofun, nofun, fun | _, _, rfl, rfl => Block.rnsBinary_lt Arith.reduces_addMod h, nofun⟩
  case rsub => exact ⟨nofun, nofun, fun | _, _, rfl, rfl => Block.rnsBinary_lt Arith.reduces_subMod h, nofun⟩
  case rmul => exact ⟨nofun, nofun, fun | _, _, rfl, rfl => Block.rnsBinary_lt Arith.reduces_mulMod h, nofun⟩
  case rdecons => exact ⟨nofun, nofun, nofun, fun | _, rfl, rfl => Block.deconstructOp_lt h⟩

/-- A completion that ends in mode IDLE has raised nothing: it has made its writes. -/
theorem State.complete_eq_next_idle {s : State} {r : Except FaultName (Block s.cfg)} {B : Block s.cfg}
    (h : s.complete r = .next (s.withBlock B)) (idle : B.mode = .idle) : ∃ b', r = .ok b' ∧ B = b'.setMode .idle := by
  obtain rfl : s.block.finish r = B := by simpa [State.complete_eq] using h
  cases r with
  | error f => cases idle
  | ok b' => exact ⟨b', rfl, rfl⟩

/-- Settles O39: in mode IDLE the command has written its result, and that result is `Block.CanonicalResult`. -/
theorem resultsAreCanonical : Obligations.ResultsAreCanonical := by
  intro i s B hexec idle
  obtain ⟨r, hr, hcanonical⟩ := exec_eq_complete_canonicalResult i s
  obtain ⟨b', hok, rfl⟩ := State.complete_eq_next_idle (hr ▸ hexec) idle
  have h := hcanonical b' hok
  refine ⟨fun m q hm hq => ⟨fun d w hd hw => ?_, fun d k hd hk => ?_⟩,
    fun m hm => ⟨fun d k hd hk => ?_, fun w hx hw => ?_⟩⟩
  · exact h.scalar m d hm hd q w hq hw
  · exact h.vector m d hm hd q k hq hk
  · exact h.residues m d hm hd k hk
  · exact h.wide m hm hx w hw

end Sys2Proof.Machine
end

section
/-! PROOFS. What the statements about one command share: its illegal forms (60_exceptions R204), its encoding
(30_encoding R90, R97), and the ends of its completion. -/

namespace Sys2Proof

theorem Op.code_injective : Function.Injective Op.code := fun o _ h =>
  Option.some.inj (o.ofCode_code.symm.trans (Op.ofCode_eq_some_iff.mpr h))

/-- A word of fields is the sum of its fields at their places (30_encoding R90). -/
theorem Fields.toNat_toWord (f : Fields) :
    f.toWord.toNat = f.op.toNat * 2 ^ 24 + f.rd.toNat * 2 ^ 20 + f.ra.toNat * 2 ^ 16 + f.rb.toNat * 2 ^ 12 +
      f.rm.toNat * 2 ^ 8 + f.z.toNat := by
  obtain ⟨op, rd, ra, rb, rm, z⟩ := f
  simp only [Fields.toWord, BitVec.toNat_append, ← Nat.shiftLeft_add_eq_or_of_lt (BitVec.isLt _)]
  omega

@[simp] theorem toNat_indexField : ∀ r : Fin 8, (indexField r).toNat = r.val := by decide

end Sys2Proof

namespace Sys2Proof.Machine

/-- A command is encoded by the number its fields give; the encoder sets no reserved bit. -/
theorem encodesAs_of_fields {i : Instr} {o : Op} {d a b m : BitVec 4} (h : i.fields = o.fields d a b m) :
    EncodesAs i o.code.toNat d.toNat a.toNat b.toNat m.toNat := by
  rw [EncodesAs, encode, h, Fields.toNat_toWord]
  simp [Op.fields]

/-- A word with the opcode byte of `o` that breaks the mask rule of `o` decodes to nothing: the decoder accepts a word
only as an encoding of the one opcode that its byte names. -/
theorem illegalFormsRaise (o : Op) : IllegalFormsRaise o := by
  intro s hop hmask
  refine ⟨s.block.raise .illegalCommand s.block.pend, ?_, s.block.enteredFault_raise _ _⟩
  cases hdec : decode s.block.pend with
  | error _ => simp only [completion, hdec, State.complete_eq, Block.finish_error]
  | ok i =>
    obtain ⟨o', ⟨hcode, hwf⟩, -⟩ := decode_eq_ok_iff.mp hdec
    obtain rfl : o = o' := Op.code_injective (hop.symm.trans hcode)
    exact absurd ((encodes_iff_and_mask _ _).mp ⟨hcode, hwf⟩) hmask

/-- Checks that raise a fault end the completion with its code and the command word (60_exceptions R203). -/
theorem raises_of_error {i : Instr} {s : State} {r : Except FaultName (Block s.cfg)} (hexec : exec i s = s.complete r)
    {f : FaultName} (hr : r = .error f) : Raises i s f.code :=
  ⟨s.block.raise f s.block.pend, by rw [hexec, hr]; rfl, s.block.enteredFault_raise f _⟩

/-- A scalar result that fits a word is the value `x[rd]` holds; only `x[rd]` and the mode have changed. -/
theorem runsScalar_of_ok {i : Instr} {s : State} {r : Except FaultName (Block s.cfg)} (hexec : exec i s = s.complete r)
    {rd : XIdx} {n : Nat} (hr : r = .ok (s.block.resultX rd n)) (hn : n < 2 ^ s.cfg.W) :
    RunsScalar i s rd s.block.noinv n :=
  ⟨(s.block.resultX rd n).setMode .idle, BitVec.ofNat s.cfg.W n, by rw [hexec, hr]; rfl, by simp,
    by rw [BitVec.toNat_ofNat, Nat.mod_eq_of_lt hn], rfl, rfl, { s.block.onlyScalar_resultX rd n with }⟩

end Sys2Proof.Machine
end

section
/-! PROOFS. MADD, MSUB and MMUL write the exact sum, difference and product, reduced once (40_scalar_modular R112 to
R114). -/

namespace Sys2Proof.Machine

section
variable {p : Params} {b : Block p} {rd ra rb rm : XIdx} (f : Nat → Nat → Nat → Nat)

theorem Block.scalarOp_empty (h : b.getX ra = none ∨ b.getX rb = none ∨ b.getX rm = none) :
    b.scalarOp f rd ra rb rm = .error .emptyOperand := by
  unfold Block.scalarOp
  cases ha : b.getX ra with
  | none => rw [Block.srcX_none ha, bind_error_eq]
  | some a =>
    rw [Block.srcX_some ha, bind_ok_eq]
    cases hb : b.getX rb with
    | none => rw [Block.srcX_none hb, bind_error_eq]
    | some c =>
      have hm : b.getX rm = none := by simpa [ha, hb] using h
      rw [Block.srcX_some hb, bind_ok_eq, Block.srcX_none hm, bind_error_eq]

theorem Block.scalarOp_some {a c q : Word p} (ha : b.getX ra = some a) (hb : b.getX rb = some c)
    (hm : b.getX rm = some q) :
    b.scalarOp f rd ra rb rm =
      if q = 0 then .error .zeroModulus else .ok (b.resultX rd (f a.toNat c.toNat q.toNat)) := by
  simp only [Block.scalarOp, Block.srcX_some ha, Block.srcX_some hb, Block.srcX_some hm, bind_ok_eq, positiveModulus,
    word_eq_zero_iff]
  by_cases h0 : q.toNat = 0
  · rw [require_false (not_not.mpr h0), bind_error_eq, if_pos h0]
  · rw [require_true h0, bind_ok_eq, if_neg h0]
    rfl

end

theorem Arith.addMod_cast (a b q : Nat) : (Arith.addMod a b q : Int) = ((a : Int) + b) % q := by
  simp [Arith.addMod]

theorem Arith.mulMod_cast (a b q : Nat) : (Arith.mulMod a b q : Int) = ((a : Int) * b) % q := by
  simp [Arith.mulMod]

/-- What R112 to R114 say of a command of format S4: `g a b q` is its exact result reduced modulo `q`. -/
def MeetsScalarRule (i : Instr) (s : State) (rd ra rb rm : XIdx) (g : Int → Int → Int → Int) : Prop :=
  match s.block.getX ra, s.block.getX rb, s.block.getX rm with
  | some a, some b, some q =>
    if q = 0 then Raises i s 0x04 else RunsScalar i s rd s.block.noinv (g a.toNat b.toNat q.toNat)
  | _, _, _ => Raises i s 0x02

/-- A command of the shape `scalarOp f` meets the rule of `g` as soon as `f` computes `g` and answers residues: these
fit a word, since the modulus does. -/
theorem meetsScalarRule_of_scalarOp {f : Nat → Nat → Nat → Nat} (hf : Arith.Reduces f) {g : Int → Int → Int → Int}
    (hg : ∀ (a c : Nat) {q : Nat}, q ≠ 0 → (f a c q : Int) = g a c q) {i : Instr} {s : State} {rd ra rb rm : XIdx}
    (hexec : exec i s = s.complete (s.block.scalarOp f rd ra rb rm)) : MeetsScalarRule i s rd ra rb rm g := by
  unfold MeetsScalarRule
  split
  next a c q ha hb hm =>
    have hr := Block.scalarOp_some f (rd := rd) ha hb hm
    split
    next h0 => exact raises_of_error hexec (hr.trans (if_pos h0))
    next h0 =>
      have hq : q.toNat ≠ 0 := mt (word_eq_zero_iff q).mpr h0
      rw [← hg _ _ hq]
      exact runsScalar_of_ok hexec (hr.trans (if_neg h0)) ((hf hq _ _).trans q.isLt)
  next hempty =>
    refine raises_of_error hexec (Block.scalarOp_empty f ?_)
    by_contra! hvalid
    simp only [Option.ne_none_iff_exists'] at hvalid
    obtain ⟨⟨a, ha⟩, ⟨c, hb⟩, ⟨q, hm⟩⟩ := hvalid
    exact hempty a c q ha hb hm

/-- Settles O9: the sum is exact on the naturals and reduced once. -/
theorem maddAddsExactlyModuloQ : Obligations.MaddAddsExactlyModuloQ :=
  ⟨illegalFormsRaise .MADD, fun s rd ra rb rm =>
    ⟨by simpa [Op.code] using encodesAs_of_fields (i := .madd rd ra rb rm) rfl,
      meetsScalarRule_of_scalarOp Arith.reduces_addMod (g := fun a c q => (a + c) % q)
        (fun a c q _ => Arith.addMod_cast a c q) rfl⟩⟩

/-- Settles O10: `subMod` is the Euclidean remainder of the exact difference. -/
theorem msubSubtractsExactlyModuloQ : Obligations.MsubSubtractsExactlyModuloQ :=
  ⟨illegalFormsRaise .MSUB, fun s rd ra rb rm =>
    ⟨by simpa [Op.code] using encodesAs_of_fields (i := .msub rd ra rb rm) rfl,
      meetsScalarRule_of_scalarOp Arith.reduces_subMod (g := fun a c q => (a - c) % q) Arith.subMod_cast rfl⟩⟩

/-- Settles O11: the product is exact on the naturals and reduced once. -/
theorem mmulMultipliesExactlyModuloQ : Obligations.MmulMultipliesExactlyModuloQ :=
  ⟨illegalFormsRaise .MMUL, fun s rd ra rb rm =>
    ⟨by simpa [Op.code] using encodesAs_of_fields (i := .mmul rd ra rb rm) rfl,
      meetsScalarRule_of_scalarOp Arith.reduces_mulMod (g := fun a c q => a * c % q)
        (fun a c q _ => Arith.mulMod_cast a c q) rfl⟩⟩

end Sys2Proof.Machine
end

section
/-! PROOFS. The modular inverse: the extended Euclidean algorithm finds the greatest common divisor and a coefficient
(41_modular_inverse R122); what `Arith.inverse` finds is therefore exactly the inverse modulo `m`
(`inverse_eq_some_iff`), and MINV writes it (R121, R123). -/

namespace Sys2Proof.Machine.Arith

/-! ### The extended Euclidean algorithm -/

/-- With enough fuel the loop ends with the greatest common divisor, which each of its steps keeps. -/
theorem euclid_fst {fuel r : Nat} (h : r < fuel) (oldR : Nat) (oldS s : Int) :
    (euclid fuel oldR r oldS s).1 = Nat.gcd oldR r := by
  induction fuel generalizing oldR r oldS s with
  | zero => omega
  | succ fuel ih =>
    unfold euclid
    split
    next hr => rw [hr, Nat.gcd_zero_right]
    next hr =>
      have hlt : oldR % r < r := Nat.mod_lt _ (Nat.pos_of_ne_zero hr)
      rw [ih (by omega), Nat.gcd_comm oldR r, Nat.gcd_rec r oldR, Nat.gcd_comm]

/-- The invariant of R122's loop: `a * old_s` is `old_r` and `a * s` is `r`, modulo `m`. It needs no fuel. -/
theorem dvd_euclid {a m : Int} {oldR r : Nat} {oldS s : Int} (hold : m ∣ a * oldS - oldR) (hcur : m ∣ a * s - r)
    (fuel : Nat) : m ∣ a * (euclid fuel oldR r oldS s).2 - (euclid fuel oldR r oldS s).1 := by
  induction fuel generalizing oldR r oldS s with
  | zero => exact hold
  | succ fuel ih =>
    unfold euclid
    split
    next => exact hold
    next =>
      refine ih hcur ?_
      have hdiv : (oldR : Int) = r * (oldR / r : Nat) + (oldR % r : Nat) := by
        exact_mod_cast (Nat.div_add_mod oldR r).symm
      have hstep : a * (oldS - (oldR / r : Nat) * s) - (oldR % r : Nat) =
          a * oldS - oldR - (oldR / r : Nat) * (a * s - r) := by linear_combination hdiv
      rw [hstep]
      exact dvd_sub hold (hcur.mul_left _)

theorem extendedEuclid_fst (a m : Nat) : (extendedEuclid a m).1 = Nat.gcd a m := euclid_fst m.lt_succ_self a 1 0

theorem dvd_extendedEuclid (a m : Nat) : (m : Int) ∣ a * (extendedEuclid a m).2 - Nat.gcd a m := by
  rw [← extendedEuclid_fst]
  exact dvd_euclid (by simp) (by simp) (m + 1)

/-! ### The inverse -/

theorem inverse_eq_none {a m : Nat} (h : Nat.gcd a m ≠ 1) : inverse a m = none := if_pos h

theorem inverse_one (a : Nat) : inverse a 1 = some 0 := by simp [inverse]

/-- Of coprime numbers the inverse is found, and it is one modulo `m`; modulo 1 every number is. -/
theorem exists_inverse_eq_some {a m : Nat} (hm : m ≠ 0) (h : Nat.gcd a m = 1) :
    ∃ x, inverse a m = some x ∧ a * x ≡ 1 [MOD m] := by
  by_cases h1 : m = 1
  · subst h1
    exact ⟨0, inverse_one a, Nat.modEq_one⟩
  · refine ⟨((extendedEuclid a m).2 % m).toNat, by rw [inverse, if_neg (not_not.mpr h), if_neg h1], ?_⟩
    have hdvd := dvd_extendedEuclid a m
    rw [h] at hdvd
    rw [← Int.natCast_modEq_iff, Nat.cast_mul, Int.toNat_of_nonneg (Int.emod_nonneg _ (by exact_mod_cast hm))]
    exact ((Int.mod_modEq _ _).mul_left _).trans (Int.modEq_iff_dvd.mpr hdvd).symm

/-- What the inverse modulo `m` is: the residue `x` with `a * x` congruent to 1 (41_modular_inverse R121, R124). -/
theorem inverse_eq_some_iff {a m x : Nat} (hm : m ≠ 0) : inverse a m = some x ↔ x < m ∧ a * x ≡ 1 [MOD m] := by
  constructor
  · intro hx
    have hgcd : Nat.gcd a m = 1 := by
      by_contra hgcd
      simp [inverse_eq_none hgcd] at hx
    obtain ⟨y, hy, hmul⟩ := exists_inverse_eq_some hm hgcd
    obtain rfl : y = x := Option.some.inj (hy.symm.trans hx)
    exact ⟨inverse_lt hm hx, hmul⟩
  · rintro ⟨hlt, hx⟩
    have hgcd : Nat.gcd a m = 1 := Nat.coprime_of_mul_modEq_one x hx
    obtain ⟨y, hy, hmul⟩ := exists_inverse_eq_some hm hgcd
    have hyx : y ≡ x [MOD m] := (hmul.trans hx.symm).cancel_left_of_coprime ((Nat.gcd_comm m a).trans hgcd)
    rw [hy, hyx.eq_of_lt_of_lt (inverse_lt hm hy) hlt]

/-- The inverse depends on `a` modulo `m` only (41_modular_inverse R123). -/
theorem inverse_congr {a b m : Nat} (hm : m ≠ 0) (h : a ≡ b [MOD m]) : inverse a m = inverse b m := by
  ext x
  have hx : a * x ≡ b * x [MOD m] := h.mul_right x
  rw [inverse_eq_some_iff hm, inverse_eq_some_iff hm]
  exact and_congr_right fun _ => ⟨hx.symm.trans, hx.trans⟩

/-- An inverse's inverse is `a` modulo `m` (41_modular_inverse R123). -/
theorem inverse_inverse {a m x : Nat} (hm : m ≠ 0) (h : inverse a m = some x) : inverse x m = some (a % m) := by
  obtain ⟨-, hx⟩ := (inverse_eq_some_iff hm).mp h
  refine (inverse_eq_some_iff hm).mpr ⟨Nat.mod_lt _ (Nat.pos_of_ne_zero hm), ?_⟩
  calc x * (a % m) ≡ x * a [MOD m] := (Nat.mod_modEq a m).mul_left x
    _ = a * x := Nat.mul_comm x a
    _ ≡ 1 [MOD m] := hx

end Sys2Proof.Machine.Arith

namespace Sys2Proof.Machine

/-- Settles O13: R122's loop ends with the greatest common divisor, and its invariant holds there. -/
theorem extendedEuclidFindsGcdAndCoefficient : Obligations.ExtendedEuclidFindsGcdAndCoefficient :=
  fun a m => ⟨Arith.extendedEuclid_fst a m, Arith.dvd_extendedEuclid a m⟩

/-! ### MINV -/

section
variable {p : Params} {b : Block p} {rd ra rm : XIdx}

theorem Block.inverseOp_empty (h : b.getX ra = none ∨ b.getX rm = none) :
    b.inverseOp rd ra rm = .error .emptyOperand := by
  unfold Block.inverseOp
  cases ha : b.getX ra with
  | none => rw [Block.srcX_none ha, bind_error_eq]
  | some a =>
    have hm : b.getX rm = none := by simpa [ha] using h
    rw [Block.srcX_some ha, bind_ok_eq, Block.srcX_none hm, bind_error_eq]

theorem Block.inverseOp_zero {a m : Word p} (ha : b.getX ra = some a) (hm : b.getX rm = some m) (h0 : m = 0) :
    b.inverseOp rd ra rm = .error .zeroModulus := by
  simp [Block.inverseOp, Block.srcX_some ha, Block.srcX_some hm, positiveModulus, (word_eq_zero_iff m).mp h0]

theorem Block.inverseOp_some {a m : Word p} (ha : b.getX ra = some a) (hm : b.getX rm = some m) (h0 : m.toNat ≠ 0) :
    b.inverseOp rd ra rm = .ok (b.inverseResult rd (Arith.inverse a.toNat m.toNat)) := by
  rw [Block.inverseOp, Block.srcX_some ha, bind_ok_eq, Block.srcX_some hm, bind_ok_eq, positiveModulus,
    require_true h0, bind_ok_eq]
  rfl

end

section
variable {s : State} {rd ra rm : XIdx} {a m : Word s.cfg} (ha : s.block.getX ra = some a)
  (hm : s.block.getX rm = some m) (h0 : m.toNat ≠ 0)
include ha hm h0

theorem exec_minv :
    exec (.minv rd ra rm) s =
      .next (s.withBlock ((s.block.inverseResult rd (Arith.inverse a.toNat m.toNat)).setMode .idle)) := by
  change s.complete (s.block.inverseOp rd ra rm) = _
  rw [Block.inverseOp_some ha hm h0]
  rfl

/-- Where there is an inverse, `x[rd]` holds it and NOINV is 0. -/
theorem runsScalar_minv {x : Nat} (hx : Arith.inverse a.toNat m.toNat = some x) :
    RunsScalar (.minv rd ra rm) s rd false x := by
  have hlt : x < 2 ^ s.cfg.W := (Arith.inverse_lt h0 hx).trans m.isLt
  exact ⟨(s.block.inverseResult rd (some x)).setMode .idle, BitVec.ofNat s.cfg.W x, by rw [exec_minv ha hm h0, hx],
    by simp [Block.inverseResult], by rw [BitVec.toNat_ofNat, Nat.mod_eq_of_lt hlt], rfl, rfl,
    { s.block.onlyScalar_inverseResult rd (some x) with }⟩

/-- Where there is none, `x[rd]` is EMPTY and NOINV is 1. -/
theorem exec_minv_of_inverse_eq_none (hx : Arith.inverse a.toNat m.toNat = none) :
    ∃ B, exec (.minv rd ra rm) s = .next (s.withBlock B) ∧ B.getX rd = none ∧ B.noinv = true ∧ B.mode = .idle ∧
      s.block.OnlyScalar B rd :=
  ⟨(s.block.inverseResult rd none).setMode .idle, by rw [exec_minv ha hm h0, hx],
    by simp [Block.inverseResult], rfl, rfl,
    { s.block.onlyScalar_inverseResult rd none with }⟩

end

/-! ### The other commands -/

/-- The destination of command `i`, whatever its kind, is not EMPTY in `b`. -/
structure Block.DestinationLive {p : Params} (b : Block p) (i : Instr) : Prop where
  scalar : ∀ d, i.destX = some d → b.getX d ≠ none
  vector : ∀ d, i.destV = some d → (b.getV d).len.val ≠ 0
  wide : i.writesXW = true → b.xw ≠ none

section
variable {p : Params} {i : Instr}

theorem Block.destinationLive_resultX {d : XIdx} (hx : i.destX = some d) (hv : i.destV = none)
    (hw : i.writesXW = false) (b : Block p) (n : Nat) : (b.resultX d n).DestinationLive i where
  scalar d' h := by
    obtain rfl := Option.some.inj (hx.symm.trans h)
    simp
  vector := by simp [hv]
  wide := by simp [hw]

/-- A vector result is live when its length is not 0. -/
theorem Block.destinationLive_resultV {d : VIdx} (hv : i.destV = some d) (hx : i.destX = none)
    (hw : i.writesXW = false) (b : Block p) {n : Fin (p.NMAX + 1)} (hn : n.val ≠ 0) (f : Nat → Nat) :
    (b.resultV d n f).DestinationLive i where
  scalar := by simp [hx]
  vector d' h := by
    obtain rfl := Option.some.inj (hv.symm.trans h)
    simpa using hn
  wide := by simp [hw]

theorem Block.destinationLive_resultXW (hx : i.destX = none) (hv : i.destV = none) (b : Block p) (n : Nat) :
    (b.resultXW n).DestinationLive i where
  scalar := by simp [hx]
  vector := by simp [hv]
  wide _ := nofun

end

/-- Every command but MINV is a completion that, when its checks raise nothing, leaves its destination live: a vector
result has the length of a source, which was not EMPTY. -/
theorem exec_eq_complete_destinationLive {i : Instr} (hop : i.op ≠ .MINV) (s : State) :
    ∃ r, exec i s = s.complete r ∧ ∀ b', r = .ok b' → b'.DestinationLive i := by
  cases i <;> refine ⟨_, rfl, fun b' h => ?_⟩
  case madd | msub | mmul =>
    obtain ⟨_, _, _, -, -, -, -, rfl⟩ := Block.scalarOp_ok h
    exact Block.destinationLive_resultX rfl rfl rfl _ _
  case minv => exact absurd rfl hop
  case padd | psub | pmulc | pmuln =>
    obtain ⟨_, ha, -, -, -, -, rfl⟩ := Block.polyBinary_ok h
    exact Block.destinationLive_resultV rfl rfl rfl _ ha _
  case pneg | pred =>
    obtain ⟨_, ha, -, -, rfl⟩ := Block.polyUnary_ok h
    exact Block.destinationLive_resultV rfl rfl rfl _ ha _
  case pnorm =>
    obtain ⟨-, rfl⟩ := Block.normOp_ok h
    exact Block.destinationLive_resultX rfl rfl rfl _ _
  case rcons =>
    obtain ⟨_, hm, -, -, rfl⟩ := Block.constructOp_ok h
    exact Block.destinationLive_resultV rfl rfl rfl _ hm _
  case radd | rsub | rmul =>
    obtain ⟨ha, hlen, -, -, rfl⟩ := Block.rnsBinary_ok h
    exact Block.destinationLive_resultV rfl rfl rfl _ (hlen ▸ ha) _
  case rdecons =>
    obtain ⟨-, -, -, -, -, rfl⟩ := Block.deconstructOp_ok h
    exact Block.destinationLive_resultXW rfl rfl _ _

/-- A command other than MINV that completes in IDLE leaves its destination live. -/
theorem destinationLive_of_exec {i : Instr} (hop : i.op ≠ .MINV) {s : State} {B : Block s.cfg}
    (h : exec i s = .next (s.withBlock B)) (idle : B.mode = .idle) : B.DestinationLive i := by
  obtain ⟨r, hr, hlive⟩ := exec_eq_complete_destinationLive hop s
  obtain ⟨b', hok, rfl⟩ := State.complete_eq_next_idle (hr ▸ h) idle
  exact { hlive b' hok with }

/-- A command other than MINV leaves NOINV as it was, faulting or not. -/
theorem noinv_eq_of_exec {i : Instr} (hop : i.op ≠ .MINV) {s : State} {B : Block s.cfg}
    (h : exec i s = .next (s.withBlock B)) : B.noinv = s.block.noinv := by
  obtain ⟨C, hC, -, -, -, hnoinv, -⟩ := commandWritesOnlyItsDestination i s
  obtain rfl : C = B := by simpa [hC] using h
  exact hnoinv hop

/-! ### The obligations -/

/-- Settles O12: `Arith.inverse` finds exactly the inverse modulo `m`, so its absence and its uniqueness are those of
the result MINV writes. -/
theorem minvReturnsTheUniqueInverseOrEmpty : Obligations.MinvReturnsTheUniqueInverseOrEmpty := by
  refine ⟨illegalFormsRaise .MINV, fun i s B h hop => ⟨noinv_eq_of_exec hop h, fun idle => ?_⟩, fun s rd ra rm =>
    ⟨by simpa [Op.code] using encodesAs_of_fields (i := .minv rd ra rm) rfl, ?_⟩⟩
  · obtain ⟨scalar, vector, wide⟩ := destinationLive_of_exec hop h idle
    exact ⟨scalar, vector, wide⟩
  have hexec : exec (.minv rd ra rm) s = s.complete (s.block.inverseOp rd ra rm) := rfl
  split
  next a m ha hm =>
    split_ifs with hzero hgcd hone
    · exact raises_of_error hexec (Block.inverseOp_zero ha hm hzero)
    all_goals have h0 : m.toNat ≠ 0 := mt (word_eq_zero_iff m).mpr hzero
    · exact exec_minv_of_inverse_eq_none ha hm h0 (Arith.inverse_eq_none hgcd)
    · exact runsScalar_minv ha hm h0 (hone ▸ Arith.inverse_one _)
    · have h1 : 1 % m.toNat = 1 := Nat.mod_eq_of_lt (by omega)
      obtain ⟨x, hx, hmul⟩ := Arith.exists_inverse_eq_some h0 (not_not.mp hgcd)
      refine ⟨x, runsScalar_minv ha hm h0 hx, Arith.inverse_lt h0 hx, Eq.trans hmul h1, fun y hlt hy => ?_⟩
      have hinv := (Arith.inverse_eq_some_iff h0).mpr ⟨hlt, hy.trans h1.symm⟩
      exact Option.some.inj (hinv.symm.trans hx)
  next hempty =>
    refine raises_of_error hexec (Block.inverseOp_empty ?_)
    by_contra! hvalid
    simp only [Option.ne_none_iff_exists'] at hvalid
    obtain ⟨⟨a, ha⟩, ⟨m, hm⟩⟩ := hvalid
    exact hempty a m ha hm

/-- Settles O14: both laws are those of `Arith.inverse`; the second MINV still reads the modulus, as `rd ≠ rm`. -/
theorem minvLaws : Obligations.MinvLaws := by
  refine ⟨fun s rd ra rb rm a b m ha hb hm hzero hmod => ?_, fun s rd re ra rm a m ha hm h2 hgcd hne => ?_⟩
  · have h0 : m.toNat ≠ 0 := mt (word_eq_zero_iff m).mpr hzero
    rw [exec_minv ha hm h0, exec_minv hb hm h0, Arith.inverse_congr h0 hmod]
  · have h0 : m.toNat ≠ 0 := by omega
    obtain ⟨x, hx, -⟩ := Arith.exists_inverse_eq_some h0 hgcd
    obtain ⟨B, w, hB, hw, hval, -, -, only⟩ := runsScalar_minv (rd := rd) ha hm h0 hx
    have hmB : B.getX rm = some m := (only.x rm hne.symm).trans hm
    have hinv : Arith.inverse w.toNat m.toNat = some (a.toNat % m.toNat) := by
      rw [Int.natCast_inj.mp hval, Arith.inverse_inverse h0 hx]
    obtain ⟨C, v, hC, hv, hval', -⟩ := runsScalar_minv (s := s.withBlock B) (rd := re) hw hmB h0 hinv
    exact ⟨B, C, v, hB, hC, hv, Int.natCast_inj.mp hval'⟩

end Sys2Proof.Machine
end

section
/-! PROOFS. The polynomial commands write the exact coefficients, reduced once (42_polynomial R132 to R138). The checks
of format V4 are said once; format V3 is format V4 on one source. -/

namespace Sys2Proof.Machine

/-! ### The command shapes -/

section
variable {p : Params} {b : Block p} {rd ra rb : VIdx} {rm : XIdx}

theorem Block.polyBinary_empty (f : (Nat → Nat) → (Nat → Nat) → Nat → Nat → Nat → Nat)
    (h : (b.getV ra).len.val = 0 ∨ (b.getV rb).len.val = 0 ∨ b.getX rm = none) :
    b.polyBinary f rd ra rb rm = .error .emptyOperand := by
  unfold Block.polyBinary
  by_cases ha : (b.getV ra).len.val = 0
  · rw [Block.srcV_empty ha, bind_error_eq]
  rw [Block.srcV_live ha, bind_ok_eq]
  by_cases hb : (b.getV rb).len.val = 0
  · rw [Block.srcV_empty hb, bind_error_eq]
  have hm : b.getX rm = none := by simpa [ha, hb] using h
  rw [Block.srcV_live hb, bind_ok_eq, Block.srcX_none hm, bind_error_eq]

theorem Block.polyBinary_live (f : (Nat → Nat) → (Nat → Nat) → Nat → Nat → Nat → Nat) {q : Word p}
    (ha : (b.getV ra).len.val ≠ 0) (hb : (b.getV rb).len.val ≠ 0) (hm : b.getX rm = some q) :
    b.polyBinary f rd ra rb rm =
      if (b.getV ra).len ≠ (b.getV rb).len then .error .dimMismatch
      else if q = 0 then .error .zeroModulus
      else .ok (b.resultV rd (b.getV ra).len
        (f (b.getV ra).lane (b.getV rb).lane (b.getV ra).len.val q.toNat)) := by
  simp only [Block.polyBinary, Block.srcV_live ha, Block.srcV_live hb, Block.srcX_some hm, bind_ok_eq, sameLength,
    positiveModulus, word_eq_zero_iff]
  by_cases hlen : (b.getV ra).len = (b.getV rb).len
  · rw [require_true hlen, bind_ok_eq, if_neg (not_not.mpr hlen)]
    by_cases h0 : q.toNat = 0
    · rw [require_false (not_not.mpr h0), bind_error_eq, if_pos h0]
    · rw [require_true h0, bind_ok_eq, if_neg h0]
      rfl
  · rw [require_false hlen, bind_error_eq, if_pos hlen]

theorem Block.normOp_empty {d : XIdx} (h : (b.getV ra).len.val = 0) : b.normOp d ra = .error .emptyOperand := by
  rw [Block.normOp, Block.srcV_empty h, bind_error_eq]

theorem Block.normOp_live {d : XIdx} (h : (b.getV ra).len.val ≠ 0) :
    b.normOp d ra = .ok (b.resultX d (Arith.polyNorm (b.getV ra).lane (b.getV ra).len.val)) := by
  rw [Block.normOp, Block.srcV_live h, bind_ok_eq]
  rfl

/-- A vector result depends on the values below its length only. -/
theorem Block.resultV_congr (b : Block p) (rd : VIdx) {n : Fin (p.NMAX + 1)} {f g : Nat → Nat}
    (h : ∀ k, k < n.val → f k = g k) : b.resultV rd n f = b.resultV rd n g := by
  have hwrite : (b.getV rd).write n f = (b.getV rd).write n g := by
    simp only [VReg.write]
    congr 2
    funext i
    split
    next hi => rw [h _ hi]
    next => rfl
  rw [Block.resultV, hwrite, Block.resultV]

/-- Format V4 with sources of one length is format V3 on the first of them, when the second does not matter to the
coefficients. -/
theorem Block.polyBinary_eq_polyUnary {f : (Nat → Nat) → (Nat → Nat) → Nat → Nat → Nat → Nat}
    {g : (Nat → Nat) → Nat → Nat → Nat} (hlen : (b.getV ra).len = (b.getV rb).len)
    (hfg : ∀ q k, k < (b.getV ra).len.val →
      f (b.getV ra).lane (b.getV rb).lane (b.getV ra).len.val q k = g (b.getV ra).lane q k) :
    b.polyBinary f rd ra rb rm = b.polyUnary g rd ra rm := by
  unfold Block.polyBinary Block.polyUnary
  by_cases ha : (b.getV ra).len.val = 0
  · simp only [Block.srcV_empty ha, bind_error_eq]
  · have hb : (b.getV rb).len.val ≠ 0 := hlen ▸ ha
    have hresult := fun q => b.resultV_congr rd (hfg q)
    simp only [Block.srcV_live ha, Block.srcV_live hb, bind_ok_eq, sameLength, require_true hlen, hresult]

end

/-! ### The coefficients -/

/-- The modelled coefficient function `f` answers the exact integer coefficient `g`, reduced once modulo `q` with the
Euclidean remainder. -/
def Arith.ReducesTo (f : (Nat → Nat) → (Nat → Nat) → Nat → Nat → Nat → Nat)
    (g : (Nat → Nat) → (Nat → Nat) → Nat → Nat → Int) : Prop :=
  ∀ {q : Nat}, q ≠ 0 → ∀ (a c : Nat → Nat) (n k : Nat), (f a c n q k : Int) = g a c n k % q

theorem Arith.ReducesTo.lt {f : (Nat → Nat) → (Nat → Nat) → Nat → Nat → Nat → Nat}
    {g : (Nat → Nat) → (Nat → Nat) → Nat → Nat → Int} (h : Arith.ReducesTo f g) {q : Nat} (hq : q ≠ 0)
    (a c : Nat → Nat) (n k : Nat) : f a c n q k < q := by
  have hcast := h hq a c n k
  have hlt := Int.emod_lt_of_pos (g a c n k) (show (0 : Int) < q by omega)
  omega

theorem Arith.reducesTo_polyAdd : Arith.ReducesTo Arith.polyAdd fun a c _ k => (a k : Int) + c k :=
  fun _ a c _ k => Arith.addMod_cast (a k) (c k) _

theorem Arith.reducesTo_polySub : Arith.ReducesTo Arith.polySub fun a c _ k => (a k : Int) - c k :=
  fun hq a c _ k => Arith.subMod_cast (a k) (c k) hq

theorem Arith.reducesTo_polyNeg :
    Arith.ReducesTo (fun a _ _ q k => Arith.polyNeg a q k) fun a _ _ k => 0 - (a k : Int) :=
  fun hq a _ _ k => Arith.subMod_cast 0 (a k) hq

theorem Arith.reducesTo_polyReduce :
    Arith.ReducesTo (fun a _ _ q k => Arith.polyReduce a q k) fun a _ _ k => (a k : Int) :=
  fun _ a _ _ k => Int.natCast_mod (a k) _

/-- The model's double sum over the selected pairs of lanes is the exact sum over the set of these pairs. -/
theorem Arith.cast_sum_pairs (a c : Nat → Nat) (n : Nat) (sel : Nat → Nat → Prop) [∀ i j, Decidable (sel i j)] :
    ((∑ i ∈ Finset.range n, ∑ j ∈ Finset.range n, if sel i j then a i * c j else 0 : Nat) : Int) =
      ∑ e ∈ (Finset.range n ×ˢ Finset.range n).filter (fun e => sel e.1 e.2), (a e.1 : Int) * c e.2 := by
  rw [Finset.sum_filter, Finset.sum_product]
  push_cast
  rfl

theorem Arith.reducesTo_polyCyclic :
    Arith.ReducesTo Arith.polyCyclic fun a c n k =>
      ∑ e ∈ (Finset.range n ×ˢ Finset.range n).filter (fun e => (e.1 + e.2) % n = k), (a e.1 : Int) * c e.2 := by
  intro q _ a c n k
  rw [Arith.polyCyclic, Int.natCast_mod, Arith.cast_sum_pairs a c n (fun i j => (i + j) % n = k)]

theorem Arith.cast_convolution (a c : Nat → Nat) (n e : Nat) :
    (Arith.convolution a c n e : Int) =
      ∑ t ∈ (Finset.range n ×ˢ Finset.range n).filter (fun t => t.1 + t.2 = e), (a t.1 : Int) * c t.2 :=
  Arith.cast_sum_pairs a c n fun i j => i + j = e

theorem Arith.reducesTo_polyNegacyclic :
    Arith.ReducesTo Arith.polyNegacyclic fun a c n k =>
      (Arith.convolution a c n k : Int) - Arith.convolution a c n (k + n) :=
  fun hq _ _ _ _ => Arith.subMod_cast _ _ hq

/-! ### The completion -/

/-- A vector result that fits its lanes is what `v[rd]` holds; lanes from the length on keep their contents, and only
`v[rd]` and the mode have changed. -/
theorem runsVector_of_ok {i : Instr} {s : State} {r : Except FaultName (Block s.cfg)} (hexec : exec i s = s.complete r)
    {rd : VIdx} {n : Fin (s.cfg.NMAX + 1)} {f : Nat → Nat} (hr : r = .ok (s.block.resultV rd n f))
    (hlt : ∀ k, k < n.val → f k < 2 ^ s.cfg.W) : RunsVector i s rd n.val fun k => f k := by
  refine ⟨(s.block.resultV rd n f).setMode .idle, by rw [hexec, hr]; rfl, ⟨by simp, fun k hk => ?_⟩, rfl,
    { s.block.onlyVector_resultV rd n f with }⟩
  rw [Block.getV_setMode, Block.getV_resultV, if_pos rfl, VReg.lane_write _ _ _ _ hk]
  split
  next hkn => rw [Nat.mod_eq_of_lt (hlt k hkn)]
  next => rfl

section
variable {f : (Nat → Nat) → (Nat → Nat) → Nat → Nat → Nat → Nat} {g : (Nat → Nat) → (Nat → Nat) → Nat → Nat → Int}
  {i : Instr} {s : State} {rd ra rb : VIdx} {rm : XIdx}

/-- Format V4 on live operands of one length and a positive modulus: the residues fit a lane, since the modulus does. -/
theorem runsVector_of_polyBinary (hf : Arith.ReducesTo f g)
    (hexec : exec i s = s.complete (s.block.polyBinary f rd ra rb rm)) {q : Word s.cfg}
    (hm : s.block.getX rm = some q) (h0 : q ≠ 0) (ha : (s.block.getV ra).len.val ≠ 0)
    (hlen : (s.block.getV ra).len = (s.block.getV rb).len) :
    RunsVector i s rd (s.block.getV ra).len.val fun k =>
      g (s.block.getV ra).lane (s.block.getV rb).lane (s.block.getV ra).len.val k % q.toNat := by
  have hq : q.toNat ≠ 0 := mt (word_eq_zero_iff q).mpr h0
  simp only [← hf hq]
  refine runsVector_of_ok hexec ?_ fun k _ => (hf.lt hq _ _ _ k).trans q.isLt
  rw [Block.polyBinary_live f ha (hlen ▸ ha) hm, if_neg (not_not.mpr hlen), if_neg h0]

/-- What R132, R133, R135 and R136 say of a command of format V4: `g` is its exact coefficient. -/
def MeetsPolyRule (i : Instr) (s : State) (rd ra rb : VIdx) (rm : XIdx)
    (g : (Nat → Nat) → (Nat → Nat) → Nat → Nat → Int) : Prop :=
  match s.block.getX rm with
  | none => Raises i s 0x02
  | some q =>
    let a := s.block.getV ra
    let b := s.block.getV rb
    if a.len.val = 0 ∨ b.len.val = 0 then Raises i s 0x02
    else if a.len ≠ b.len then Raises i s 0x03
    else if q = 0 then Raises i s 0x04
    else RunsVector i s rd a.len.val fun k => g a.lane b.lane a.len.val k % q.toNat

theorem meetsPolyRule_of_polyBinary (hf : Arith.ReducesTo f g)
    (hexec : exec i s = s.complete (s.block.polyBinary f rd ra rb rm)) : MeetsPolyRule i s rd ra rb rm g := by
  unfold MeetsPolyRule
  split
  next hm => exact raises_of_error hexec (Block.polyBinary_empty f (.inr (.inr hm)))
  next q hm =>
    dsimp only
    split_ifs with hempty hlen h0
    · exact raises_of_error hexec (Block.polyBinary_empty f (hempty.imp_right .inl))
    all_goals obtain ⟨ha, hb⟩ := not_or.mp hempty
    · exact raises_of_error hexec ((Block.polyBinary_live f ha hb hm).trans (if_pos hlen))
    · exact raises_of_error hexec ((Block.polyBinary_live f ha hb hm).trans ((if_neg hlen).trans (if_pos h0)))
    · exact runsVector_of_polyBinary hf hexec hm h0 ha (not_not.mp hlen)

/-- What R134 and R137 say of a command of format V3: `g` is its exact coefficient. -/
def MeetsUnaryPolyRule (i : Instr) (s : State) (rd ra : VIdx) (rm : XIdx) (g : (Nat → Nat) → Nat → Int) : Prop :=
  match s.block.getX rm with
  | none => Raises i s 0x02
  | some q =>
    let a := s.block.getV ra
    if a.len.val = 0 then Raises i s 0x02
    else if q = 0 then Raises i s 0x04
    else RunsVector i s rd a.len.val fun k => g a.lane k % q.toNat

/-- Format V3 is format V4 with its one source in both places, where lengths never differ. -/
theorem exec_eq_complete_polyBinary_self {u : (Nat → Nat) → Nat → Nat → Nat}
    (hexec : exec i s = s.complete (s.block.polyUnary u rd ra rm)) :
    exec i s = s.complete (s.block.polyBinary (fun a _ _ q k => u a q k) rd ra ra rm) := by
  rw [hexec, Block.polyBinary_eq_polyUnary rfl fun _ _ _ => rfl]

theorem meetsUnaryPolyRule_of_polyUnary {u : (Nat → Nat) → Nat → Nat → Nat} {v : (Nat → Nat) → Nat → Int}
    (hu : Arith.ReducesTo (fun a _ _ q k => u a q k) fun a _ _ k => v a k)
    (hexec : exec i s = s.complete (s.block.polyUnary u rd ra rm)) : MeetsUnaryPolyRule i s rd ra rm v := by
  have h := meetsPolyRule_of_polyBinary hu (exec_eq_complete_polyBinary_self hexec)
  unfold MeetsPolyRule at h
  unfold MeetsUnaryPolyRule
  cases hm : s.block.getX rm with
  | none => simpa only [hm] using h
  | some q => simpa only [hm, or_self, ne_eq, not_true_eq_false, if_false] using h

end

/-! ### The obligations -/

/-- Settles O15: each lane is the exact sum of the two lanes, reduced once. -/
theorem paddAddsCoefficients : Obligations.PaddAddsCoefficients :=
  ⟨illegalFormsRaise .PADD, fun s rd ra rb rm =>
    ⟨by simpa [Op.code] using encodesAs_of_fields (i := .padd rd ra rb rm) rfl,
      meetsPolyRule_of_polyBinary Arith.reducesTo_polyAdd rfl⟩⟩

/-- Settles O16: each lane is the Euclidean remainder of the exact difference. -/
theorem psubSubtractsCoefficients : Obligations.PsubSubtractsCoefficients :=
  ⟨illegalFormsRaise .PSUB, fun s rd ra rb rm =>
    ⟨by simpa [Op.code] using encodesAs_of_fields (i := .psub rd ra rb rm) rfl,
      meetsPolyRule_of_polyBinary Arith.reducesTo_polySub rfl⟩⟩

/-- Settles O17: each lane is the Euclidean remainder of the negated lane. -/
theorem pnegNegatesCoefficients : Obligations.PnegNegatesCoefficients :=
  ⟨illegalFormsRaise .PNEG, fun s rd ra rm =>
    ⟨by simpa [Op.code] using encodesAs_of_fields (i := .pneg rd ra rm) rfl,
      meetsUnaryPolyRule_of_polyUnary (v := fun a k => 0 - (a k : Int)) Arith.reducesTo_polyNeg rfl⟩⟩

/-- Settles O18: the double sum over the pairs that wrap to `k` is the sum over the set of these pairs. -/
theorem pmulcConvolvesCyclically : Obligations.PmulcConvolvesCyclically :=
  ⟨illegalFormsRaise .PMULC, fun s rd ra rb rm =>
    ⟨by simpa [Op.code] using encodesAs_of_fields (i := .pmulc rd ra rb rm) rfl,
      meetsPolyRule_of_polyBinary Arith.reducesTo_polyCyclic rfl⟩⟩

/-- Settles O19: `lo[k]` and `hi[k]` are the convolution at `k` and at `k + n`. -/
theorem pmulnConvolvesNegacyclically : Obligations.PmulnConvolvesNegacyclically := by
  refine ⟨illegalFormsRaise .PMULN, fun s rd ra rb rm =>
    ⟨by simpa [Op.code] using encodesAs_of_fields (i := .pmuln rd ra rb rm) rfl, ?_⟩⟩
  have h := meetsPolyRule_of_polyBinary (i := .pmuln rd ra rb rm) (s := s) Arith.reducesTo_polyNegacyclic rfl
  simp only [Arith.cast_convolution] at h
  exact h

/-- Settles O20: each lane is the remainder of the lane. -/
theorem predReducesCoefficients : Obligations.PredReducesCoefficients :=
  ⟨illegalFormsRaise .PRED, fun s rd ra rm =>
    ⟨by simpa [Op.code] using encodesAs_of_fields (i := .pred rd ra rm) rfl,
      meetsUnaryPolyRule_of_polyUnary (v := fun a k => (a k : Int)) Arith.reducesTo_polyReduce rfl⟩⟩

/-- Settles O21: the maximum of the live lanes is one of them, so it fits `x[rd]`. -/
theorem pnormIsTheLargestLiveLane : Obligations.PnormIsTheLargestLiveLane := by
  refine ⟨illegalFormsRaise .PNORM, fun s rd ra =>
    ⟨by simpa [Op.code] using encodesAs_of_fields (i := .pnorm rd ra) rfl, ?_⟩⟩
  have hexec : exec (.pnorm rd ra) s = s.complete (s.block.normOp rd ra) := rfl
  dsimp only
  split_ifs with hempty
  · exact raises_of_error hexec (Block.normOp_empty hempty)
  · obtain ⟨i, hi, hmax⟩ := Finset.exists_mem_eq_sup _ (Finset.nonempty_range_iff.mpr hempty) (s.block.getV ra).lane
    refine ⟨_, runsScalar_of_ok hexec (Block.normOp_live hempty) ?_, fun k hk => ?_, i, Finset.mem_range.mp hi,
      hmax.symm⟩
    · exact hmax.trans_lt (VReg.lane_lt _ i)
    · exact Finset.le_sup (f := (s.block.getV ra).lane) (Finset.mem_range.mpr hk)

end Sys2Proof.Machine
end

section
/-! PROOFS. The laws of the polynomial commands (42_polynomial R140). Both products are one fold of the convolution at
`n`, with the wrapped coefficients counted `1` or `-1` times, which is the product modulo `x^n - 1` or `x^n + 1`; sums
and products commute, faults included; `1` is the identity up to reduction; subtraction adds the additive inverse. -/

namespace Sys2Proof.Machine

/-! ### The convolution -/

/-- Entry `k < n` of the cyclic product is the convolution folded once: two indexes below `n` wrap at most once. -/
theorem Arith.sum_cyclic_eq_convolution_add (a c : Nat → Nat) {n k : Nat} (hk : k < n) :
    (∑ i ∈ Finset.range n, ∑ j ∈ Finset.range n, if (i + j) % n = k then a i * c j else 0) =
      Arith.convolution a c n k + Arith.convolution a c n (k + n) := by
  simp only [Arith.convolution, ← Finset.sum_add_distrib]
  refine Finset.sum_congr rfl fun i hi => Finset.sum_congr rfl fun j hj => ?_
  rw [Finset.mem_range] at hi hj
  have hwrap : (i + j) % n = if n ≤ i + j then i + j - n else i + j := by
    rw [Nat.add_mod_eq_ite, Nat.mod_eq_of_lt hi, Nat.mod_eq_of_lt hj]
  split_ifs at hwrap ⊢ <;> omega

theorem Arith.convolution_comm (a c : Nat → Nat) (n e : Nat) :
    Arith.convolution a c n e = Arith.convolution c a n e := by
  unfold Arith.convolution
  rw [Finset.sum_comm]
  simp only [Nat.add_comm, Nat.mul_comm]

section
variable {R : Type} [CommRing R] (x : R)

/-- The polynomial with the first `n` lanes as coefficients, at `x`. -/
def Arith.polyAt (a : Nat → Nat) (n : Nat) : R := ∑ i ∈ Finset.range n, (a i : R) * x ^ i

/-- The convolution gives the coefficients of the product. -/
theorem Arith.polyAt_mul (a c : Nat → Nat) (n : Nat) :
    Arith.polyAt x a n * Arith.polyAt x c n = Arith.polyAt x (Arith.convolution a c n) (n + n) := by
  have hpick : ∀ i ∈ Finset.range n, ∀ j ∈ Finset.range n,
      ∑ e ∈ Finset.range (n + n), (if i + j = e then (a i * c j : R) else 0) * x ^ e = a i * x ^ i * (c j * x ^ j) := by
    intro i hi j hj
    have hlt : i + j < n + n := Nat.add_lt_add (Finset.mem_range.mp hi) (Finset.mem_range.mp hj)
    simp only [ite_mul, zero_mul, Finset.sum_ite_eq, Finset.mem_range, hlt, if_true]
    ring
  simp only [Arith.polyAt, Arith.convolution, Finset.sum_mul_sum]
  push_cast
  simp only [Finset.sum_mul]
  symm
  rw [Finset.sum_comm]
  refine Finset.sum_congr rfl fun i hi => ?_
  rw [Finset.sum_comm]
  exact Finset.sum_congr rfl fun j hj => hpick i hi j hj

/-- Folding the upper half of the convolution onto the lower, counted `u` times, is reduction modulo `x^n - u`. -/
theorem Arith.dvd_polyAt_mul_sub {u : R} {a c r : Nat → Nat} {n : Nat}
    (hr : ∀ k, k < n → (r k : R) = Arith.convolution a c n k + u * Arith.convolution a c n (k + n)) :
    x ^ n - u ∣ Arith.polyAt x a n * Arith.polyAt x c n - Arith.polyAt x r n := by
  refine ⟨∑ k ∈ Finset.range n, (Arith.convolution a c n (k + n) : R) * x ^ k, ?_⟩
  have hfold : Arith.polyAt x r n =
      ∑ k ∈ Finset.range n, ((Arith.convolution a c n k : R) + u * Arith.convolution a c n (k + n)) * x ^ k :=
    Finset.sum_congr rfl fun k hk => by rw [hr k (Finset.mem_range.mp hk)]
  rw [Arith.polyAt_mul, Arith.polyAt, Finset.sum_range_add, hfold, Finset.mul_sum, ← Finset.sum_add_distrib,
    ← Finset.sum_sub_distrib]
  refine Finset.sum_congr rfl fun k _ => ?_
  rw [Nat.add_comm n k]
  ring

end

/-! ### The two products -/

/-- A lane that is the remainder of an exact value modulo `q` is this value over `Z_q`. -/
theorem cast_lane_of_eq_emod {q l : Nat} {z : Int} (h : (l : Int) = z % q) :
    (l : Polynomial (ZMod q)) = (z : Polynomial (ZMod q)) := by
  have hz : (l : ZMod q) = (z : ZMod q) := by rw [← Int.cast_natCast, h, ZMod.intCast_mod]
  simpa using congrArg Polynomial.C hz

/-- The lanes below the length of a vector result. -/
theorem Block.VectorResult.lane_eq {p : Params} {b b' : Block p} {rd : VIdx} {n : Nat} {f : Nat → Int}
    (h : b.VectorResult b' rd n f) {k : Nat} (hk : k < n) : ((b'.getV rd).lane k : Int) = f k := by
  obtain ⟨hlen, hlane⟩ := h
  rw [hlane k (by omega), if_pos hk]

/-- A command of format V4 whose exact coefficients are the convolution folded once, the wrapped part counted `u` times,
multiplies the operand polynomials modulo `x^n - u`. -/
theorem exists_dvd_of_polyBinary {f : (Nat → Nat) → (Nat → Nat) → Nat → Nat → Nat → Nat}
    {g : (Nat → Nat) → (Nat → Nat) → Nat → Nat → Int} (hf : Arith.ReducesTo f g) (u : Int)
    (hg : ∀ (a c : Nat → Nat) (n k : Nat), k < n →
      g a c n k = Arith.convolution a c n k + u * Arith.convolution a c n (k + n))
    {i : Instr} {s : State} {rd ra rb : VIdx} {rm : XIdx}
    (hexec : exec i s = s.complete (s.block.polyBinary f rd ra rb rm)) {q : Word s.cfg}
    (hm : s.block.getX rm = some q) (h0 : q ≠ 0) (ha : (s.block.getV ra).len.val ≠ 0)
    (hlen : (s.block.getV ra).len = (s.block.getV rb).len) :
    ∃ B, exec i s = .next (s.withBlock B) ∧ (B.getV rd).len = (s.block.getV ra).len ∧
      let n := (s.block.getV ra).len.val
      let poly : VReg s.cfg → Polynomial (ZMod q.toNat) := fun r => Arith.polyAt Polynomial.X r.lane n
      (Polynomial.X ^ n - (u : Polynomial (ZMod q.toNat))) ∣
        poly (s.block.getV ra) * poly (s.block.getV rb) - poly (B.getV rd) := by
  obtain ⟨B, hB, hres, -, -⟩ := runsVector_of_polyBinary hf hexec hm h0 ha hlen
  refine ⟨B, hB, Fin.ext hres.1, Arith.dvd_polyAt_mul_sub _ fun k hk => ?_⟩
  rw [cast_lane_of_eq_emod (hres.lane_eq hk), hg _ _ _ _ hk]
  push_cast
  rfl

/-- The lanes' polynomial as the statements write it. -/
theorem polyAt_X_eq_sum_C {p : Params} (r : VReg p) (q n : Nat) :
    Arith.polyAt (Polynomial.X : Polynomial (ZMod q)) r.lane n =
      ∑ i ∈ Finset.range n, Polynomial.C (r.lane i : ZMod q) * Polynomial.X ^ i := by
  simp only [Arith.polyAt, map_natCast]

/-- Settles O22: the wrapped products count `-1` times. -/
theorem pmulnIsTheProductModXnPlusOne : Obligations.PmulnIsTheProductModXnPlusOne := by
  intro s rd ra rb rm q hm h0 ha hlen
  have h := exists_dvd_of_polyBinary (i := .pmuln rd ra rb rm) Arith.reducesTo_polyNegacyclic (-1)
    (fun a c n k _ => by ring) rfl hm h0 ha hlen
  simpa only [polyAt_X_eq_sum_C, Int.cast_neg, Int.cast_one, sub_neg_eq_add] using h

/-- The exact coefficient of PMULC is the convolution folded once. -/
theorem Arith.sum_filter_cyclic_eq (a c : Nat → Nat) (n k : Nat) (hk : k < n) :
    ∑ e ∈ (Finset.range n ×ˢ Finset.range n).filter (fun e => (e.1 + e.2) % n = k), (a e.1 : Int) * c e.2 =
      Arith.convolution a c n k + (1 : Int) * Arith.convolution a c n (k + n) := by
  rw [← Arith.cast_sum_pairs a c n fun i j => (i + j) % n = k, Arith.sum_cyclic_eq_convolution_add a c hk, one_mul,
    Nat.cast_add]

/-- Settles O23: the wrapped products count once, as the others. -/
theorem pmulcIsTheProductModXnMinusOne : Obligations.PmulcIsTheProductModXnMinusOne := by
  intro s rd ra rb rm q hm h0 ha hlen
  have h := exists_dvd_of_polyBinary (i := .pmulc rd ra rb rm) Arith.reducesTo_polyCyclic 1
    Arith.sum_filter_cyclic_eq rfl hm h0 ha hlen
  simpa only [polyAt_X_eq_sum_C, Int.cast_one] using h

/-! ### The polynomial 1 -/

theorem Arith.subMod_zero (a q : Nat) : Arith.subMod a 0 q = a % q := by
  rw [Arith.subMod, Nat.cast_zero, sub_zero, ← Int.natCast_mod, Int.toNat_natCast]

section
variable (a : Nat → Nat) {e : Nat → Nat} {n : Nat} (hone : e 0 = 1) (hzero : ∀ i, 0 < i → i < n → e i = 0)
include hone hzero

/-- Convolution with the polynomial `1` gives the lanes back and nothing wrapped. -/
theorem Arith.convolution_one (t : Nat) : Arith.convolution a e n t = if t < n then a t else 0 := by
  have hrow : ∀ i ∈ Finset.range n,
      (∑ j ∈ Finset.range n, if i + j = t then a i * e j else 0) = if t = i then a i else 0 := by
    intro i hi
    have h0 : 0 ∈ Finset.range n := Finset.mem_range.mpr ((Nat.zero_le i).trans_lt (Finset.mem_range.mp hi))
    rw [Finset.sum_eq_single_of_mem 0 h0 fun j hj hj0 => ?_]
    · simp only [Nat.add_zero, hone, Nat.mul_one, eq_comm]
    · rw [hzero j (Nat.pos_of_ne_zero hj0) (Finset.mem_range.mp hj), Nat.mul_zero, ite_self]
  rw [Arith.convolution, Finset.sum_congr rfl hrow, Finset.sum_ite_eq]
  simp only [Finset.mem_range]

theorem Arith.polyNegacyclic_one (q : Nat) {k : Nat} (hk : k < n) :
    Arith.polyNegacyclic a e n q k = Arith.polyReduce a q k := by
  rw [Arith.polyNegacyclic, Arith.convolution_one a hone hzero, Arith.convolution_one a hone hzero, if_pos hk,
    if_neg (by omega), Arith.subMod_zero, Arith.polyReduce]

theorem Arith.polyCyclic_one (q : Nat) {k : Nat} (hk : k < n) :
    Arith.polyCyclic a e n q k = Arith.polyReduce a q k := by
  rw [Arith.polyCyclic, Arith.sum_cyclic_eq_convolution_add a e hk, Arith.convolution_one a hone hzero,
    Arith.convolution_one a hone hzero, if_pos hk, if_neg (by omega), Nat.add_zero, Arith.polyReduce]

end

/-- Settles O24: with `1` as second operand every coefficient is a lane reduced, and the checks of format V4 are those of
format V3. -/
theorem multiplyingByOneIsReduction : Obligations.MultiplyingByOneIsReduction := by
  intro s rd ra re rm hlen hone hzero
  rw [hlen] at hzero
  exact ⟨congrArg s.complete (Block.polyBinary_eq_polyUnary hlen.symm fun q _ => Arith.polyNegacyclic_one _ hone hzero q),
    congrArg s.complete (Block.polyBinary_eq_polyUnary hlen.symm fun q _ => Arith.polyCyclic_one _ hone hzero q)⟩

/-! ### The additive inverse -/

/-- Settles O25: the residue of the negated lane may stand for the negated lane under the remainder; `v[ra]` and the
modulus are read as they were, since PNEG has written `v[rn]` only. -/
theorem psubIsPaddOfPneg : Obligations.PsubIsPaddOfPneg := by
  intro s rd rn ra rb rm q hm h0 ha hlen hne
  obtain ⟨B, hB, hneg, -, only⟩ := runsVector_of_polyBinary (i := .pneg rn rb rm) Arith.reducesTo_polyNeg
    (exec_eq_complete_polyBinary_self rfl) hm h0 (hlen ▸ ha) rfl
  have haB : B.getV ra = s.block.getV ra := only.v ra hne.symm
  have hlenB : (B.getV ra).len = (B.getV rn).len := by rw [haB, hlen]; exact Fin.ext hneg.1.symm
  obtain ⟨C, hC, hadd, -, -⟩ := runsVector_of_polyBinary (s := s.withBlock B) (i := .padd rd ra rn rm)
    Arith.reducesTo_polyAdd rfl ((Block.getX_of_x_eq only.x rm).trans hm) h0 (haB ▸ ha) hlenB
  obtain ⟨D, hD, hsub, -, -⟩ := runsVector_of_polyBinary (i := .psub rd ra rb rm) Arith.reducesTo_polySub rfl hm h0 ha
    hlen
  refine ⟨B, C, D, hB, hC, hD, fun k hk => Int.natCast_inj.mp ?_⟩
  calc ((C.getV rd).lane k : Int)
      = (((B.getV ra).lane k : Int) + (B.getV rn).lane k) % q.toNat := hadd.lane_eq (haB ▸ hk)
    _ = ((s.block.getV ra).lane k + (0 - (s.block.getV rb).lane k) % q.toNat) % q.toNat := by
        rw [haB, hneg.lane_eq (hlen ▸ hk)]
    _ = ((s.block.getV ra).lane k - (s.block.getV rb).lane k) % q.toNat := by
        rw [Int.add_emod_emod, zero_sub, sub_eq_add_neg]
    _ = (D.getV rd).lane k := (hsub.lane_eq hk).symm

/-! ### Exchanging the operands -/

/-- The only fault that `m` can raise is `f`. -/
def RaisesOnly (f : FaultName) {α : Type} (m : Except FaultName α) : Prop := ∀ g, m = .error g → g = f

/-- Two parts of a sequence that can raise one and the same fault only may be exchanged. -/
theorem RaisesOnly.bind_comm {f : FaultName} {α β γ : Type} {m : Except FaultName α} {n : Except FaultName β}
    (hm : RaisesOnly f m) (hn : RaisesOnly f n) (k : α → β → Except FaultName γ) :
    (m >>= fun a => n >>= fun c => k a c) = (n >>= fun c => m >>= fun a => k a c) := by
  cases m with
  | ok a => rfl
  | error g =>
    cases n with
    | ok c => rfl
    | error g' => exact congrArg Except.error ((hm g rfl).trans (hn g' rfl).symm)

section
variable {p : Params} (b : Block p)

theorem Block.raisesOnly_srcX (i : XIdx) : RaisesOnly .emptyOperand (b.srcX i) := fun g h =>
  ((b.srcX_error_iff i g).mp h).2

theorem Block.raisesOnly_srcV (r : VIdx) : RaisesOnly .emptyOperand (b.srcV r) := fun g h =>
  ((b.srcV_error_iff r g).mp h).2

theorem raisesOnly_sameLength (r t : VReg p) : RaisesOnly .dimMismatch (sameLength r t) := fun g h =>
  ((require_eq_error _ _ g).mp h).2.symm

theorem Block.scalarOp_comm {f : Nat → Nat → Nat → Nat} (hf : ∀ a c q, f a c q = f c a q) (rd ra rb rm : XIdx) :
    b.scalarOp f rd ra rb rm = b.scalarOp f rd rb ra rm := by
  unfold Block.scalarOp
  rw [(b.raisesOnly_srcX ra).bind_comm (b.raisesOnly_srcX rb)]
  simp only [hf]

theorem Block.polyBinary_comm {f : (Nat → Nat) → (Nat → Nat) → Nat → Nat → Nat → Nat}
    (hf : ∀ a c n q k, f a c n q k = f c a n q k) (rd ra rb : VIdx) (rm : XIdx) :
    b.polyBinary f rd ra rb rm = b.polyBinary f rd rb ra rm := by
  have hswap : ∀ (t u : VReg p) (q : Nat),
      (sameLength t u >>= fun _ => positiveModulus q >>= fun _ =>
          Except.ok (b.resultV rd t.len (f t.lane u.lane t.len.val q))) =
        (sameLength u t >>= fun _ => positiveModulus q >>= fun _ =>
          Except.ok (b.resultV rd u.len (f u.lane t.lane u.len.val q))) := by
    intro t u q
    by_cases hlen : t.len = u.len
    · have hcoef : f t.lane u.lane u.len.val q = f u.lane t.lane u.len.val q := funext (hf _ _ _ _)
      simp only [sameLength, hlen, hcoef]
    · simp only [sameLength, require_false hlen, require_false (Ne.symm hlen), bind_error_eq]
  unfold Block.polyBinary
  rw [(b.raisesOnly_srcV ra).bind_comm (b.raisesOnly_srcV rb)]
  exact bind_congr fun u => bind_congr fun t => bind_congr fun q => hswap t u q

theorem Block.rnsBinary_comm {f : Nat → Nat → Nat → Nat} (hf : ∀ a c q, f a c q = f c a q) (rd ra rb rm : VIdx) :
    b.rnsBinary f rd ra rb rm = b.rnsBinary f rd rb ra rm := by
  unfold Block.rnsBinary
  rw [(b.raisesOnly_srcV ra).bind_comm (b.raisesOnly_srcV rb)]
  refine bind_congr fun u => bind_congr fun t => bind_congr fun m => ?_
  rw [(raisesOnly_sameLength t m).bind_comm (raisesOnly_sameLength u m)]
  simp only [hf]

end

theorem Arith.addMod_comm (a c q : Nat) : Arith.addMod a c q = Arith.addMod c a q := by
  rw [Arith.addMod, Nat.add_comm, Arith.addMod]

theorem Arith.mulMod_comm (a c q : Nat) : Arith.mulMod a c q = Arith.mulMod c a q := by
  rw [Arith.mulMod, Nat.mul_comm, Arith.mulMod]

theorem Arith.polyCyclic_comm (a c : Nat → Nat) (n q k : Nat) :
    Arith.polyCyclic a c n q k = Arith.polyCyclic c a n q k := by
  unfold Arith.polyCyclic
  rw [Finset.sum_comm]
  simp only [Nat.add_comm, Nat.mul_comm]

theorem Arith.polyNegacyclic_comm (a c : Nat → Nat) (n q k : Nat) :
    Arith.polyNegacyclic a c n q k = Arith.polyNegacyclic c a n q k := by
  simp only [Arith.polyNegacyclic, Arith.convolution_comm a c]

/-- Settles O26: the two sources raise the same faults in either order, and the arithmetic commutes. -/
theorem sumsAndProductsCommute : Obligations.SumsAndProductsCommute := fun s rd ra rb rm =>
  ⟨congrArg s.complete (s.block.scalarOp_comm Arith.addMod_comm rd ra rb rm),
    congrArg s.complete (s.block.scalarOp_comm Arith.mulMod_comm rd ra rb rm),
    congrArg s.complete (s.block.polyBinary_comm (fun a c _ q k => Arith.addMod_comm (a k) (c k) q) rd ra rb rm),
    congrArg s.complete (s.block.polyBinary_comm Arith.polyCyclic_comm rd ra rb rm),
    congrArg s.complete (s.block.polyBinary_comm Arith.polyNegacyclic_comm rd ra rb rm),
    congrArg s.complete (s.block.rnsBinary_comm Arith.addMod_comm rd ra rb rm),
    congrArg s.complete (s.block.rnsBinary_comm Arith.mulMod_comm rd ra rb rm)⟩

end Sys2Proof.Machine
end

section
/-! PROOFS. The Chinese remainder theorem of the direct formula (43_rns_crt R156, R158, R160): for positive moduli with
all inverses the formula has the given residues (`crtValue_modEq`), and for pairwise-coprime moduli every integer with
these residues is it, modulo `Q` (`cast_crtValue`). -/

namespace Sys2Proof.Machine.Arith

theorem inverse_isSome_iff {a m : Nat} (hm : m ≠ 0) : (inverse a m).isSome = true ↔ Nat.gcd a m = 1 := by
  by_cases h : Nat.gcd a m = 1
  · obtain ⟨x, hx, -⟩ := exists_inverse_eq_some hm h
    simp [hx, h]
  · simp [inverse_eq_none h, h]

/-- `M_i`, the inverse of `Q_i` modulo `m_i` (43_rns_crt R156), as it stands in `crtValue`. -/
def crtMi (m : Nat → Nat) (k i : Nat) : Nat := (inverse (crtQi m k i) (m i)).getD 0

/-- The moduli are pairwise coprime (43_rns_crt R158). -/
def PairwiseCoprime (m : Nat → Nat) (k : Nat) : Prop :=
  ∀ i j, i < k → j < k → i ≠ j → Nat.gcd (m i) (m j) = 1

theorem dvd_crtQ (m : Nat → Nat) {k i : Nat} (hi : i < k) : m i ∣ crtQ m k :=
  Finset.dvd_prod_of_mem m (Finset.mem_range.mpr hi)

section
variable {m : Nat → Nat} {k : Nat} (hm : ∀ i, i < k → m i ≠ 0)
include hm

/-- `Q_i` is the product of the other moduli (43_rns_crt R156). -/
theorem crtQi_eq_prod_erase {i : Nat} (hi : i < k) : crtQi m k i = ∏ j ∈ (Finset.range k).erase i, m j := by
  rw [crtQi, crtQ, ← Finset.mul_prod_erase _ m (Finset.mem_range.mpr hi),
    Nat.mul_div_cancel_left _ (Nat.pos_of_ne_zero (hm i hi))]

/-- The formula as the statements write it (43_rns_crt R156). -/
theorem crtValue_eq_sum_prod_erase (r : Nat → Nat) :
    crtValue r m k = (∑ i ∈ Finset.range k, r i * (∏ j ∈ (Finset.range k).erase i, m j) * crtMi m k i) %
      ∏ i ∈ Finset.range k, m i :=
  congrArg (· % crtQ m k) (Finset.sum_congr rfl fun i hi => by
    rw [← crtQi_eq_prod_erase hm (Finset.mem_range.mp hi), crtMi])

theorem dvd_crtQi {i j : Nat} (hi : i < k) (hj : j < k) (hij : i ≠ j) : m i ∣ crtQi m k j := by
  rw [crtQi_eq_prod_erase hm hj]
  exact Finset.dvd_prod_of_mem m (Finset.mem_erase.mpr ⟨hij, Finset.mem_range.mpr hi⟩)

theorem crtInvertible_iff :
    crtInvertible m k ↔ ∀ i, i < k → Nat.gcd (∏ j ∈ (Finset.range k).erase i, m j) (m i) = 1 :=
  forall₂_congr fun i hi => by rw [inverse_isSome_iff (hm i hi), crtQi_eq_prod_erase hm hi]

theorem crtMi_spec (hinv : crtInvertible m k) {i : Nat} (hi : i < k) :
    crtMi m k i < m i ∧ crtQi m k i * crtMi m k i ≡ 1 [MOD m i] := by
  obtain ⟨x, hx⟩ := Option.isSome_iff_exists.mp (hinv i hi)
  rw [crtMi, hx]
  exact (inverse_eq_some_iff (hm i hi)).mp hx

/-- `M_i` as R156 defines it: 0 for a modulus of 1, else the residue whose product with `Q_i` is 1. -/
theorem crtMi_eq_zero_or_inverse (hinv : crtInvertible m k) {i : Nat} (hi : i < k) :
    if m i = 1 then crtMi m k i = 0
    else crtMi m k i < m i ∧ ((∏ j ∈ (Finset.range k).erase i, m j) * crtMi m k i) % m i = 1 := by
  obtain ⟨hlt, hmul⟩ := crtMi_spec hm hinv hi
  split
  next h1 => omega
  next h1 =>
    rw [crtQi_eq_prod_erase hm hi, Nat.ModEq, Nat.mod_eq_of_lt (show 1 < m i by omega)] at hmul
    exact ⟨hlt, hmul⟩

/-- The formula has the given residues: modulo `m_i` every term but the one of `i` vanishes, and there `Q_i * M_i` is
1. -/
theorem crtValue_modEq (hinv : crtInvertible m k) (r : Nat → Nat) {i : Nat} (hi : i < k) :
    crtValue r m k ≡ r i [MOD m i] := by
  have hother : ∀ j ∈ Finset.range k, j ≠ i → r j * crtQi m k j * crtMi m k j ≡ 0 [MOD m i] := fun j hj hji =>
    Nat.modEq_zero_iff_dvd.mpr (((dvd_crtQi hm hi (Finset.mem_range.mp hj) hji.symm).mul_left _).mul_right _)
  calc crtValue r m k
      ≡ ∑ j ∈ Finset.range k, r j * crtQi m k j * crtMi m k j [MOD m i] := (Nat.mod_modEq _ _).of_dvd (dvd_crtQ m hi)
    _ ≡ r i * crtQi m k i * crtMi m k i [MOD m i] :=
        Nat.sum_modEq_single (fun hn => absurd (Finset.mem_range.mpr hi) hn) hother
    _ = r i * (crtQi m k i * crtMi m k i) := Nat.mul_assoc _ _ _
    _ ≡ r i * 1 [MOD m i] := (crtMi_spec hm hinv hi).2.mul_left _
    _ = r i := Nat.mul_one _

section
variable (hcop : PairwiseCoprime m k)
include hcop

/-- Pairwise-coprime moduli have all inverses: a modulus is coprime to the product of the others (43_rns_crt R158). -/
theorem PairwiseCoprime.crtInvertible : crtInvertible m k := by
  refine (crtInvertible_iff hm).mpr fun i hi => Nat.coprime_prod_left_iff.mpr fun j hj => ?_
  obtain ⟨hji, hj⟩ := Finset.mem_erase.mp hj
  exact hcop j i (Finset.mem_range.mp hj) hi hji

/-- Every integer with the given residues is the formula's value modulo `Q` (43_rns_crt R157, R160). -/
theorem cast_crtValue {r : Nat → Nat} {z : Int} (hz : ∀ i, i < k → z ≡ r i [ZMOD m i]) :
    (crtValue r m k : Int) = z % crtQ m k := by
  have hmod : z ≡ crtValue r m k [ZMOD crtQ m k] := by
    rw [Int.modEq_iff_dvd, crtQ, Nat.cast_prod]
    refine Finset.prod_dvd_of_coprime (fun i hi j hj hij => ?_) fun i hi => ?_
    · exact Nat.isCoprime_iff_coprime.mpr (hcop i j (by simpa using hi) (by simpa using hj) hij)
    · have hi := Finset.mem_range.mp hi
      have hr := crtValue_modEq hm (PairwiseCoprime.crtInvertible hm hcop) r hi
      exact ((hz i hi).trans (Int.natCast_modEq_iff.mpr hr).symm).dvd
  rw [hmod.eq, Int.emod_eq_of_lt (Int.natCast_nonneg _) (by exact_mod_cast crtValue_lt r hm)]

/-- Below `Q` no other number has the given residues (43_rns_crt R160). -/
theorem eq_crtValue {r : Nat → Nat} {y : Nat} (hy : y < crtQ m k) (hres : ∀ i, i < k → y ≡ r i [MOD m i]) :
    y = crtValue r m k := by
  have hval := cast_crtValue hm hcop fun i hi => Int.natCast_modEq_iff.mpr (hres i hi)
  rw [← Int.natCast_mod, Nat.mod_eq_of_lt hy] at hval
  exact (Int.natCast_inj.mp hval).symm

end

end

end Sys2Proof.Machine.Arith
end

section
/-! PROOFS. The residue commands, every form (43_rns_crt R152 to R156). The checks of R151 are said once per command
shape, in their order; a result fits its register, since it is below a modulus, or below the product of at most `KMAX`
moduli. -/

namespace Sys2Proof.Machine

/-! ### The checks and the command shapes -/

section
variable {p : Params}

/-- A check before the rest of a sequence. -/
theorem require_bind {β : Type} (c : Prop) [Decidable c] (f : FaultName) (k : Unit → Except FaultName β) :
    (require c f >>= k) = if c then k () else .error f := by
  by_cases h : c
  · rw [require_true h, bind_ok_eq, if_pos h]
  · rw [require_false h, bind_error_eq, if_neg h]

variable {b : Block p} {rd ra rb rm : VIdx}

/-- A zero modulus is what the check of positive moduli refuses (60_exceptions R207). -/
theorem VReg.exists_lane_eq_zero_iff (m : VReg p) :
    (∃ i, i < m.len.val ∧ m.lane i = 0) ↔ ¬∀ i, i < m.len.val → m.lane i ≠ 0 := by
  simp only [ne_eq, not_forall, not_not, exists_prop]

theorem Block.constructOp_empty (h : (b.getV rm).len.val = 0 ∨ b.xw = none) :
    b.constructOp rd rm = .error .emptyOperand := by
  unfold Block.constructOp
  by_cases hm : (b.getV rm).len.val = 0
  · rw [Block.srcV_empty hm, bind_error_eq]
  · rw [Block.srcV_live hm, bind_ok_eq, Block.srcXW_none (h.resolve_left hm), bind_error_eq]

theorem Block.constructOp_live {x : BitVec (p.KMAX * p.W)} (hm : (b.getV rm).len.val ≠ 0) (hx : b.xw = some x) :
    b.constructOp rd rm =
      if ∀ i, i < (b.getV rm).len.val → (b.getV rm).lane i ≠ 0 then
        .ok (b.resultV rd (b.getV rm).len fun i => x.toNat % (b.getV rm).lane i)
      else .error .zeroModulus := by
  rw [Block.constructOp, Block.srcV_live hm, bind_ok_eq, Block.srcXW_some hx, bind_ok_eq, positiveModuli, require_bind]
  rfl

theorem Block.rnsBinary_empty (f : Nat → Nat → Nat → Nat)
    (h : (b.getV ra).len.val = 0 ∨ (b.getV rb).len.val = 0 ∨ (b.getV rm).len.val = 0) :
    b.rnsBinary f rd ra rb rm = .error .emptyOperand := by
  unfold Block.rnsBinary
  by_cases ha : (b.getV ra).len.val = 0
  · rw [Block.srcV_empty ha, bind_error_eq]
  rw [Block.srcV_live ha, bind_ok_eq]
  by_cases hb : (b.getV rb).len.val = 0
  · rw [Block.srcV_empty hb, bind_error_eq]
  have hm : (b.getV rm).len.val = 0 := (h.resolve_left ha).resolve_left hb
  rw [Block.srcV_live hb, bind_ok_eq, Block.srcV_empty hm, bind_error_eq]

theorem Block.rnsBinary_live (f : Nat → Nat → Nat → Nat) (ha : (b.getV ra).len.val ≠ 0)
    (hb : (b.getV rb).len.val ≠ 0) (hm : (b.getV rm).len.val ≠ 0) :
    b.rnsBinary f rd ra rb rm =
      if (b.getV ra).len = (b.getV rm).len ∧ (b.getV rb).len = (b.getV rm).len then
        if ∀ i, i < (b.getV rm).len.val → (b.getV rm).lane i ≠ 0 then
          .ok (b.resultV rd (b.getV rm).len fun i => f ((b.getV ra).lane i) ((b.getV rb).lane i) ((b.getV rm).lane i))
        else .error .zeroModulus
      else .error .dimMismatch := by
  simp only [Block.rnsBinary, Block.srcV_live ha, Block.srcV_live hb, Block.srcV_live hm, bind_ok_eq, sameLength,
    positiveModuli, require_bind, ite_and]
  rfl

theorem Block.deconstructOp_empty (h : (b.getV ra).len.val = 0 ∨ (b.getV rm).len.val = 0) :
    b.deconstructOp ra rm = .error .emptyOperand := by
  unfold Block.deconstructOp
  by_cases ha : (b.getV ra).len.val = 0
  · rw [Block.srcV_empty ha, bind_error_eq]
  · rw [Block.srcV_live ha, bind_ok_eq, Block.srcV_empty (h.resolve_left ha), bind_error_eq]

theorem Block.deconstructOp_live (ha : (b.getV ra).len.val ≠ 0) (hm : (b.getV rm).len.val ≠ 0) :
    b.deconstructOp ra rm =
      if (b.getV ra).len = (b.getV rm).len then
        if (b.getV rm).len.val ≤ p.KMAX then
          if ∀ i, i < (b.getV rm).len.val → (b.getV rm).lane i ≠ 0 then
            if Arith.crtInvertible (b.getV rm).lane (b.getV rm).len.val then
              .ok (b.resultXW (Arith.crtValue (b.getV ra).lane (b.getV rm).lane (b.getV rm).len.val))
            else .error .notCoprime
          else .error .zeroModulus
        else .error .lenRange
      else .error .dimMismatch := by
  simp only [Block.deconstructOp, Block.srcV_live ha, Block.srcV_live hm, bind_ok_eq, sameLength, lengthInRange,
    positiveModuli, coprimeModuli, require_bind]
  rfl

/-- The product of at most `KMAX` moduli fits XW (43_rns_crt R156). -/
theorem VReg.crtQ_le (m : VReg p) (hk : m.len.val ≤ p.KMAX) : Arith.crtQ m.lane m.len.val ≤ 2 ^ (p.KMAX * p.W) :=
  calc Arith.crtQ m.lane m.len.val
      ≤ (2 ^ p.W) ^ (Finset.range m.len.val).card := Finset.prod_le_pow_card _ _ _ fun i _ => (m.lane_lt i).le
    _ = 2 ^ (m.len.val * p.W) := by rw [Finset.card_range, ← Nat.pow_mul, Nat.mul_comm]
    _ ≤ 2 ^ (p.KMAX * p.W) := Nat.pow_le_pow_right (by decide) (Nat.mul_le_mul_right _ hk)

end

/-! ### The completion -/

/-- A vector result says nothing of its function from the length on. -/
theorem RunsVector.congr {i : Instr} {s : State} {rd : VIdx} {n : Nat} {f g : Nat → Int}
    (h : RunsVector i s rd n f) (hfg : ∀ k, k < n → f k = g k) : RunsVector i s rd n g := by
  obtain ⟨B, hB, ⟨hlen, hlane⟩, hmode, only⟩ := h
  refine ⟨B, hB, ⟨hlen, fun k hk => ?_⟩, hmode, only⟩
  rw [hlane k hk]
  exact ite_congr rfl (hfg k) fun _ => rfl

/-- A wide result that fits XW is the value XW holds; only XW and the mode have changed. -/
theorem runsWide_of_ok {i : Instr} {s : State} {r : Except FaultName (Block s.cfg)} (hexec : exec i s = s.complete r)
    {n : Nat} (hr : r = .ok (s.block.resultXW n)) (hn : n < 2 ^ (s.cfg.KMAX * s.cfg.W)) : RunsWide i s n :=
  ⟨(s.block.resultXW n).setMode .idle, BitVec.ofNat _ n, by rw [hexec, hr]; rfl, rfl,
    by rw [BitVec.toNat_ofNat, Nat.mod_eq_of_lt hn], rfl, { s.block.onlyWide_resultXW n with }⟩

/-- RCONS of a valid XW with live, positive moduli (43_rns_crt R152). -/
theorem runsVector_rcons {s : State} {rd rm : VIdx} {x : BitVec (s.cfg.KMAX * s.cfg.W)} (hx : s.block.xw = some x)
    (hm : (s.block.getV rm).len.val ≠ 0)
    (h0 : ∀ i, i < (s.block.getV rm).len.val → (s.block.getV rm).lane i ≠ 0) :
    RunsVector (.rcons rd rm) s rd (s.block.getV rm).len.val fun i => (x.toNat : Int) % (s.block.getV rm).lane i :=
  runsVector_of_ok (r := s.block.constructOp rd rm) rfl ((Block.constructOp_live hm hx).trans (if_pos h0)) fun k hk =>
    (Nat.mod_lt _ (Nat.pos_of_ne_zero (h0 k hk))).trans (VReg.lane_lt _ k)

/-- RDECONS whose checks raise nothing (43_rns_crt R156). -/
theorem runsWide_rdecons {s : State} {ra rm : VIdx} (hm : (s.block.getV rm).len.val ≠ 0)
    (hlen : (s.block.getV ra).len = (s.block.getV rm).len) (hk : (s.block.getV rm).len.val ≤ s.cfg.KMAX)
    (h0 : ∀ i, i < (s.block.getV rm).len.val → (s.block.getV rm).lane i ≠ 0)
    (hinv : Arith.crtInvertible (s.block.getV rm).lane (s.block.getV rm).len.val) :
    RunsWide (.rdecons ra rm) s
      (Arith.crtValue (s.block.getV ra).lane (s.block.getV rm).lane (s.block.getV rm).len.val) := by
  have hfits := (Arith.crtValue_lt (s.block.getV ra).lane h0).trans_le (VReg.crtQ_le _ hk)
  refine runsWide_of_ok (r := s.block.deconstructOp ra rm) rfl ?_ hfits
  rw [Block.deconstructOp_live (hlen ▸ hm) hm, if_pos hlen, if_pos hk, if_pos h0, if_pos hinv]

/-! ### The residues, lane by lane -/

/-- The function `f` of two lanes and a modulus answers the exact integer `g`, reduced once with the Euclidean
remainder. -/
def Arith.LaneReducesTo (f : Nat → Nat → Nat → Nat) (g : Int → Int → Int) : Prop :=
  ∀ (a c : Nat) {q : Nat}, q ≠ 0 → (f a c q : Int) = g a c % q

theorem Arith.laneReducesTo_addMod : Arith.LaneReducesTo Arith.addMod fun a c => a + c :=
  fun a c q _ => Arith.addMod_cast a c q

theorem Arith.laneReducesTo_subMod : Arith.LaneReducesTo Arith.subMod fun a c => a - c := Arith.subMod_cast

theorem Arith.laneReducesTo_mulMod : Arith.LaneReducesTo Arith.mulMod fun a c => a * c :=
  fun a c q _ => Arith.mulMod_cast a c q

theorem Arith.LaneReducesTo.lt {f : Nat → Nat → Nat → Nat} {g : Int → Int → Int} (h : Arith.LaneReducesTo f g)
    (a c : Nat) {q : Nat} (hq : q ≠ 0) : f a c q < q := by
  have hcast := h a c hq
  have hlt := Int.emod_lt_of_pos (g a c) (show (0 : Int) < q by omega)
  omega

/-- What R153 to R155 say of a command of format R4: `g` is its exact result per lane. -/
def MeetsRnsRule (i : Instr) (s : State) (rd ra rb rm : VIdx) (g : Int → Int → Int) : Prop :=
  let a := s.block.getV ra
  let b := s.block.getV rb
  let m := s.block.getV rm
  if a.len.val = 0 ∨ b.len.val = 0 ∨ m.len.val = 0 then Raises i s 0x02
  else if ¬(a.len = m.len ∧ b.len = m.len) then Raises i s 0x03
  else if ∃ i, i < m.len.val ∧ m.lane i = 0 then Raises i s 0x04
  else RunsVector i s rd m.len.val fun k => g (a.lane k) (b.lane k) % m.lane k

section
variable {f : Nat → Nat → Nat → Nat} {g : Int → Int → Int} (hf : Arith.LaneReducesTo f g) {i : Instr} {s : State}
  {rd ra rb rm : VIdx} (hexec : exec i s = s.complete (s.block.rnsBinary f rd ra rb rm))
include hf hexec

/-- Format R4 on live residues and positive moduli of one length: a residue fits its lane, since its modulus does. -/
theorem runsVector_of_rnsBinary (hm : (s.block.getV rm).len.val ≠ 0)
    (hlen : (s.block.getV ra).len = (s.block.getV rm).len ∧ (s.block.getV rb).len = (s.block.getV rm).len)
    (h0 : ∀ i, i < (s.block.getV rm).len.val → (s.block.getV rm).lane i ≠ 0) :
    RunsVector i s rd (s.block.getV rm).len.val fun k =>
      g ((s.block.getV ra).lane k) ((s.block.getV rb).lane k) % (s.block.getV rm).lane k := by
  obtain ⟨hla, hlb⟩ := hlen
  have hr := (Block.rnsBinary_live f (rd := rd) (hla ▸ hm) (hlb ▸ hm) hm).trans
    ((if_pos ⟨hla, hlb⟩).trans (if_pos h0))
  have hrun := runsVector_of_ok hexec hr fun k hk => (hf.lt _ _ (h0 k hk)).trans (VReg.lane_lt _ k)
  exact hrun.congr fun k hk => hf _ _ (h0 k hk)

theorem meetsRnsRule_of_rnsBinary : MeetsRnsRule i s rd ra rb rm g := by
  unfold MeetsRnsRule
  dsimp only
  simp only [VReg.exists_lane_eq_zero_iff]
  split_ifs with hempty hlen h0
  · exact raises_of_error hexec (Block.rnsBinary_empty f hempty)
  all_goals
    obtain ⟨ha, hb, hm⟩ : _ ∧ _ ∧ _ := by simpa only [not_or] using hempty
    have hlive := Block.rnsBinary_live f (rd := rd) ha hb hm
  · exact runsVector_of_rnsBinary hf hexec hm hlen h0
  · exact raises_of_error hexec (hlive.trans ((if_pos hlen).trans (if_neg h0)))
  · exact raises_of_error hexec (hlive.trans (if_neg hlen))

end

/-! ### The obligations -/

/-- Settles O28: each lane is XW reduced modulo the lane's modulus. -/
theorem rconsTakesResiduesOfXw : Obligations.RconsTakesResiduesOfXw := by
  refine ⟨illegalFormsRaise .RCONS, fun s rd rm =>
    ⟨by simpa [Op.code] using encodesAs_of_fields (i := .rcons rd rm) rfl, ?_⟩⟩
  have hexec : exec (.rcons rd rm) s = s.complete (s.block.constructOp rd rm) := rfl
  split
  next hx => exact raises_of_error hexec (Block.constructOp_empty (.inr hx))
  next x hx =>
    dsimp only
    simp only [VReg.exists_lane_eq_zero_iff]
    split_ifs with hm h0
    · exact raises_of_error hexec (Block.constructOp_empty (.inl hm))
    · exact runsVector_rcons hx hm h0
    · exact raises_of_error hexec ((Block.constructOp_live hm hx).trans (if_neg h0))

/-- Settles O29: each lane is the exact sum, reduced once by its own modulus. -/
theorem raddAddsResidues : Obligations.RaddAddsResidues :=
  ⟨illegalFormsRaise .RADD, fun s rd ra rb rm =>
    ⟨by simpa [Op.code] using encodesAs_of_fields (i := .radd rd ra rb rm) rfl,
      meetsRnsRule_of_rnsBinary Arith.laneReducesTo_addMod rfl⟩⟩

/-- Settles O30: each lane is the Euclidean remainder of the exact difference by its own modulus. -/
theorem rsubSubtractsResidues : Obligations.RsubSubtractsResidues :=
  ⟨illegalFormsRaise .RSUB, fun s rd ra rb rm =>
    ⟨by simpa [Op.code] using encodesAs_of_fields (i := .rsub rd ra rb rm) rfl,
      meetsRnsRule_of_rnsBinary Arith.laneReducesTo_subMod rfl⟩⟩

/-- Settles O31: each lane is the exact product, reduced once by its own modulus. -/
theorem rmulMultipliesResidues : Obligations.RmulMultipliesResidues :=
  ⟨illegalFormsRaise .RMUL, fun s rd ra rb rm =>
    ⟨by simpa [Op.code] using encodesAs_of_fields (i := .rmul rd ra rb rm) rfl,
      meetsRnsRule_of_rnsBinary Arith.laneReducesTo_mulMod rfl⟩⟩

/-- Settles O32: the checks in their order, then the formula with `Arith.crtMi` as the inverses. -/
theorem rdeconsReconstructsByTheDirectFormula : Obligations.RdeconsReconstructsByTheDirectFormula := by
  refine ⟨illegalFormsRaise .RDECONS, fun s ra rm =>
    ⟨by simpa [Op.code] using encodesAs_of_fields (i := .rdecons ra rm) rfl, ?_⟩⟩
  have hexec : exec (.rdecons ra rm) s = s.complete (s.block.deconstructOp ra rm) := rfl
  dsimp only
  split_ifs with hempty hlen hk h0 hgcd
  · exact raises_of_error hexec (Block.deconstructOp_empty hempty)
  all_goals
    obtain ⟨ha, hm⟩ := not_or.mp hempty
    have hlive := Block.deconstructOp_live ha hm
  · exact raises_of_error hexec (hlive.trans (if_neg hlen))
  all_goals rw [if_pos (not_not.mp hlen)] at hlive
  · exact raises_of_error hexec (hlive.trans (if_neg (not_le.mpr hk)))
  all_goals
    rw [if_pos (not_lt.mp hk)] at hlive
    rw [VReg.exists_lane_eq_zero_iff] at h0
  · exact raises_of_error hexec (hlive.trans (if_neg h0))
  all_goals
    rw [not_not] at h0
    rw [if_pos h0] at hlive
  · refine raises_of_error hexec (hlive.trans (if_neg fun hinv => ?_))
    obtain ⟨i, hi, hne⟩ := hgcd
    exact hne ((Arith.crtInvertible_iff h0).mp hinv i hi)
  · have hinv := (Arith.crtInvertible_iff h0).mpr fun i hi => by_contra fun hne => hgcd ⟨i, hi, hne⟩
    refine ⟨_, fun i hi => Arith.crtMi_eq_zero_or_inverse h0 hinv hi, ?_⟩
    rw [← Arith.crtValue_eq_sum_prod_erase h0]
    exact runsWide_rdecons hm (not_not.mp hlen) (not_lt.mp hk) h0 hinv

end Sys2Proof.Machine
end

section
/-! PROOFS. RDECONS as the inverse of taking residues (43_rns_crt R157 to R160). Whatever residues a register holds, it
reconstructs the integer that has them, modulo `Q`; RCONS, RADD, RSUB and RMUL write residues of an integer known
beforehand. -/

namespace Sys2Proof.Machine

/-- What RDECONS asks of a moduli register: it is live, holds at most `KMAX` moduli, and they are positive and pairwise
coprime (43_rns_crt R151, R158). -/
structure VReg.CrtModuli {p : Params} (m : VReg p) : Prop where
  live : m.len.val ≠ 0
  inRange : m.len.val ≤ p.KMAX
  positive : ∀ i, i < m.len.val → m.lane i ≠ 0
  coprime : Arith.PairwiseCoprime m.lane m.len.val

theorem VReg.CrtModuli.invertible {p : Params} {m : VReg p} (h : m.CrtModuli) :
    Arith.crtInvertible m.lane m.len.val := Arith.PairwiseCoprime.crtInvertible h.positive h.coprime

/-- Command `i`, which writes `v[rd]`, and RDECONS of it leave `z mod Q` in XW. -/
def Reconstructs (i : Instr) (s : State) (rd rm : VIdx) (z : Int) : Prop :=
  ∃ B C w, exec i s = .next (s.withBlock B) ∧ exec (.rdecons rd rm) (s.withBlock B) = .next (s.withBlock C) ∧
    C.xw = some w ∧ (w.toNat : Int) = z % Arith.crtQ (s.block.getV rm).lane (s.block.getV rm).len.val

section
variable {s : State} {i : Instr} {rd ra rb rm : VIdx} (hm : (s.block.getV rm).CrtModuli)
include hm

/-- RDECONS leaves `z mod Q` in XW as soon as the lanes are congruent to `z` (43_rns_crt R157, R160). -/
theorem runsWide_rdecons_of_modEq (hlen : (s.block.getV ra).len = (s.block.getV rm).len) {z : Int}
    (hz : ∀ k, k < (s.block.getV rm).len.val → z ≡ (s.block.getV ra).lane k [ZMOD (s.block.getV rm).lane k]) :
    RunsWide (.rdecons ra rm) s (z % Arith.crtQ (s.block.getV rm).lane (s.block.getV rm).len.val) := by
  rw [← Arith.cast_crtValue hm.positive hm.coprime hz]
  exact runsWide_rdecons hm.live hlen hm.inRange hm.positive hm.invertible

/-- A command that writes residues of `z` beside the moduli: RDECONS finds the moduli as they were. -/
theorem reconstructs_of_runsVector {f : Nat → Int} (hrun : RunsVector i s rd (s.block.getV rm).len.val f)
    (hne : rd ≠ rm) {z : Int}
    (hz : ∀ k, k < (s.block.getV rm).len.val → z ≡ f k [ZMOD (s.block.getV rm).lane k]) :
    Reconstructs i s rd rm z := by
  obtain ⟨B, hB, hres, -, only⟩ := hrun
  have hrm : B.getV rm = s.block.getV rm := only.v rm hne.symm
  unfold Reconstructs
  rw [← hrm] at hm hz hres ⊢
  obtain ⟨C, w, hC, hxw, hw, -, -⟩ := runsWide_rdecons_of_modEq (s := s.withBlock B) hm (Fin.ext hres.1) fun k hk =>
    (hz k hk).trans (congrArg (· % _) (hres.lane_eq hk).symm)
  exact ⟨B, C, w, hB, hC, hxw, hw⟩

/-- Format R4 whose exact results are congruent to `z`, lane by lane. -/
theorem reconstructs_of_rnsBinary {f : Nat → Nat → Nat → Nat} {g : Int → Int → Int} (hf : Arith.LaneReducesTo f g)
    (hexec : exec i s = s.complete (s.block.rnsBinary f rd ra rb rm))
    (hlen : (s.block.getV ra).len = (s.block.getV rm).len ∧ (s.block.getV rb).len = (s.block.getV rm).len)
    (hne : rd ≠ rm) {z : Int}
    (hz : ∀ k, k < (s.block.getV rm).len.val →
      z ≡ g ((s.block.getV ra).lane k) ((s.block.getV rb).lane k) [ZMOD (s.block.getV rm).lane k]) :
    Reconstructs i s rd rm z :=
  reconstructs_of_runsVector hm (runsVector_of_rnsBinary hf hexec hm.live hlen hm.positive) hne fun k hk =>
    (hz k hk).trans (Int.mod_modEq _ _).symm

end

/-- A number is congruent to its residue. -/
theorem modEq_of_eq_mod {n r m : Nat} (h : r = n % m) : (n : Int) ≡ r [ZMOD m] :=
  Int.natCast_modEq_iff.mpr (h ▸ (Nat.mod_modEq n m).symm)

/-- Settles O33: the value is `Arith.crtValue`, which has the residues, and no other number below `Q` has them. -/
theorem rdeconsIsTheUniqueIntegerBelowQ : Obligations.RdeconsIsTheUniqueIntegerBelowQ := by
  intro s ra rm ha hlen hk h0 hcop
  have hinv := Arith.PairwiseCoprime.crtInvertible h0 hcop
  obtain ⟨B, x, hB, hx, hval, -, -⟩ := runsWide_rdecons (hlen ▸ ha) hlen hk h0 hinv
  refine ⟨B, x, hB, hx, ?_⟩
  rw [Int.natCast_inj.mp hval]
  exact ⟨Arith.crtValue_lt _ h0, fun i hi => Arith.crtValue_modEq h0 hinv _ hi, fun y hy hres =>
    Arith.eq_crtValue h0 hcop hy hres⟩

/-- Settles O34: RCONS writes the residues of XW. -/
theorem rconsThenRdeconsReturnsXwModQ : Obligations.RconsThenRdeconsReturnsXwModQ := by
  intro s rd rm x hx hne hm hk h0 hcop
  obtain ⟨B, C, y, hB, hC, hy, hval⟩ := reconstructs_of_runsVector ⟨hm, hk, h0, hcop⟩
    (runsVector_rcons (rd := rd) hx hm h0) hne fun _ _ => (Int.mod_modEq _ _).symm
  exact ⟨B, C, y, hB, hC, hy, by exact_mod_cast hval⟩

/-- Settles O35: sums, differences and products of residues of `x` and `y` are congruent to those of `x` and `y`. -/
theorem residueArithmeticReconstructs : Obligations.ResidueArithmeticReconstructs := by
  intro s rd ra rb rm x y hne ha hla hlb hk h0 hcop hres
  have hm : (s.block.getV rm).CrtModuli := ⟨hla ▸ ha, hk, h0, hcop⟩
  have hx := fun k hk => modEq_of_eq_mod (hres k hk).1
  have hy := fun k hk => modEq_of_eq_mod (hres k hk).2
  dsimp only
  rw [← Nat.cast_prod]
  exact ⟨reconstructs_of_rnsBinary hm Arith.laneReducesTo_addMod rfl ⟨hla, hlb⟩ hne fun k hk => (hx k hk).add (hy k hk),
    reconstructs_of_rnsBinary hm Arith.laneReducesTo_subMod rfl ⟨hla, hlb⟩ hne fun k hk => (hx k hk).sub (hy k hk),
    reconstructs_of_rnsBinary hm Arith.laneReducesTo_mulMod rfl ⟨hla, hlb⟩ hne fun k hk => (hx k hk).mul (hy k hk)⟩

end Sys2Proof.Machine
end

section
/-! PROOFS. The accumulation chain of the scalar unit (49_host_software R177): MMUL into a temporary, then MADD of it. -/

namespace Sys2Proof.Machine

/-- On valid operands and a positive modulus a command that meets the rule of `g` writes its residue. -/
theorem MeetsScalarRule.runsScalar {i : Instr} {s : State} {rd ra rb rm : XIdx} {g : Int → Int → Int → Int}
    (h : MeetsScalarRule i s rd ra rb rm g) {a b q : Word s.cfg} (ha : s.block.getX ra = some a)
    (hb : s.block.getX rb = some b) (hm : s.block.getX rm = some q) (hq : q ≠ 0) :
    RunsScalar i s rd s.block.noinv (g a.toNat b.toNat q.toNat) := by
  simpa only [MeetsScalarRule, ha, hb, hm, if_neg hq] using h

/-- Settles O27: MMUL leaves the accumulator and the modulus as they are, so MADD adds the product's residue to `c`;
reducing the product before the sum does not change the residue of the sum. -/
theorem multiplyThenAddAccumulates : Obligations.MultiplyThenAddAccumulates := by
  intro s rt ra rb racc rm a b c q ha hb hc hm hq hacc hmod
  have hmul : MeetsScalarRule (.mmul rt ra rb rm) s rt ra rb rm fun a b q => a * b % q :=
    (mmulMultipliesExactlyModuloQ.2 s rt ra rb rm).2
  obtain ⟨B, t, hexecB, ht, htval, -, -, only⟩ := hmul.runsScalar ha hb hm hq
  have hcB : B.getX racc = some c := (only.x racc hacc.symm).trans hc
  have hmB : B.getX rm = some q := (only.x rm hmod.symm).trans hm
  have hadd : MeetsScalarRule (.madd racc racc rt rm) (s.withBlock B) racc racc rt rm fun c t q => (c + t) % q :=
    (maddAddsExactlyModuloQ.2 (s.withBlock B) racc racc rt rm).2
  obtain ⟨C, w, hexecC, hw, hwval, -⟩ := hadd.runsScalar hcB ht hmB hq
  refine ⟨B, C, w, hexecB, hexecC, hw, ?_⟩
  have hsum : (w.toNat : Int) = (c.toNat + a.toNat * b.toNat) % q.toNat := by
    rw [hwval, htval, Int.add_emod_emod]
  exact_mod_cast hsum

end Sys2Proof.Machine
end

section
/-! PROOFS. The turns of a step (60_exceptions R202, R204, R214, R220): the block's turn is the completion in mode BUSY and
nothing elsewhere, a completion leaves mode BUSY, and a host's turn takes one entry off the script. -/

namespace Sys2Proof.Machine

/-! ### The block's turn -/

/-- The next step is the block's turn and leaves the script `ts`: the turn is first in the script, or the script is
exhausted (log 3). -/
def State.BlockTakes (s : State) (ts : List (Turn s.cfg)) : Prop :=
  s.host.turns = .block :: ts ∨ (s.host.turns = [] ∧ ts = [])

theorem step_of_blockTakes {s : State} {ts : List (Turn s.cfg)} (h : s.BlockTakes ts) :
    step s = blockTurn (s.withHost (s.host.withTurns ts)) := by
  obtain turn | ⟨turn, rfl⟩ := h
  · simp only [step, turn]
  · have hsame : s.host.withTurns [] = s.host := by rw [HostSide.withTurns, ← turn]
    simp only [step, turn, hsame]

theorem blockTurn_of_busy {s : State} (busy : s.block.mode = .busy) : blockTurn s = completion s := by
  simp only [blockTurn, busy]

theorem blockTurn_of_not_busy {s : State} (hmode : s.block.mode ≠ .busy) : blockTurn s = .next s := by
  cases h : s.block.mode with
  | idle | fault => simp only [blockTurn, h]
  | busy => exact absurd h hmode

theorem step_of_busy_of_blockTakes {s : State} {ts : List (Turn s.cfg)} (busy : s.block.mode = .busy)
    (h : s.BlockTakes ts) : step s = completion (s.withHost (s.host.withTurns ts)) :=
  (step_of_blockTakes h).trans (blockTurn_of_busy busy)

/-! ### The completion -/

theorem completion_of_decode_ok {s : State} {i : Instr} (h : decode s.block.pend = .ok i) : completion s = exec i s := by
  simp only [completion, h]

theorem completion_of_decode_error {s : State} {e : Reject} (h : decode s.block.pend = .error e) :
    completion s = .next (s.withBlock (s.block.raise .illegalCommand s.block.pend)) := by
  simp only [completion, h, State.complete_eq, Block.finish_error]

/-- Checks end a completion in mode IDLE or, when they raise a fault, in mode FAULT. -/
theorem Block.finish_mode_ne_busy {p : Params} (b : Block p) (r : Except FaultName (Block p)) :
    (b.finish r).mode ≠ .busy := by
  cases r <;> exact nofun

theorem completion_leaves_busy (s : State) : ∃ t, completion s = .next t ∧ t.block.mode ≠ .busy := by
  cases hdec : decode s.block.pend with
  | error e => exact ⟨_, completion_of_decode_error hdec, nofun⟩
  | ok i =>
    obtain ⟨r, hexec⟩ := exec_eq_complete i s
    exact ⟨_, (completion_of_decode_ok hdec).trans hexec, s.block.finish_mode_ne_busy r⟩

/-- A word that meets the mask rule of no opcode does not decode (30_encoding R92, R95). -/
theorem exists_decode_eq_error {w : CmdWord} (h : ∀ o : Op, w &&& o.format.mask ≠ o.matchWord) :
    ∃ e, decode w = .error e := by
  cases hdec : decode w with
  | error e => exact ⟨e, rfl⟩
  | ok i => exact absurd ((decodeAcceptsExactlyTheMaskedWords w i.op).mp ⟨i, hdec, rfl⟩) (h i.op)

/-! ### A host's turn -/

section
variable {p : Params} (b : Block p) (h : HostSide p)

theorem hostRead_turns (a : Addr) : (hostRead a b h).2.turns = h.turns := by
  unfold hostRead
  split
  · rfl
  · split
    · split <;> rfl
    all_goals rfl

theorem hostAct_turns (act : HostAction p) : (hostAct act b h).2.turns = h.turns := by
  cases act with
  | read a => exact hostRead_turns b h a
  | write => rfl
  | reset => rfl

end

theorem hostTurn_turns (s : State) (act : HostAction s.cfg) (ts : List (Turn s.cfg)) :
    (hostTurn s act ts).host.turns = ts :=
  hostAct_turns s.block (s.host.withTurns ts) act

/-- A poll is a read of a diagnostic register, which has a word in every mode (20_memory R66). -/
theorem Block.exists_diagnostic_eq_some {p : Params} (b : Block p) {a : Addr}
    (ha : a = 0x0001 ∨ a = 0x0002 ∨ a = 0x0003) : ∃ w, b.diagnostic (portReg p a) = some w := by
  obtain rfl | rfl | rfl := ha <;> exact ⟨_, rfl⟩

/-! ### Runs -/

theorem run_succ_of_step {s t : State} (h : step s = .next t) (k : Nat) :
    Host.Core.run Sys2Proof.core (k + 1) s = Host.Core.run Sys2Proof.core k t := by
  have hcore : Sys2Proof.core.step s = .next t := h
  simp only [Host.Core.run, hcore]

theorem run_one_of_step {s t : State} (h : step s = .next t) : Host.Core.run Sys2Proof.core 1 s = .next t :=
  run_succ_of_step h 0

/-- In mode BUSY the block's turn is a run of one step that ends outside BUSY. -/
theorem run_one_of_busy_of_blockTakes {s : State} {ts : List (Turn s.cfg)} (busy : s.block.mode = .busy)
    (h : s.BlockTakes ts) :
    ∃ t, Host.Core.run Sys2Proof.core 1 s = .next t ∧ t.block.mode ≠ .busy ∧
      completion (s.withHost (s.host.withTurns ts)) = .next t := by
  obtain ⟨t, hnext, hmode⟩ := completion_leaves_busy (s.withHost (s.host.withTurns ts))
  exact ⟨t, run_one_of_step ((step_of_busy_of_blockTakes busy h).trans hnext), hmode, hnext⟩

/-- Polls change the host side only, so after them the block's turn completes the command that was pending before. -/
theorem run_polls_eq_completion {s : State} (busy : s.block.mode = .busy) {ts : List (Turn s.cfg)} (polls : List Addr)
    (hpolls : ∀ a ∈ polls, a = 0x0001 ∨ a = 0x0002 ∨ a = 0x0003) (H : HostSide s.cfg)
    (turns : H.turns = polls.map (fun a => .host (.read a)) ++ .block :: ts ∨
      (H.turns = polls.map (fun a => .host (.read a)) ∧ ts = [])) :
    ∃ H' : HostSide s.cfg, H'.turns = ts ∧
      Host.Core.run Sys2Proof.core (polls.length + 1) (s.withHost H) = completion (s.withHost H') := by
  induction polls generalizing H with
  | nil =>
    obtain ⟨t, hrun, -, hcompletion⟩ := run_one_of_busy_of_blockTakes (s := s.withHost H) busy turns
    exact ⟨H.withTurns ts, rfl, hrun.trans hcompletion.symm⟩
  | cons a polls ih =>
    obtain ⟨w, hw⟩ := s.block.exists_diagnostic_eq_some (hpolls a List.mem_cons_self)
    obtain ⟨rest, hfirst, hrest⟩ : ∃ rest, H.turns = .host (.read a) :: rest ∧
        (rest = polls.map (fun a => .host (.read a)) ++ .block :: ts ∨
          (rest = polls.map (fun a => .host (.read a)) ∧ ts = [])) := by
      obtain turns | ⟨turns, hts⟩ := turns
      · exact ⟨_, turns, .inl rfl⟩
      · exact ⟨_, turns, .inr ⟨rfl, hts⟩⟩
    have hstep := step_read_diagnostic (s := s.withHost H) hfirst hw
    obtain ⟨H', hH', hrun⟩ := ih (fun c hc => hpolls c (List.mem_cons_of_mem a hc)) ((H.withTurns rest).answer a w) hrest
    exact ⟨H', hH', (run_succ_of_step hstep _).trans hrun⟩

/-- Every host turn shortens the script, and the block's turn ends BUSY at the latest when it is exhausted. -/
theorem exists_run_leaves_busy (n : Nat) (s : State) (hn : s.host.turns.length = n) (busy : s.block.mode = .busy) :
    ∃ k t, k ≤ n + 1 ∧ Host.Core.run Sys2Proof.core k s = .next t ∧ (show State from t).block.mode ≠ .busy := by
  induction n generalizing s with
  | zero =>
    have turn : s.BlockTakes [] := .inr ⟨List.length_eq_zero_iff.mp hn, rfl⟩
    obtain ⟨t, hrun, hmode, -⟩ := run_one_of_busy_of_blockTakes busy turn
    exact ⟨1, t, le_rfl, hrun, hmode⟩
  | succ n ih =>
    obtain ⟨turn, ts, hturns⟩ := List.exists_cons_of_length_eq_add_one hn
    cases turn with
    | block =>
      obtain ⟨t, hrun, hmode, -⟩ := run_one_of_busy_of_blockTakes busy (.inl hturns)
      exact ⟨1, t, by omega, hrun, hmode⟩
    | host act =>
      have hstep := step_of_hostTurn hturns
      by_cases hbusy : (hostTurn s act ts).block.mode = .busy
      · have hlen : (hostTurn s act ts).host.turns.length = n := by
          rw [hostTurn_turns]
          rw [hturns, List.length_cons] at hn
          exact Nat.succ.inj hn
        obtain ⟨k, t, hk, hrun, hmode⟩ := ih (hostTurn s act ts) hlen hbusy
        exact ⟨k + 1, t, by omega, (run_succ_of_step hstep k).trans hrun, hmode⟩
      · exact ⟨1, hostTurn s act ts, by omega, run_one_of_step hstep, hbusy⟩

/-! ### The obligations -/

/-- Settles O5: the step is `blockTurn`, which is the completion in mode BUSY only. -/
theorem stepRunsTheDecodedCommand : Obligations.StepRunsTheDecodedCommand := fun _ _ turn =>
  ⟨fun _ busy hdec => (step_of_busy_of_blockTakes busy turn).trans (completion_of_decode_ok hdec),
    fun hmode => (step_of_blockTakes turn).trans (blockTurn_of_not_busy hmode)⟩

/-- Settles O6: the word does not decode, so the completion is the fault entry. -/
theorem illegalWordRaisesIllegalCommand : Obligations.IllegalWordRaisesIllegalCommand := by
  intro s ts busy turn hillegal
  obtain ⟨e, hdec⟩ := exists_decode_eq_error hillegal
  exact ⟨s.block.raise .illegalCommand s.block.pend,
    (step_of_busy_of_blockTakes busy turn).trans (completion_of_decode_error hdec), s.block.enteredFault_raise _ _⟩

/-- Settles O7: a step replaces the block and the host side only. -/
theorem stepAlwaysAnswersNext : Obligations.StepAlwaysAnswersNext := by
  intro s
  obtain ⟨B, H, hstep, -⟩ := step_stepsTo s
  exact ⟨s.update B H, hstep, rfl⟩

/-- Settles O8: polls leave the pending command as it is, and every other turn of the host shortens the script. -/
theorem issuedCommandCompletes : Obligations.IssuedCommandCompletes :=
  ⟨fun s polls _ busy hpolls turns => run_polls_eq_completion busy polls hpolls s.host turns,
    fun s busy => exists_run_leaves_busy _ s rfl busy⟩

/-- Settles O44: of the changes a step can make to the block, only the reset event is possible in mode FAULT. -/
theorem onlyResetLeavesFault : Obligations.OnlyResetLeavesFault := by
  intro s t hfault h
  obtain ⟨B, H, rfl, hB⟩ := step_cases h
  cases hB with
  | unchanged => exact .inr ⟨H, rfl⟩
  | completed _ busy => exact nomatch hfault.symm.trans busy
  | commandFault busy => exact nomatch hfault.symm.trans busy
  | hostWrite write => exact nomatch hfault.symm.trans write.idle
  | accessFault fault =>
    obtain ⟨running, -⟩ := fault
    exact absurd hfault running
  | reset turn => exact .inl turn

end Sys2Proof.Machine
end

section
/-! PROOFS. The order of the checks (60_exceptions R203, R210). The rules settled above say in which order one command
checks its operands; here they are read as one order for all commands, of which every command has only some checks. -/

namespace Sys2Proof

/-- What the checks of a command speak of: the registers it reads, the moduli it names, and whether it reconstructs
(30_encoding R92, R94). -/
structure Operands where
  x : List XIdx := []
  v : List VIdx := []
  xw : Bool := false
  modulusX : Option XIdx := none
  modulusV : Option VIdx := none
  reconstructs : Bool := false

/-- The operands of a command. -/
def Instr.operands (i : Instr) : Operands where
  x := i.readsX
  v := i.readsV
  xw := i.readsXW
  modulusX := i.modulusX
  modulusV := i.modulusV
  reconstructs := i.reconstructs

end Sys2Proof

namespace Sys2Proof.Machine

/-! ### The conditions, from the operands of a command -/

/-- Pairwise coprime moduli, said of each modulus and the product of the others (43_rns_crt R156, R158). -/
theorem Arith.pairwiseCoprime_iff {m : Nat → Nat} {k : Nat} :
    Arith.PairwiseCoprime m k ↔ ∀ i, i < k → Nat.gcd (∏ j ∈ (Finset.range k).erase i, m j) (m i) = 1 := by
  simp only [Arith.PairwiseCoprime, ← Nat.coprime_iff_gcd_eq_one, Nat.coprime_prod_left_iff, Finset.mem_erase,
    Finset.mem_range]
  exact ⟨fun h i hi j hj => h j i hj.2 hi hj.1, fun h i j hi hj hij => h j hj i ⟨hij, hi⟩⟩

section
variable {p : Params} (b : Block p) {i : Instr} {o : Operands} (hi : i.operands = o)
include hi

theorem Block.readsEmpty_iff :
    b.readsEmpty i ↔ (∃ r ∈ o.x, b.getX r = none) ∨ (∃ r ∈ o.v, (b.getV r).len.val = 0) ∨
      (o.xw = true ∧ b.xw = none) := by
  subst hi; rfl

theorem Block.lengthsDiffer_iff :
    b.lengthsDiffer i ↔ ∃ r ∈ o.v, ∃ t ∈ o.v, (b.getV r).len ≠ (b.getV t).len := by
  subst hi; rfl

theorem Block.tooManyModuli_iff :
    b.tooManyModuli i ↔ o.reconstructs = true ∧ ∃ r ∈ o.modulusV, p.KMAX < (b.getV r).len.val := by
  subst hi; rfl

theorem Block.zeroModulusUsed_iff :
    b.zeroModulusUsed i ↔ (∃ r ∈ o.modulusX, b.getX r = some 0) ∨
      (∃ r ∈ o.modulusV, ∃ k, k < (b.getV r).len.val ∧ (b.getV r).lane k = 0) := by
  subst hi; rfl

theorem Block.moduliShareFactor_iff :
    b.moduliShareFactor i ↔ o.reconstructs = true ∧
      ∃ r ∈ o.modulusV, ¬Arith.PairwiseCoprime (b.getV r).lane (b.getV r).len.val := by
  subst hi
  simp only [Block.moduliShareFactor, Arith.PairwiseCoprime, Instr.operands, not_forall, exists_prop, ne_eq]

end

/-! ### The first fault that applies -/

/-- Command `i` completes without a fault. -/
def Completes (i : Instr) (s : State) : Prop :=
  ∃ B, exec i s = .next (s.withBlock B) ∧ B.mode = .idle ∧ B.err = s.block.err ∧ B.errinfo = s.block.errinfo

open Classical in
/-- Command `i` raises the first fault that applies in the order of R210, or completes. -/
def ReportsFirstFault (i : Instr) (s : State) : Prop :=
  if s.block.readsEmpty i then Raises i s 0x02
  else if s.block.lengthsDiffer i then Raises i s 0x03
  else if s.block.tooManyModuli i then Raises i s 0x06
  else if s.block.zeroModulusUsed i then Raises i s 0x04
  else if s.block.moduliShareFactor i then Raises i s 0x05
  else Completes i s

section
variable {i : Instr} {s : State}

theorem RunsScalar.completes {rd : XIdx} {f : Bool} {r : Int} (h : RunsScalar i s rd f r) : Completes i s := by
  obtain ⟨B, _, hB, -, -, hmode, -, only⟩ := h
  exact ⟨B, hB, hmode, only.err, only.errinfo⟩

theorem RunsVector.completes {rd : VIdx} {n : Nat} {f : Nat → Int} (h : RunsVector i s rd n f) : Completes i s := by
  obtain ⟨B, hB, -, hmode, only⟩ := h
  exact ⟨B, hB, hmode, only.err, only.errinfo⟩

theorem RunsWide.completes {r : Int} (h : RunsWide i s r) : Completes i s := by
  obtain ⟨B, _, hB, -, -, hmode, only⟩ := h
  exact ⟨B, hB, hmode, only.err, only.errinfo⟩

open Classical in
/-- LenRange and NotCoprime are checks of RDECONS alone (60_exceptions R211). -/
theorem reportsFirstFault_iff {o : Operands} (hi : i.operands = o) (hrec : o.reconstructs = false) :
    ReportsFirstFault i s ↔
      if s.block.readsEmpty i then Raises i s 0x02
      else if s.block.lengthsDiffer i then Raises i s 0x03
      else if s.block.zeroModulusUsed i then Raises i s 0x04
      else Completes i s := by
  have hrange : ¬s.block.tooManyModuli i := by simp [Block.tooManyModuli_iff _ hi, hrec]
  have hshare : ¬s.block.moduliShareFactor i := by simp [Block.moduliShareFactor_iff _ hi, hrec]
  simp only [ReportsFirstFault, hrange, hshare, if_false]

/-! ### Each format's order is a part of the fixed one -/

/-- Format S4. -/
theorem reportsFirstFault_of_scalarRule {rd ra rb rm : XIdx} {g : Int → Int → Int → Int}
    (hi : i.operands = { x := [ra, rb, rm], modulusX := some rm }) (h : MeetsScalarRule i s rd ra rb rm g) :
    ReportsFirstFault i s := by
  have hempty : s.block.readsEmpty i ↔ s.block.getX ra = none ∨ s.block.getX rb = none ∨ s.block.getX rm = none := by
    simp [Block.readsEmpty_iff _ hi]
  have hlen : ¬s.block.lengthsDiffer i := by simp [Block.lengthsDiffer_iff _ hi]
  have hzero : s.block.zeroModulusUsed i ↔ s.block.getX rm = some 0 := by simp [Block.zeroModulusUsed_iff _ hi]
  rw [reportsFirstFault_iff hi rfl]
  simp only [hempty, hlen, hzero, if_false]
  unfold MeetsScalarRule at h
  split at h
  next a c q ha hb hm =>
    simp only [ha, hb, hm, reduceCtorEq, or_self, if_false, Option.some.injEq]
    split_ifs at h ⊢
    exacts [h, h.completes]
  next hinvalid =>
    have hnone : s.block.getX ra = none ∨ s.block.getX rb = none ∨ s.block.getX rm = none := by
      simp only [Option.eq_none_iff_forall_ne_some]
      grind
    rwa [if_pos hnone]

/-- Format S3: with or without an inverse, MINV completes. -/
theorem reportsFirstFault_minv (s : State) (rd ra rm : XIdx) : ReportsFirstFault (.minv rd ra rm) s := by
  have hi : (Instr.minv rd ra rm).operands = { x := [ra, rm], modulusX := some rm } := rfl
  have hempty : s.block.readsEmpty (.minv rd ra rm) ↔ s.block.getX ra = none ∨ s.block.getX rm = none := by
    simp [Block.readsEmpty_iff _ hi]
  have hlen : ¬s.block.lengthsDiffer (.minv rd ra rm) := by simp [Block.lengthsDiffer_iff _ hi]
  have hzero : s.block.zeroModulusUsed (.minv rd ra rm) ↔ s.block.getX rm = some 0 := by
    simp [Block.zeroModulusUsed_iff _ hi]
  rw [reportsFirstFault_iff hi rfl]
  simp only [hempty, hlen, hzero, if_false]
  have h := (minvReturnsTheUniqueInverseOrEmpty.2.2 s rd ra rm).2
  split at h
  next a m ha hm =>
    simp only [ha, hm, reduceCtorEq, or_self, if_false, Option.some.injEq]
    split_ifs at h ⊢
    · exact h
    · obtain ⟨B, hB, -, -, hmode, only⟩ := h
      exact ⟨B, hB, hmode, only.err, only.errinfo⟩
    · exact h.completes
    · obtain ⟨_, hrun, -⟩ := h
      exact hrun.completes
  next hinvalid =>
    have hnone : s.block.getX ra = none ∨ s.block.getX rm = none := by
      simp only [Option.eq_none_iff_forall_ne_some]
      grind
    rwa [if_pos hnone]

/-- Format V4. -/
theorem reportsFirstFault_of_polyRule {rd ra rb : VIdx} {rm : XIdx}
    {g : (Nat → Nat) → (Nat → Nat) → Nat → Nat → Int}
    (hi : i.operands = { x := [rm], v := [ra, rb], modulusX := some rm }) (h : MeetsPolyRule i s rd ra rb rm g) :
    ReportsFirstFault i s := by
  have hempty : s.block.readsEmpty i ↔
      s.block.getX rm = none ∨ (s.block.getV ra).len.val = 0 ∨ (s.block.getV rb).len.val = 0 := by
    simp [Block.readsEmpty_iff _ hi]
  have hlen : s.block.lengthsDiffer i ↔ (s.block.getV ra).len ≠ (s.block.getV rb).len := by
    simp [Block.lengthsDiffer_iff _ hi, eq_comm]
  have hzero : s.block.zeroModulusUsed i ↔ s.block.getX rm = some 0 := by simp [Block.zeroModulusUsed_iff _ hi]
  rw [reportsFirstFault_iff hi rfl]
  simp only [hempty, hlen, hzero]
  unfold MeetsPolyRule at h
  split at h
  next hnone => rwa [if_pos (.inl hnone)]
  next q hm =>
    dsimp only at h
    simp only [hm, reduceCtorEq, false_or, Option.some.injEq]
    split_ifs at h ⊢
    exacts [h, h, h, h.completes]

/-- Format V3. -/
theorem reportsFirstFault_of_unaryPolyRule {rd ra : VIdx} {rm : XIdx} {g : (Nat → Nat) → Nat → Int}
    (hi : i.operands = { x := [rm], v := [ra], modulusX := some rm }) (h : MeetsUnaryPolyRule i s rd ra rm g) :
    ReportsFirstFault i s := by
  have hempty : s.block.readsEmpty i ↔ s.block.getX rm = none ∨ (s.block.getV ra).len.val = 0 := by
    simp [Block.readsEmpty_iff _ hi]
  have hlen : ¬s.block.lengthsDiffer i := by simp [Block.lengthsDiffer_iff _ hi]
  have hzero : s.block.zeroModulusUsed i ↔ s.block.getX rm = some 0 := by simp [Block.zeroModulusUsed_iff _ hi]
  rw [reportsFirstFault_iff hi rfl]
  simp only [hempty, hlen, hzero, if_false]
  unfold MeetsUnaryPolyRule at h
  split at h
  next hnone => rwa [if_pos (.inl hnone)]
  next q hm =>
    dsimp only at h
    simp only [hm, reduceCtorEq, false_or, Option.some.injEq]
    split_ifs at h ⊢
    exacts [h, h, h.completes]

/-- Format VN: PNORM reads no modulus. -/
theorem reportsFirstFault_pnorm (s : State) (rd : XIdx) (ra : VIdx) : ReportsFirstFault (.pnorm rd ra) s := by
  have hi : (Instr.pnorm rd ra).operands = { v := [ra] } := rfl
  have hempty : s.block.readsEmpty (.pnorm rd ra) ↔ (s.block.getV ra).len.val = 0 := by
    simp [Block.readsEmpty_iff _ hi]
  have hlen : ¬s.block.lengthsDiffer (.pnorm rd ra) := by simp [Block.lengthsDiffer_iff _ hi]
  have hzero : ¬s.block.zeroModulusUsed (.pnorm rd ra) := by simp [Block.zeroModulusUsed_iff _ hi]
  rw [reportsFirstFault_iff hi rfl]
  simp only [hempty, hlen, hzero, if_false]
  have h := (pnormIsTheLargestLiveLane.2 s rd ra).2
  dsimp only at h
  split_ifs at h ⊢
  · exact h
  · obtain ⟨_, hrun, -⟩ := h
    exact hrun.completes

/-- Format RC. -/
theorem reportsFirstFault_rcons (s : State) (rd rm : VIdx) : ReportsFirstFault (.rcons rd rm) s := by
  have hi : (Instr.rcons rd rm).operands = { v := [rm], xw := true, modulusV := some rm } := rfl
  have hempty : s.block.readsEmpty (.rcons rd rm) ↔ (s.block.getV rm).len.val = 0 ∨ s.block.xw = none := by
    simp [Block.readsEmpty_iff _ hi]
  have hlen : ¬s.block.lengthsDiffer (.rcons rd rm) := by simp [Block.lengthsDiffer_iff _ hi]
  have hzero : s.block.zeroModulusUsed (.rcons rd rm) ↔
      ∃ k, k < (s.block.getV rm).len.val ∧ (s.block.getV rm).lane k = 0 := by
    simp [Block.zeroModulusUsed_iff _ hi]
  rw [reportsFirstFault_iff hi rfl]
  simp only [hempty, hlen, hzero, if_false]
  have h := (rconsTakesResiduesOfXw.2 s rd rm).2
  split at h
  next hnone => rwa [if_pos (.inr hnone)]
  next x hx =>
    dsimp only at h
    simp only [hx, reduceCtorEq, or_false]
    split_ifs at h ⊢
    exacts [h, h, h.completes]

/-- Format R4. -/
theorem reportsFirstFault_of_rnsRule {rd ra rb rm : VIdx} {g : Int → Int → Int}
    (hi : i.operands = { v := [ra, rb, rm], modulusV := some rm }) (h : MeetsRnsRule i s rd ra rb rm g) :
    ReportsFirstFault i s := by
  have hempty : s.block.readsEmpty i ↔
      (s.block.getV ra).len.val = 0 ∨ (s.block.getV rb).len.val = 0 ∨ (s.block.getV rm).len.val = 0 := by
    simp [Block.readsEmpty_iff _ hi]
  have hlen : s.block.lengthsDiffer i ↔
      ¬((s.block.getV ra).len = (s.block.getV rm).len ∧ (s.block.getV rb).len = (s.block.getV rm).len) := by
    simp only [Block.lengthsDiffer_iff _ hi]
    grind
  have hzero : s.block.zeroModulusUsed i ↔
      ∃ k, k < (s.block.getV rm).len.val ∧ (s.block.getV rm).lane k = 0 := by
    simp [Block.zeroModulusUsed_iff _ hi]
  rw [reportsFirstFault_iff hi rfl]
  simp only [hempty, hlen, hzero]
  unfold MeetsRnsRule at h
  dsimp only at h
  split_ifs at h ⊢
  exacts [h, h, h.completes, h]

/-- Format RD: RDECONS has every check. -/
theorem reportsFirstFault_rdecons (s : State) (ra rm : VIdx) : ReportsFirstFault (.rdecons ra rm) s := by
  have hi : (Instr.rdecons ra rm).operands = { v := [ra, rm], modulusV := some rm, reconstructs := true } := rfl
  have hempty : s.block.readsEmpty (.rdecons ra rm) ↔
      (s.block.getV ra).len.val = 0 ∨ (s.block.getV rm).len.val = 0 := by
    simp [Block.readsEmpty_iff _ hi]
  have hlen : s.block.lengthsDiffer (.rdecons ra rm) ↔ (s.block.getV ra).len ≠ (s.block.getV rm).len := by
    simp [Block.lengthsDiffer_iff _ hi, eq_comm]
  have hrange : s.block.tooManyModuli (.rdecons ra rm) ↔ s.cfg.KMAX < (s.block.getV rm).len.val := by
    simp [Block.tooManyModuli_iff _ hi]
  have hzero : s.block.zeroModulusUsed (.rdecons ra rm) ↔
      ∃ k, k < (s.block.getV rm).len.val ∧ (s.block.getV rm).lane k = 0 := by
    simp [Block.zeroModulusUsed_iff _ hi]
  have hshare : s.block.moduliShareFactor (.rdecons ra rm) ↔
      ∃ i, i < (s.block.getV rm).len.val ∧ Nat.gcd (∏ j ∈ (Finset.range (s.block.getV rm).len.val).erase i,
        (s.block.getV rm).lane j) ((s.block.getV rm).lane i) ≠ 1 := by
    simp [Block.moduliShareFactor_iff _ hi, Arith.pairwiseCoprime_iff]
  simp only [ReportsFirstFault, hempty, hlen, hrange, hzero, hshare]
  have h := (rdeconsReconstructsByTheDirectFormula.2 s ra rm).2
  dsimp only at h
  split_ifs at h ⊢
  exacts [h, h, h, h, h, let ⟨_, _, hrun⟩ := h; hrun.completes]

end

/-- Every command reports the first fault that applies, by its own rule. -/
theorem reportsFirstFault (i : Instr) (s : State) : ReportsFirstFault i s := by
  cases i with
  | madd =>
    exact reportsFirstFault_of_scalarRule rfl (meetsScalarRule_of_scalarOp Arith.reduces_addMod
      (g := fun a c q => (a + c) % q) Arith.laneReducesTo_addMod rfl)
  | msub =>
    exact reportsFirstFault_of_scalarRule rfl (meetsScalarRule_of_scalarOp Arith.reduces_subMod
      (g := fun a c q => (a - c) % q) Arith.laneReducesTo_subMod rfl)
  | mmul =>
    exact reportsFirstFault_of_scalarRule rfl (meetsScalarRule_of_scalarOp Arith.reduces_mulMod
      (g := fun a c q => a * c % q) Arith.laneReducesTo_mulMod rfl)
  | minv rd ra rm => exact reportsFirstFault_minv s rd ra rm
  | padd => exact reportsFirstFault_of_polyRule rfl (meetsPolyRule_of_polyBinary Arith.reducesTo_polyAdd rfl)
  | psub => exact reportsFirstFault_of_polyRule rfl (meetsPolyRule_of_polyBinary Arith.reducesTo_polySub rfl)
  | pmulc => exact reportsFirstFault_of_polyRule rfl (meetsPolyRule_of_polyBinary Arith.reducesTo_polyCyclic rfl)
  | pmuln => exact reportsFirstFault_of_polyRule rfl (meetsPolyRule_of_polyBinary Arith.reducesTo_polyNegacyclic rfl)
  | pneg =>
    exact reportsFirstFault_of_unaryPolyRule rfl (meetsUnaryPolyRule_of_polyUnary (v := fun a k => 0 - (a k : Int))
      Arith.reducesTo_polyNeg rfl)
  | pred =>
    exact reportsFirstFault_of_unaryPolyRule rfl (meetsUnaryPolyRule_of_polyUnary (v := fun a k => (a k : Int))
      Arith.reducesTo_polyReduce rfl)
  | pnorm rd ra => exact reportsFirstFault_pnorm s rd ra
  | rcons rd rm => exact reportsFirstFault_rcons s rd rm
  | radd => exact reportsFirstFault_of_rnsRule rfl (meetsRnsRule_of_rnsBinary Arith.laneReducesTo_addMod rfl)
  | rsub => exact reportsFirstFault_of_rnsRule rfl (meetsRnsRule_of_rnsBinary Arith.laneReducesTo_subMod rfl)
  | rmul => exact reportsFirstFault_of_rnsRule rfl (meetsRnsRule_of_rnsBinary Arith.laneReducesTo_mulMod rfl)
  | rdecons ra rm => exact reportsFirstFault_rdecons s ra rm

/-! ### The obligations -/

/-- Settles O36: the clauses are the branches of `ReportsFirstFault`. -/
theorem commandFaultsInTheFixedOrder : Obligations.CommandFaultsInTheFixedOrder := by
  intro i s
  have h := reportsFirstFault i s
  unfold ReportsFirstFault at h
  refine ⟨fun hE => ?_, fun hE hD => ?_, fun hE hD hL => ?_, fun hE hD hL hZ => ?_, fun hE hD hL hZ hN => ?_,
    fun hE hD hL hZ hN => ?_⟩
  · rwa [if_pos hE] at h
  · rwa [if_neg hE, if_pos hD] at h
  · rwa [if_neg hE, if_neg hD, if_pos hL] at h
  · rwa [if_neg hE, if_neg hD, if_neg hL, if_pos hZ] at h
  · rwa [if_neg hE, if_neg hD, if_neg hL, if_neg hZ, if_pos hN] at h
  · rwa [if_neg hE, if_neg hD, if_neg hL, if_neg hZ, if_neg hN] at h

/-- Settles O38: in mode FAULT the command has not made its writes, so it has raised a command fault. -/
theorem commandFaultsArePrecise : Obligations.CommandFaultsArePrecise := by
  intro i s B hexec hfault
  obtain ⟨C, hC, hcases⟩ := exec_cases i s
  obtain rfl : C = B := by simpa [hC] using hexec
  obtain ⟨b', -, rfl⟩ | ⟨f, hcode, rfl⟩ := hcases
  · exact nomatch hfault
  · exact ⟨f.code, hcode, s.block.enteredFault_raise f _⟩

end Sys2Proof.Machine
end
